-- ==== Sys2Proof/Word.lean ====
section
/-! DEFINITION. The word types: REG_W = 64 bits (00_scope.md R9) and the octet (00_scope.md section 6). -/

namespace Sys2Proof

/-- The contents of a host-visible register: REG_W = 64 bits (R9). -/
abbrev Word := BitVec 64

/-- An octet, 8 bits (00_scope.md section 6). -/
abbrev Byte := BitVec 8

end Sys2Proof
end

