-- ==== Sys2Proof/Config.lean ====
section
/-! DEFINITION. What the implementation fixes: the six operations (00_scope.md R5), the byte orders, the two float
formats with their parameters (R7), the classes of a float word (10_state.md R23) and the named parameters of R10 with
the value this hardware takes. P_ROUND is a function and stands in Machine/Operands.lean (`roundNearestEven`). -/

namespace Sys2Proof

/-- The byte-order selector of a command (00_scope.md R5): most or least significant octet first. -/
inductive Order where
  | be
  | le
  deriving DecidableEq, Repr

/-- The six operations of the block, in the document's order (00_scope.md R5). -/
inductive Op where
  | readInt16
  | readInt32
  | decodeF32
  | decodeF64
  | encodeF32
  | encodeF64
  deriving DecidableEq, Repr

/-- The two float formats in scope (00_scope.md R4, R7). -/
inductive Format where
  | binary32
  | binary64
  deriving DecidableEq, Repr

/-- The classes of STATUS.CLASS (10_state.md R23). -/
inductive FClass where
  | none
  | zero
  | subnormal
  | normal
  | inf
  | nan
  deriving DecidableEq, Repr

/-- Exponent field width eb (00_scope.md R7). -/
def Format.eb : Format → Nat
  | .binary32 => 8
  | .binary64 => 11

/-- Fraction field width fb (00_scope.md R7). -/
def Format.fb : Format → Nat
  | .binary32 => 23
  | .binary64 => 52

/-- Total width: 1 sign bit, eb exponent bits, fb fraction bits (00_scope.md R7). -/
def Format.width (T : Format) : Nat := 1 + T.eb + T.fb

/-- bias = 2^(eb-1) - 1 (00_scope.md R7). -/
def Format.bias (T : Format) : Nat := 2 ^ (T.eb - 1) - 1

/-- The all-ones exponent value Emax_f = 2^eb - 1 (41_float_decode.md R69). -/
def Format.expMax (T : Format) : Nat := 2 ^ T.eb - 1

/-- emin = 1 - bias (00_scope.md R7). -/
def Format.emin (T : Format) : Int := 1 - (T.bias : Int)

/-- emax = bias (00_scope.md R7). -/
def Format.emax (T : Format) : Int := (T.bias : Int)

/-- P_DEC_NAN32 and P_DEC_NAN64: the decoder's result for a NaN input (00_scope.md R10, 41_float_decode.md R75). -/
def Config.decNan : Format → Word
  | .binary32 => 0x7FC00000#64
  | .binary64 => 0x7FF8000000000000#64

/-- P_ENC_NAN32 and P_ENC_NAN64: the encoder's word for a NaN operand (00_scope.md R10, 42_float_encode.md R88). -/
def Config.encNan : Format → Word
  | .binary32 => 0x7FC00000#64
  | .binary64 => 0x7FF8000000000000#64

/-- P_FLOAT_EOS_FILL: the octet that stands for a missing octet in a float word and in RAW (00_scope.md R10). -/
def Config.eosFill : Byte := 0xFF#8

end Sys2Proof
end

