-- ==== Sys2Proof/Syntax.lean ====
section
/-! DEFINITION. The instructions: the twelve command words of 30_encoding.md R55, one constructor for each row of
spec/opcode_table.json. A command carries no operand field (R56): its operands are the byte order its word selects,
OPND, and the octets of the source. -/

namespace Sys2Proof

/-- One constructor for each command of 30_encoding.md R55. -/
inductive Instr where
  | readInt16Be
  | readInt16Le
  | readInt32Be
  | readInt32Le
  | decodeF32Be
  | decodeF32Le
  | decodeF64Be
  | decodeF64Le
  | encodeF32Be
  | encodeF32Le
  | encodeF64Be
  | encodeF64Le
  deriving DecidableEq, Repr

end Sys2Proof
end

