-- ==== Sys2Proof/Machine/HostProgram.lean ====
section
/-! DEFINITION. The host-program notation of 30_encoding.md R60: the host instructions, and the lines of a program
with labels and the pseudo-instructions WAITIDLE, DO and ENC. They are not CORE hardware. -/

namespace Sys2Proof.Machine

/-- A host bus access: a byte offset in the register window and the access width in bits (20_memory.md R46). -/
structure BusAddr where
  offset : Nat
  bits   : Nat
  deriving DecidableEq, Repr

/-- A whole-register access to a register slot: 64 bits at offset 8 · number (10_state.md R12). -/
def BusAddr.ofReg (number : Nat) : BusAddr := { offset := 8 * number, bits := 64 }

/-- CMD, register number 0 (10_state.md R12). -/
def BusAddr.cmd : BusAddr := BusAddr.ofReg 0

/-- OPND, register number 1 (10_state.md R12). -/
def BusAddr.opnd : BusAddr := BusAddr.ofReg 1

/-- RESULT, register number 2 (10_state.md R12). -/
def BusAddr.result : BusAddr := BusAddr.ofReg 2

/-- RAW, register number 3 (10_state.md R12). -/
def BusAddr.raw : BusAddr := BusAddr.ofReg 3

/-- STATUS, register number 4 (10_state.md R12). -/
def BusAddr.status : BusAddr := BusAddr.ofReg 4

/-- The host instructions (30_encoding.md R60). A label is resolved to the index of the host instruction it names. -/
inductive HostInstr where
  | wr (a : BusAddr) (v : Word)
  | rd (t : Fin 8) (a : BusAddr)
  | andi (td ts : Fin 8) (imm : Word)
  | bnz (t : Fin 8) (target : Nat)
  | addi (td ts : Fin 8) (imm : Word)
  deriving DecidableEq, Repr

/-- The lines of a host program before its labels are resolved and its pseudo-instructions expanded
(30_encoding.md R60). Labels are numbered. -/
inductive HostLine where
  | label (l : Nat)
  | wr (a : BusAddr) (v : Word)
  | wrCmd (a : BusAddr) (i : Instr)
  | rd (t : Fin 8) (a : BusAddr)
  | andi (td ts : Fin 8) (imm : Word)
  | bnz (t : Fin 8) (l : Nat)
  | addi (td ts : Fin 8) (imm : Word)
  | waitIdle
  | doCmd (i : Instr)
  | enc (i : Instr) (v : Word)
  deriving DecidableEq, Repr

end Sys2Proof.Machine
end

