-- ==== Sys2Proof/WellFormed.lean ====
section
/-! DEFINITION. Well-formedness: legal command words (30_encoding.md R57), bus accesses inside CORE's interface
(20_memory.md R46), host instructions and host programs (30_encoding.md R60). A command of `Instr` has no operand, so
there is nothing in one to check: every constructor is well formed. -/

namespace Sys2Proof

/-- A CMD value is legal exactly when v[63:4] = 0 and v[2:0] is in 0b001..0b110 (30_encoding.md R57). -/
def legalWord (v : Word) : Bool :=
  decide (v.toNat < 16) && decide (1 ≤ v.toNat % 8) && decide (v.toNat % 8 ≤ 6)

/-- A command carries no operand field (30_encoding.md R56): each one is well formed. -/
def Instr.wellFormed : Instr → Bool
  | .readInt16Be => true
  | .readInt16Le => true
  | .readInt32Be => true
  | .readInt32Le => true
  | .decodeF32Be => true
  | .decodeF32Le => true
  | .decodeF64Be => true
  | .decodeF64Le => true
  | .encodeF32Be => true
  | .encodeF32Le => true
  | .encodeF64Be => true
  | .encodeF64Le => true

namespace Machine

/-- An access inside CORE's interface: 64 bits, at a multiple of 8, in 0x00 to 0x38 (20_memory.md R46). -/
def BusAddr.wellFormed (a : BusAddr) : Bool :=
  decide (a.bits = 64) && decide (a.offset % 8 = 0) && decide (a.offset < 0x40)

/-- A host instruction of a program of `len` instructions: its access is inside the interface, and its label names a
host instruction of the program or its end (30_encoding.md R60). -/
def HostInstr.wellFormed (len : Nat) : HostInstr → Bool
  | .wr a _ => a.wellFormed
  | .rd _ a => a.wellFormed
  | .andi _ _ _ => true
  | .bnz _ target => decide (target ≤ len)
  | .addi _ _ _ => true

/-- Every host instruction of the program is well formed. -/
def hostProgramWellFormed (prog : List HostInstr) : Bool :=
  prog.all (HostInstr.wellFormed prog.length)

end Machine

end Sys2Proof
end

