-- ==== Sys2Proof/Decode.lean ====
section
/-! DEFINITION. The operation table of 30_encoding.md R54, the decoder of a CMD value (R53, R57) and the encoder of a
command (R55). The decoder is total on every 64-bit word and names why it rejects one. -/

namespace Sys2Proof

/-- The OP code of an operation (30_encoding.md R54). -/
def Op.code : Op → BitVec 3
  | .readInt16 => 0b001#3
  | .readInt32 => 0b010#3
  | .decodeF32 => 0b011#3
  | .decodeF64 => 0b100#3
  | .encodeF32 => 0b101#3
  | .encodeF64 => 0b110#3

/-- The operation of an OP code. The codes 0b000 and 0b111 are reserved (30_encoding.md R54). -/
def Op.ofCode (c : BitVec 3) : Option Op :=
  match c.toNat with
  | 1 => some .readInt16
  | 2 => some .readInt32
  | 3 => some .decodeF32
  | 4 => some .decodeF64
  | 5 => some .encodeF32
  | 6 => some .encodeF64
  | _ => none

/-- The octet count N of an operation (00_scope.md R6). -/
def Op.octets : Op → Nat
  | .readInt16 => 2
  | .readInt32 => 4
  | .decodeF32 => 4
  | .decodeF64 => 8
  | .encodeF32 => 4
  | .encodeF64 => 8

/-- A read operation takes its octets from the source, an encode operation sends them to the sink (30_encoding.md R54). -/
def Op.isRead : Op → Bool
  | .readInt16 => true
  | .readInt32 => true
  | .decodeF32 => true
  | .decodeF64 => true
  | .encodeF32 => false
  | .encodeF64 => false

/-- CMD.ORDER: 0 is BE, 1 is LE (10_state.md R13). -/
def Order.bit : Order → Bool
  | .be => false
  | .le => true

/-- The byte order of CMD.ORDER (10_state.md R13). -/
def Order.ofBit (b : Bool) : Order := if b then .le else .be

/-- The operation of a command (30_encoding.md R55). -/
def Instr.op : Instr → Op
  | .readInt16Be => .readInt16
  | .readInt16Le => .readInt16
  | .readInt32Be => .readInt32
  | .readInt32Le => .readInt32
  | .decodeF32Be => .decodeF32
  | .decodeF32Le => .decodeF32
  | .decodeF64Be => .decodeF64
  | .decodeF64Le => .decodeF64
  | .encodeF32Be => .encodeF32
  | .encodeF32Le => .encodeF32
  | .encodeF64Be => .encodeF64
  | .encodeF64Le => .encodeF64

/-- The byte order of a command (30_encoding.md R55). -/
def Instr.order : Instr → Order
  | .readInt16Be => .be
  | .readInt16Le => .le
  | .readInt32Be => .be
  | .readInt32Le => .le
  | .decodeF32Be => .be
  | .decodeF32Le => .le
  | .decodeF64Be => .be
  | .decodeF64Le => .le
  | .encodeF32Be => .be
  | .encodeF32Le => .le
  | .encodeF64Be => .be
  | .encodeF64Le => .le

/-- The command of an operation and a byte order (30_encoding.md R55). -/
def Instr.ofParts : Op → Order → Instr
  | .readInt16, .be => .readInt16Be
  | .readInt16, .le => .readInt16Le
  | .readInt32, .be => .readInt32Be
  | .readInt32, .le => .readInt32Le
  | .decodeF32, .be => .decodeF32Be
  | .decodeF32, .le => .decodeF32Le
  | .decodeF64, .be => .decodeF64Be
  | .decodeF64, .le => .decodeF64Le
  | .encodeF32, .be => .encodeF32Be
  | .encodeF32, .le => .encodeF32Le
  | .encodeF64, .be => .encodeF64Be
  | .encodeF64, .le => .encodeF64Le

/-- Why a CMD value is illegal (30_encoding.md R57). -/
inductive IllegalWord where
  /-- Some bit of CMD[63:4] is set. -/
  | reservedBits
  /-- OP is 0b000 or 0b111. -/
  | reservedOp
  deriving DecidableEq, Repr

/-- The decoder of a CMD value: the whole 64-bit word is read (30_encoding.md R53), RSVD must be 0 and OP must be one
of the six codes (R57). -/
def decode (v : Word) : Except IllegalWord Instr :=
  if v.extractLsb' 4 60 = 0#60 then
    match Op.ofCode (v.extractLsb' 0 3) with
    | some op => .ok (Instr.ofParts op (Order.ofBit (v.getLsbD 3)))
    | none => .error .reservedOp
  else .error .reservedBits

/-- The encoder: the CMD value of a command, RSVD then ORDER then OP (30_encoding.md R53, R55). -/
def encode (i : Instr) : Word :=
  0#60 ++ (BitVec.ofBool i.order.bit ++ i.op.code)

/-- The instruction the decoder reads from the word w of nbits bits; the bits above nbits are 0. -/
def decodeTableWord (nbits w : Nat) : Option Instr :=
  if w % 2 ^ nbits < 2 ^ 64 then
    match decode (BitVec.ofNat 64 (w % 2 ^ nbits)) with
    | .ok i => some i
    | .error _ => none
  else none

/-- The mnemonic of a command, `<OPERATION>.<ORDER>` (30_encoding.md R59). -/
def Instr.mnemonic : Instr → String
  | .readInt16Be => "READ_INT16.BE"
  | .readInt16Le => "READ_INT16.LE"
  | .readInt32Be => "READ_INT32.BE"
  | .readInt32Le => "READ_INT32.LE"
  | .decodeF32Be => "DECODE_F32.BE"
  | .decodeF32Le => "DECODE_F32.LE"
  | .decodeF64Be => "DECODE_F64.BE"
  | .decodeF64Le => "DECODE_F64.LE"
  | .encodeF32Be => "ENCODE_F32.BE"
  | .encodeF32Le => "ENCODE_F32.LE"
  | .encodeF64Be => "ENCODE_F64.BE"
  | .encodeF64Le => "ENCODE_F64.LE"

end Sys2Proof
end

