-- ==== Sys2Proof/Machine/State.lean ====
section
/-! DEFINITION. The state: CORE's registers (10_state.md R12) and internal state (R27), the two octet streams
(20_memory.md R33), the host agent (30_encoding.md R60) and the schedule that orders their events (20_memory.md R51);
the faults and refusals of a step; the state after reset (10_state.md R32). -/

namespace Sys2Proof.Machine

/-- int.phase (10_state.md R27). -/
inductive Phase where
  | idle
  | xfer
  deriving DecidableEq, Repr

/-- One answer of the source (20_memory.md R34), and one entry of int.buf (10_state.md R27): `eos` marks a missing
octet, whose `d` means nothing. -/
structure Slot where
  eos : Bool
  d   : Byte
  deriving DecidableEq, Repr

/-- One octet offered to the sink, with the sink's answer (20_memory.md R35). -/
structure Sent where
  d  : Byte
  ok : Bool
  deriving DecidableEq, Repr

/-- The five host-visible registers (10_state.md R12). -/
structure Regs where
  cmd    : Word
  opnd   : Word
  result : Word
  raw    : Word
  status : Word
  deriving DecidableEq, Repr

/-- The internal state (10_state.md R27). -/
structure Internal where
  phase : Phase
  op    : BitVec 3
  order : Order
  n     : BitVec 4
  k     : BitVec 4
  buf   : Vector Slot 8
  tx    : Word
  trunc : Bool
  werr  : Bool
  deriving DecidableEq, Repr

/-- The source: the answers it has still to give, and the answers CORE has received, oldest first
(20_memory.md R34, R36; 70_reset_and_hazards.md R118). -/
structure Source where
  pending  : List Slot
  consumed : List Slot
  deriving DecidableEq, Repr

/-- The sink: the ok bits it has still to answer, and the octets CORE has sent, oldest first (20_memory.md R35, R36;
70_reset_and_hazards.md R118). -/
structure Sink where
  answers : List Bool
  sent    : List Sent
  deriving DecidableEq, Repr

/-- The host: its program, the index of its next host instruction, and its temporaries t0 to t7 (30_encoding.md R60). -/
structure HostAgent where
  prog  : List HostInstr
  pc    : Nat
  temps : Vector Word 8
  deriving DecidableEq, Repr

/-- Which agent makes the next event (20_memory.md R51; reset, 70_reset_and_hazards.md R111). -/
inductive Turn where
  | host
  | core
  | reset
  deriving DecidableEq, Repr

/-- The whole state. `regs` and `int` are CORE's, and everything else stands outside CORE. -/
structure State where
  regs   : Regs
  int    : Internal
  source : Source
  sink   : Sink
  host   : HostAgent
  sched  : List Turn
  deriving DecidableEq, Repr

/-- Why a step stops with a fault. CORE itself raises no trap (60_exceptions.md R97, R103): each of these stands for an
internal state that no run reaches, in which the spec enables no step of CORE. All are safe. -/
inductive Fault where
  /-- Raised by CORE's turn in XFER when int.op is a reserved code (0b000 or 0b111). Safe. DESIGN CHOICE, entry 7. -/
  | reservedOpRunning
  /-- Raised by a command in XFER when int.k > int.n: neither a transfer (k < n) nor the completion (k = n) is
  enabled. Safe. DESIGN CHOICE, entry 7. -/
  | slotPastEnd
  /-- Raised by a read transfer into an entry of int.buf beyond int.buf[7], which does not exist. Safe.
  DESIGN CHOICE, entry 7. -/
  | noSuchSlot
  deriving DecidableEq, Repr

/-- Why a step is refused. -/
inductive Refusal where
  /-- Raised by exec for a command that has no meaning yet. Safe. -/
  | notModelled (mnemonic : String)
  /-- Raised by a host WR or RD that is not a 64-bit access at a multiple of 8 in 0x00 to 0x38: "CORE gives them no
  meaning, and a model refuses them" (20_memory.md R46, P_BUS_BAD_ACCESS). Safe. -/
  | busBadAccess
  /-- Raised by a platform with two instances on one stream: "a model refuses that configuration"
  (60_exceptions.md R108). Safe. -/
  | sharedStream
  /-- Raised by a platform asked to move an instance it does not hold. Safe. -/
  | noSuchInstance
  deriving DecidableEq, Repr

/-- The three outcomes of a step of this machine. -/
abbrev StepResult := Host.Outcome State Fault Refusal

/-- The registers after reset (10_state.md R32). -/
def Regs.reset : Regs :=
  { cmd := 0#64, opnd := 0#64, result := 0#64, raw := 0#64, status := 0#64 }

/-- The internal state after reset (10_state.md R32). -/
def Internal.reset : Internal :=
  { phase := .idle, op := 0#3, order := .be, n := 0#4, k := 0#4,
    buf := Vector.replicate 8 { eos := false, d := 0x00#8 },
    tx := 0#64, trunc := false, werr := false }

/-- The machine right after reset (10_state.md R32), with no host program loaded, no answer of a collaborator pending,
both octet sequences empty and no turn scheduled (DESIGN CHOICE, entry 5). -/
def State.reset : State :=
  { regs := Regs.reset, int := Internal.reset,
    source := { pending := [], consumed := [] },
    sink := { answers := [], sent := [] },
    host := { prog := [], pc := 0, temps := Vector.replicate 8 0#64 },
    sched := [] }

end Sys2Proof.Machine
end

