-- ==== Sys2Proof/Machine/Operands.lean ====
section
/-! DEFINITION. The operand forms: the octets of a read command and their assembly (20_memory.md R42), the octets of an
encode command (R43), the integer value function (40_integer.md R61), the fields and the decoding of a float word
(41_float_decode.md R69 to R75) and the packing of a float operand (42_float_encode.md R80 to R88). The named
parameters of 00_scope.md R10 are arguments here. -/

namespace Sys2Proof.Machine

/-! ## Octets and words -/

/-- Entry k of int.buf (10_state.md R27). -/
def slotAt (buf : Vector Slot 8) (k : Nat) : Slot :=
  buf[k]?.getD { eos := false, d := 0x00#8 }

/-- The octet o_k of a slot: its data, or the fill octet where it is missing (20_memory.md R42). -/
def fillOctet (fill : Byte) (x : Slot) : Byte :=
  if x.eos then fill else x.d

/-- The significance of slot k of n octets: under BE the first octet is the most significant, under LE the least
(20_memory.md R42). -/
def significance (order : Order) (n k : Nat) : Nat :=
  match order with
  | .be => n - 1 - k
  | .le => k

/-- assemble(buf, n, order): the word W of a read command in big-endian field layout (20_memory.md R42). -/
def assemble (fill : Byte) (order : Order) (n : Nat) (buf : Vector Slot 8) : Word :=
  BitVec.ofNat 64 (((List.range n).map fun k =>
    (fillOctet fill (slotAt buf k)).toNat * 256 ^ significance order n k).sum)

/-- octet(W, k): the k-th octet sent of the n-octet word W (20_memory.md R43). -/
def sendOctet (order : Order) (n k : Nat) (w : Word) : Byte :=
  w.extractLsb' (8 * significance order n k) 8

/-- W[8n-1:0], zero-extended (20_memory.md R41). -/
def lowOctets (n : Nat) (w : Word) : Word :=
  BitVec.ofNat 64 (w.toNat % 2 ^ (8 * n))

/-! ## The Integer Codec -/

/-- Bitwise exclusive-or on the infinite-width two's-complement representations of the integers
(00_scope.md section 5). -/
def intXor : Int → Int → Int
  | .ofNat a, .ofNat b => .ofNat (a ^^^ b)
  | .ofNat a, .negSucc b => .negSucc (a ^^^ b)
  | .negSucc a, .ofNat b => .negSucc (a ^^^ b)
  | .negSucc a, .negSucc b => .ofNat (a ^^^ b)

/-- v_k: the octet of a slot as an integer, -1 where it is missing (00_scope.md R11, 40_integer.md R61). -/
def slotInt (x : Slot) : Int :=
  if x.eos then -1 else (x.d.toNat : Int)

/-- sig(j): the octet of significance j of a K-octet integer (40_integer.md R61). -/
def sigInt (order : Order) (K : Nat) (buf : Vector Slot 8) (j : Nat) : Int :=
  match order with
  | .be => slotInt (slotAt buf (K - 1 - j))
  | .le => slotInt (slotAt buf j)

/-- The contribution of the most significant octet, before scaling (40_integer.md R61, R62). -/
def topInt (v : Int) : Int := intXor v 0x80 - 128

/-- int_value(K, order, buf) (40_integer.md R61). -/
def intValue (order : Order) (K : Nat) (buf : Vector Slot 8) : Int :=
  topInt (sigInt order K buf (K - 1)) * 256 ^ (K - 1)
    + ((List.range (K - 1)).map fun j => sigInt order K buf j * 256 ^ j).sum

/-- twos_64(z): the 64-bit two's-complement representation (00_scope.md section 5, 40_integer.md R65). -/
def twos64 (z : Int) : Word := BitVec.ofInt 64 z

/-! ## Float fields -/

/-- The sign bit S (41_float_decode.md R69). -/
def signField (T : Format) (w : Word) : Bool := w.getLsbD (T.width - 1)

/-- The exponent field E (41_float_decode.md R69). -/
def expField (T : Format) (w : Word) : Nat := (w.toNat / 2 ^ T.fb) % 2 ^ T.eb

/-- The fraction field F (41_float_decode.md R69). -/
def fracField (T : Format) (w : Word) : Nat := w.toNat % 2 ^ T.fb

/-- The class of a float word (10_state.md R23, 41_float_decode.md R72). -/
def classOf (T : Format) (w : Word) : FClass :=
  if expField T w = 0 then
    if fracField T w = 0 then .zero else .subnormal
  else if expField T w = T.expMax then
    if fracField T w = 0 then .inf else .nan
  else .normal

/-- dec_T(W): the result pattern of the decoder (41_float_decode.md R74), with the NaN result as an argument: a zero
becomes the canonical +0, a NaN becomes the NaN result, and every other word is returned as it is. -/
def decodeFloat (T : Format) (nan : Word) (w : Word) : Word :=
  if expField T w = 0 ∧ fracField T w = 0 then 0#64
  else if expField T w = T.expMax ∧ fracField T w ≠ 0 then nan
  else if expField T w = T.expMax ∧ fracField T w = 0 then w
  else if 1 ≤ expField T w then w
  else w

/-! ## Packing a float operand -/

/-- RNE of the non-negative rational num / den: the nearest integer, the even one on a tie (00_scope.md section 5).
This is the value of P_ROUND this hardware takes (00_scope.md R10). -/
def roundNearestEven (num den : Nat) : Nat :=
  let q := num / den
  let r := num % den
  if 2 * r < den then q
  else if den < 2 * r then q + 1
  else if q % 2 = 0 then q
  else q + 1

/-- |val64(X)| · 2^1074 for a finite binary64 pattern X (41_float_decode.md R72 cases (d) and (e)). Every finite
binary64 value is a multiple of 2^-1074, so this natural number is the magnitude exactly. -/
def scaledMag (x : Word) : Nat :=
  if expField .binary64 x = 0 then fracField .binary64 x
  else (2 ^ 52 + fracField .binary64 x) * 2 ^ (expField .binary64 x - 1)

/-- MAX_T · 2^1074, where MAX_T = (2 - 2^-fb) · 2^bias (00_scope.md R8). -/
def scaledMax (T : Format) : Nat :=
  (2 ^ (T.fb + 1) - 1) * 2 ^ (1074 + T.bias - T.fb)

/-- INF_T(s) (42_float_encode.md, opening table). -/
def infWord (T : Format) (s : Bool) : Word :=
  BitVec.ofNat 64 ((if s then 2 ^ (T.width - 1) else 0) + T.expMax * 2 ^ T.fb)

/-- Packing: mag = Eout · 2^fb + q by integer addition; 0 gives the canonical zero (42_float_encode.md R86). -/
def packFields (T : Format) (s : Bool) (eout q : Nat) : Word :=
  let mag := eout * 2 ^ T.fb + q
  if mag = 0 then 0#64
  else BitVec.ofNat 64 ((if s then 2 ^ (T.width - 1) else 0) + mag)

/-- Steps 2 to 5 and packing for a finite nonzero magnitude a = A · 2^-1074 (42_float_encode.md R82 to R86). With
L = floor(log2 A), e = L - 1074 and m = A / 2^L. `round num den` is ROUND(num / den). -/
def packFinite (T : Format) (round : Nat → Nat → Nat) (s : Bool) (A : Nat) : Word :=
  let L := A.log2
  let e : Int := (L : Int) - 1074
  if e < T.emin then
    packFields T s 0 (round (A * 2 ^ T.fb) (2 ^ L * 2 ^ (T.emin - e).toNat))
  else if T.emax < e then infWord T s
  else
    packFields T s (e + T.bias).toNat (round ((A - 2 ^ L) * 2 ^ T.fb) (2 ^ L))

/-- X encodes ±0 (42_float_encode.md R80). -/
def encodesZero (x : Word) : Bool :=
  decide (expField .binary64 x = 0) && decide (fracField .binary64 x = 0)

/-- X encodes a NaN (42_float_encode.md R80). -/
def encodesNan (x : Word) : Bool :=
  decide (expField .binary64 x = 2047) && decide (fracField .binary64 x ≠ 0)

/-- X encodes an infinity (42_float_encode.md R80). -/
def encodesInf (x : Word) : Bool :=
  decide (expField .binary64 x = 2047) && decide (fracField .binary64 x = 0)

/-- X encodes a finite real whose magnitude exceeds MAX_T (42_float_encode.md R81). -/
def exceedsMax (T : Format) (x : Word) : Bool :=
  decide (expField .binary64 x ≠ 2047) && decide (scaledMax T < scaledMag x)

/-- pack_T(X), with the NaN word and ROUND as arguments (42_float_encode.md R88). -/
def packFloat (T : Format) (nan : Word) (round : Nat → Nat → Nat) (x : Word) : Word :=
  if encodesZero x then 0#64
  else if !signField .binary64 x && (encodesInf x || exceedsMax T x) then infWord T false
  else if signField .binary64 x && (encodesInf x || exceedsMax T x) then infWord T true
  else if encodesNan x then nan
  else packFinite T round (signField .binary64 x) (scaledMag x)

/-- P_ROUND, round to nearest with ties to even (00_scope.md R10). -/
def hwRound : Nat → Nat → Nat := roundNearestEven

/-- The packing function of this hardware: pack32 and pack64 with the values of 00_scope.md R10. -/
def pack (T : Format) (x : Word) : Word := packFloat T (Config.encNan T) hwRound x

/-- The decoding function of this hardware, with the NaN results of 00_scope.md R10. -/
def decodeWord (T : Format) (w : Word) : Word := decodeFloat T (Config.decNan T) w

end Sys2Proof.Machine
end

