-- ==== Sys2Proof/Machine/Flags.lean ====
section
/-! DEFINITION. The STATUS register: its fields (10_state.md R18), and the two ways they change together, at the
completion of a legal command (20_memory.md R41) and at the acceptance of an illegal one (30_encoding.md R57). -/

namespace Sys2Proof.Machine

/-- The code of a class in STATUS.CLASS (10_state.md R23). -/
def classCode : FClass → Nat
  | .none => 0
  | .zero => 1
  | .subnormal => 2
  | .normal => 3
  | .inf => 4
  | .nan => 5

/-- Field w[lo+len-1 : lo] of a 64-bit register. -/
def getField (lo len : Nat) (w : Word) : Nat := (w.extractLsb' lo len).toNat

/-- Register w with the field w[lo+len-1 : lo] set to v and every other bit kept. -/
def setField (lo len v : Nat) (w : Word) : Word :=
  (w &&& ~~~(BitVec.ofNat 64 ((2 ^ len - 1) * 2 ^ lo))) ||| BitVec.ofNat 64 ((v % 2 ^ len) * 2 ^ lo)

/-- STATUS.BUSY, bit 0 (10_state.md R18). -/
def busyOf (w : Word) : Bool := w.getLsbD 0

/-- STATUS.ILLEGAL, bit 1 (10_state.md R18). -/
def illegalOf (w : Word) : Bool := w.getLsbD 1

/-- STATUS.TRUNC, bit 2 (10_state.md R18). -/
def truncOf (w : Word) : Bool := w.getLsbD 2

/-- STATUS.WERR, bit 3 (10_state.md R18). -/
def werrOf (w : Word) : Bool := w.getLsbD 3

/-- STATUS.CLASS, bits 6:4 (10_state.md R18). -/
def classFieldOf (w : Word) : Nat := getField 4 3 w

/-- STATUS.NOCT, bits 11:8 (10_state.md R18). -/
def noctOf (w : Word) : Nat := getField 8 4 w

/-- STATUS.BUSY <- b. -/
def setBusy (b : Bool) (w : Word) : Word := setField 0 1 b.toNat w

/-- STATUS.ILLEGAL <- b. -/
def setIllegal (b : Bool) (w : Word) : Word := setField 1 1 b.toNat w

/-- STATUS.TRUNC <- b. -/
def setTrunc (b : Bool) (w : Word) : Word := setField 2 1 b.toNat w

/-- STATUS.WERR <- b. -/
def setWerr (b : Bool) (w : Word) : Word := setField 3 1 b.toNat w

/-- STATUS.CLASS <- c. -/
def setClass (c : FClass) (w : Word) : Word := setField 4 3 (classCode c) w

/-- STATUS.NOCT <- n. -/
def setNoct (n : Nat) (w : Word) : Word := setField 8 4 n w

/-- STATUS at the completion of a legal command (20_memory.md R41): every field is written, in one step. -/
def completionStatus (trunc werr : Bool) (c : FClass) (n : Nat) (w : Word) : Word :=
  setBusy false (setNoct n (setClass c (setWerr werr (setTrunc trunc (setIllegal false w)))))

/-- STATUS at the acceptance of an illegal CMD value (30_encoding.md R57): BUSY stays as it is. -/
def illegalStatus (w : Word) : Word :=
  setNoct 0 (setClass .none (setWerr false (setTrunc false (setIllegal true w))))

end Sys2Proof.Machine
end

