-- ==== Sys2Proof/Machine/Ops.lean ====
section
/-! DEFINITION. The named operations: the register window (10_state.md R12, R25, R26), command acceptance
(30_encoding.md R57, R58), the transfer steps (20_memory.md R38, R39), the completion step (R41), reset
(70_reset_and_hazards.md R111), and the two shapes of a command, reading and encoding. CORE has no trap entry and no
trap return (60_exceptions.md R103, R104): `acceptIllegal` is what it has instead. -/

namespace Sys2Proof.Machine

/-- The next state of an outcome, where there is one. -/
def nextState : StepResult → Option State
  | .next s => some s
  | .fault _ => none
  | .refused _ => none

/-! ## The register window -/

/-- A host read of register slot `number` (10_state.md R12): slots 5 to 7 are reserved and read 0 (R26). -/
def readReg (number : Nat) (s : State) : Word :=
  match number with
  | 0 => s.regs.cmd
  | 1 => s.regs.opnd
  | 2 => s.regs.result
  | 3 => s.regs.raw
  | 4 => s.regs.status
  | _ => 0#64

/-- A host write to OPND (10_state.md R15): stored when IDLE, ignored in XFER. -/
def writeOpnd (v : Word) (s : State) : State :=
  match s.int.phase with
  | .idle => { s with regs := { s.regs with opnd := v } }
  | .xfer => s

/-! ## Acceptance -/

/-- Acceptance of an illegal CMD value (30_encoding.md R57): recorded in CMD and STATUS, and nothing runs. -/
def acceptIllegal (v : Word) (s : State) : State :=
  { s with regs := { s.regs with cmd := v, status := illegalStatus s.regs.status } }

/-- Acceptance of a legal command (30_encoding.md R58). `tx` is the word an encode command emits; for a read command it
is the value int.tx already has. -/
def accept (i : Instr) (tx : Word) (s : State) : State :=
  { s with
    regs := { s.regs with cmd := encode i, status := setBusy true s.regs.status },
    int := { s.int with
      phase := .xfer, op := i.op.code, order := i.order, n := BitVec.ofNat 4 i.op.octets, k := 0#4,
      tx := tx, trunc := false, werr := false } }

/-! ## Transfers -/

/-- The state after SrcRead() has answered (20_memory.md R38): the slot is stored in int.buf[int.k], int.trunc takes its
eos bit, int.k moves on, and the source has given one answer more. -/
def storeSlot (a : Slot) (rest : List Slot) (s : State) : State :=
  { s with
    source := { pending := rest, consumed := s.source.consumed ++ [a] },
    int := { s.int with
      buf := s.int.buf.setIfInBounds s.int.k.toNat a,
      trunc := s.int.trunc || a.eos,
      k := s.int.k + 1#4 } }

/-- The octet a write transfer offers to the sink (20_memory.md R39). -/
def nextOctet (s : State) : Byte :=
  sendOctet s.int.order s.int.n.toNat s.int.k.toNat s.int.tx

/-- The state after SinkWrite(octet(int.tx, int.k)) has answered (20_memory.md R39): int.werr takes the inverted ok bit,
int.k moves on, and the sink has been offered one octet more. -/
def sendSlot (ok : Bool) (rest : List Bool) (s : State) : State :=
  { s with
    sink := { answers := rest, sent := s.sink.sent ++ [{ d := nextOctet s, ok := ok }] },
    int := { s.int with werr := s.int.werr || !ok, k := s.int.k + 1#4 } }

/-- Read transfer step (20_memory.md R38). Until the source answers there is no transfer, and CORE waits (R36). -/
def readTransfer (s : State) : StepResult :=
  match s.source.pending with
  | [] => .next s
  | a :: rest => if s.int.k.toNat < 8 then .next (storeSlot a rest s) else .fault .noSuchSlot

/-- Write transfer step (20_memory.md R39). Until the sink answers there is no transfer, and CORE waits (R36). -/
def writeTransfer (s : State) : StepResult :=
  match s.sink.answers with
  | [] => .next s
  | ok :: rest => .next (sendSlot ok rest s)

/-! ## Completion -/

/-- Completion step (20_memory.md R41): RESULT, RAW, every field of STATUS and int.phase, in one step. -/
def complete (result raw : Word) (c : FClass) (trunc werr : Bool) (s : State) : State :=
  { s with
    regs := { s.regs with
      result := result, raw := raw,
      status := completionStatus trunc werr c s.int.n.toNat s.regs.status },
    int := { s.int with phase := .idle } }

/-! ## The two shapes of a command -/

/-- The command in progress is i: int.op and int.order are those of i (10_state.md R27). -/
def running (i : Instr) (s : State) : Bool :=
  decide (s.int.op = i.op.code) && decide (s.int.order = i.order)

/-- The next step of a command that reads octets from the source. When IDLE it is accepted (30_encoding.md R58). In
XFER, when it is the command in progress, it makes its next transfer (20_memory.md R38) or completes (R41) with the
result and class `value` gives for int.buf. In XFER with another command in progress it changes nothing
(10_state.md R14). -/
def readCommand (i : Instr) (value : Vector Slot 8 → Word × FClass) (s : State) : StepResult :=
  match s.int.phase with
  | .idle => .next (accept i s.int.tx s)
  | .xfer =>
    if running i s then
      if s.int.k < s.int.n then readTransfer s
      else if s.int.k = s.int.n then
        .next (complete (value s.int.buf).1
          (assemble Config.eosFill i.order i.op.octets s.int.buf)
          (value s.int.buf).2 s.int.trunc false s)
      else .fault .slotPastEnd
    else .next s

/-- The next step of a command that sends octets to the sink: accepted when IDLE, with int.tx fixed from OPND
(30_encoding.md R58); in XFER a transfer (20_memory.md R39) or the completion (R41), where RESULT and RAW are the word
emitted and CLASS is its class (10_state.md R16, R23). -/
def encodeCommand (i : Instr) (T : Format) (s : State) : StepResult :=
  match s.int.phase with
  | .idle => .next (accept i (pack T s.regs.opnd) s)
  | .xfer =>
    if running i s then
      if s.int.k < s.int.n then writeTransfer s
      else if s.int.k = s.int.n then
        .next (complete (lowOctets i.op.octets s.int.tx) (lowOctets i.op.octets s.int.tx)
          (classOf T (lowOctets i.op.octets s.int.tx)) false s.int.werr s)
      else .fault .slotPastEnd
    else .next s

/-! ## Reset -/

/-- Reset (70_reset_and_hazards.md R111): every register and internal element takes its value of 10_state.md R32. What
stands outside CORE is untouched. -/
def resetCore (s : State) : State :=
  { s with regs := Regs.reset, int := Internal.reset }

end Sys2Proof.Machine
end

