-- ==== Sys2Proof/Machine/FloatDecode.lean ====
section
/-! DEFINITION. The Float Decoder (41_float_decode.md): DECODE_F32 and DECODE_F64 in both byte orders. -/

namespace Sys2Proof.Machine

/-- RESULT and CLASS of a float decode of n octets in format T (41_float_decode.md R74, R76; 10_state.md R23): missing
octets enter the word as the fill octet. -/
def floatResult (T : Format) (order : Order) (n : Nat) (buf : Vector Slot 8) : Word × FClass :=
  let w := assemble Config.eosFill order n buf
  (decodeWord T w, classOf T w)

/-- DECODE_F32.BE (41_float_decode.md R77). -/
def execDecodeF32Be (s : State) : StepResult := readCommand .decodeF32Be (floatResult .binary32 .be 4) s

/-- DECODE_F32.LE (41_float_decode.md R77). -/
def execDecodeF32Le (s : State) : StepResult := readCommand .decodeF32Le (floatResult .binary32 .le 4) s

/-- DECODE_F64.BE (41_float_decode.md R78). -/
def execDecodeF64Be (s : State) : StepResult := readCommand .decodeF64Be (floatResult .binary64 .be 8) s

/-- DECODE_F64.LE (41_float_decode.md R78). -/
def execDecodeF64Le (s : State) : StepResult := readCommand .decodeF64Le (floatResult .binary64 .le 8) s

end Sys2Proof.Machine
end

