-- ==== Sys2Proof/Machine/FloatEncode.lean ====
section
/-! DEFINITION. The Float Encoder (42_float_encode.md): ENCODE_F32 and ENCODE_F64 in both byte orders. -/

namespace Sys2Proof.Machine

/-- ENCODE_F32.BE (42_float_encode.md R91). -/
def execEncodeF32Be (s : State) : StepResult := encodeCommand .encodeF32Be .binary32 s

/-- ENCODE_F32.LE (42_float_encode.md R91). -/
def execEncodeF32Le (s : State) : StepResult := encodeCommand .encodeF32Le .binary32 s

/-- ENCODE_F64.BE (42_float_encode.md R92). -/
def execEncodeF64Be (s : State) : StepResult := encodeCommand .encodeF64Be .binary64 s

/-- ENCODE_F64.LE (42_float_encode.md R92). -/
def execEncodeF64Le (s : State) : StepResult := encodeCommand .encodeF64Le .binary64 s

end Sys2Proof.Machine
end

