-- ==== Sys2Proof/Machine/Integer.lean ====
section
/-! DEFINITION. The Integer Codec (40_integer.md): READ_INT16 and READ_INT32 in both byte orders. -/

namespace Sys2Proof.Machine

/-- RESULT and CLASS of an integer read of K octets (40_integer.md R66, R67; 10_state.md R23). -/
def intResult (order : Order) (K : Nat) (buf : Vector Slot 8) : Word × FClass :=
  (twos64 (intValue order K buf), .none)

/-- READ_INT16.BE (40_integer.md R66). -/
def execReadInt16Be (s : State) : StepResult := readCommand .readInt16Be (intResult .be 2) s

/-- READ_INT16.LE (40_integer.md R66). -/
def execReadInt16Le (s : State) : StepResult := readCommand .readInt16Le (intResult .le 2) s

/-- READ_INT32.BE (40_integer.md R67). -/
def execReadInt32Be (s : State) : StepResult := readCommand .readInt32Be (intResult .be 4) s

/-- READ_INT32.LE (40_integer.md R67). -/
def execReadInt32Le (s : State) : StepResult := readCommand .readInt32Le (intResult .le 4) s

end Sys2Proof.Machine
end

