-- ==== Sys2Proof/Machine/Dispatch.lean ====
section
/-! DEFINITION. One arm per command. `exec i s` is the next step of the command i from s: its acceptance when CORE is
IDLE, its next transfer or its completion when it is the command in progress (30_encoding.md R58; 20_memory.md R38,
R39, R41; entry 1 of the assumption log). -/

namespace Sys2Proof.Machine

def exec (i : Instr) (s : State) : Host.Outcome State Fault Refusal :=
  match i with
  | .readInt16Be => Sys2Proof.Machine.execReadInt16Be s
  | .readInt16Le => Sys2Proof.Machine.execReadInt16Le s
  | .readInt32Be => Sys2Proof.Machine.execReadInt32Be s
  | .readInt32Le => Sys2Proof.Machine.execReadInt32Le s
  | .decodeF32Be => Sys2Proof.Machine.execDecodeF32Be s
  | .decodeF32Le => Sys2Proof.Machine.execDecodeF32Le s
  | .decodeF64Be => Sys2Proof.Machine.execDecodeF64Be s
  | .decodeF64Le => Sys2Proof.Machine.execDecodeF64Le s
  | .encodeF32Be => Sys2Proof.Machine.execEncodeF32Be s
  | .encodeF32Le => Sys2Proof.Machine.execEncodeF32Le s
  | .encodeF64Be => Sys2Proof.Machine.execEncodeF64Be s
  | .encodeF64Le => Sys2Proof.Machine.execEncodeF64Le s

end Sys2Proof.Machine
end

