-- ==== Sys2Proof/Machine/HostTurn.lean ====
section
/-! DEFINITION. The turns of the three agents that can make the next event (20_memory.md R51): the host executes its
next host instruction (30_encoding.md R60), CORE makes the next step of the command in progress (20_memory.md R38, R39,
R41), or reset is asserted (70_reset_and_hazards.md R111). -/

namespace Sys2Proof.Machine

/-! ## CORE's turn -/

/-- The command in progress, of int.op and int.order (10_state.md R27). -/
def currentCommand (s : State) : Option Instr :=
  match Op.ofCode s.int.op with
  | some op => some (Instr.ofParts op s.int.order)
  | none => none

/-- CORE's turn: in XFER the next step of the command in progress, when IDLE nothing. -/
def coreTurn (s : State) : StepResult :=
  match s.int.phase with
  | .idle => .next s
  | .xfer =>
    match currentCommand s with
    | some i => exec i s
    | none => .fault .reservedOpRunning

/-- CORE has a step to make: in XFER, its completion, or a transfer whose collaborator has an answer to give
(20_memory.md R36, R38, R39, R41). -/
def coreReady (s : State) : Bool :=
  match s.int.phase with
  | .idle => false
  | .xfer =>
    if s.int.k < s.int.n then
      match Op.ofCode s.int.op with
      | some op => if op.isRead then !s.source.pending.isEmpty else !s.sink.answers.isEmpty
      | none => true
    else true

/-! ## The host's turn -/

/-- A host write to CMD (10_state.md R14): ignored in XFER; when IDLE a legal value starts its command
(30_encoding.md R58) and an illegal one is recorded (R57). -/
def writeCmd (v : Word) (s : State) : StepResult :=
  match s.int.phase with
  | .idle =>
    match decode v with
    | .ok i => exec i s
    | .error _ => .next (acceptIllegal v s)
  | .xfer => .next s

/-- A host write to register slot `number`: CMD, OPND, or one that is ignored (10_state.md R25, R26). -/
def writeReg (number : Nat) (v : Word) (s : State) : StepResult :=
  match number with
  | 0 => writeCmd v s
  | 1 => .next (writeOpnd v s)
  | _ => .next s

/-- The host moves on to its next host instruction. -/
def advanceHost (s : State) : State :=
  { s with host := { s.host with pc := s.host.pc + 1 } }

/-- t<i> <- v. -/
def setTemp (t : Fin 8) (v : Word) (s : State) : State :=
  { s with host := { s.host with temps := s.host.temps.set t v } }

/-- The value of t<i>. -/
def temp (t : Fin 8) (s : State) : Word := s.host.temps.get t

/-- One host instruction (30_encoding.md R60). A bus access outside CORE's interface is refused (20_memory.md R46). -/
def runHostInstr (i : HostInstr) (s : State) : StepResult :=
  match i with
  | .wr a v =>
    if a.wellFormed then writeReg (a.offset / 8) v (advanceHost s)
    else .refused .busBadAccess
  | .rd t a =>
    if a.wellFormed then .next (setTemp t (readReg (a.offset / 8) s) (advanceHost s))
    else .refused .busBadAccess
  | .andi td ts imm => .next (setTemp td (temp ts s &&& imm) (advanceHost s))
  | .bnz t target =>
    if temp t s = 0#64 then .next (advanceHost s)
    else .next { s with host := { s.host with pc := target } }
  | .addi td ts imm => .next (setTemp td (temp ts s + imm) (advanceHost s))

/-- The host's turn: its next host instruction; nothing once its program has ended. -/
def hostTurn (s : State) : StepResult :=
  match s.host.prog[s.host.pc]? with
  | some i => runHostInstr i s
  | none => .next s

/-! ## Whose turn it is -/

/-- The agent that makes the next event: the head of the schedule. When the schedule is exhausted, CORE moves if it has
a step to make, and the host otherwise (DESIGN CHOICE, entry 2). -/
def nextTurn (s : State) : Turn :=
  match s.sched with
  | t :: _ => t
  | [] => if coreReady s then .core else .host

/-- The state once the turn is taken from the schedule. -/
def popTurn (s : State) : State := { s with sched := s.sched.tail }

/-- One turn of an agent. -/
def takeTurn (t : Turn) (s : State) : StepResult :=
  match t with
  | .host => hostTurn s
  | .core => coreTurn s
  | .reset => .next (resetCore s)

/-- The state with the CMD write of the value w (the bits above nbits are 0) as the host's next instruction, the host
next to move, and CORE ready to accept it. -/
def placeCommand (s : State) (nbits w : Nat) : State :=
  { s with
    regs := { s.regs with status := setBusy false s.regs.status },
    int := { s.int with phase := .idle },
    host := { s.host with
      prog := s.host.prog.take s.host.pc ++
        HostInstr.wr BusAddr.cmd (BitVec.ofNat 64 (w % 2 ^ nbits)) :: s.host.prog.drop (s.host.pc + 1),
      pc := min s.host.pc s.host.prog.length },
    sched := Turn.host :: s.sched }

end Sys2Proof.Machine
end

