-- ==== Sys2Proof/Machine/Step.lean ====
section
/-! DEFINITION. One step: the next event of the machine in the total order of 20_memory.md R51. -/

namespace Sys2Proof.Machine

/-- One event: the agent whose turn it is moves. -/
def step (s : State) : Host.Outcome State Fault Refusal :=
  takeTurn (nextTurn s) (popTurn s)

/-- s with the command word w of nbits bits placed where step takes its next instruction: the host's next host
instruction is the write of w to CMD, it is the host's turn, and CORE is IDLE so that the write is accepted
(70_reset_and_hazards.md R113; entry 6 of the assumption log). -/
def State.withFetchWord (s : State) (nbits w : Nat) : State := placeCommand s nbits w

end Sys2Proof.Machine
end

