-- ==== Sys2Proof/Machine/Assembler.lean ====
section
/-! DEFINITION. The assembler of host programs (30_encoding.md R59, R60): a command mnemonic stands for its CMD value,
the pseudo-instructions WAITIDLE, DO and ENC expand as the table of R60 says, and a label becomes the index of the host
instruction it names. -/

namespace Sys2Proof.Machine

/-- How many host instructions a line expands to (30_encoding.md R60). -/
def HostLine.size : HostLine → Nat
  | .label _ => 0
  | .wr _ _ => 1
  | .wrCmd _ _ => 1
  | .rd _ _ => 1
  | .andi _ _ _ => 1
  | .bnz _ _ => 1
  | .addi _ _ _ => 1
  | .waitIdle => 3
  | .doCmd _ => 4
  | .enc _ _ => 5

/-- The index of the host instruction a label names, counted from index `pos` on. -/
def labelIndex (l : Nat) : Nat → List HostLine → Option Nat
  | _, [] => none
  | pos, .label m :: rest => if m = l then some pos else labelIndex l pos rest
  | pos, line :: rest => labelIndex l (pos + line.size) rest

/-- WAITIDLE at index pos, its fresh label being pos itself (30_encoding.md R60). -/
def waitIdleAt (pos : Nat) : List HostInstr :=
  [.rd 7 BusAddr.status, .andi 7 7 1#64, .bnz 7 pos]

/-- The expansion of one line at index pos. A branch to a label the program lacks, and ENC of a command that is not an
encode command, have none (30_encoding.md R60). -/
def expandLine (prog : List HostLine) (pos : Nat) : HostLine → Option (List HostInstr)
  | .label _ => some []
  | .wr a v => some [.wr a v]
  | .wrCmd a i => some [.wr a (encode i)]
  | .rd t a => some [.rd t a]
  | .andi td ts imm => some [.andi td ts imm]
  | .bnz t l => (labelIndex l 0 prog).map fun target => [.bnz t target]
  | .addi td ts imm => some [.addi td ts imm]
  | .waitIdle => some (waitIdleAt pos)
  | .doCmd i => some (.wr BusAddr.cmd (encode i) :: waitIdleAt (pos + 1))
  | .enc i v =>
    if i.op.isRead then none
    else some (.wr BusAddr.opnd v :: .wr BusAddr.cmd (encode i) :: waitIdleAt (pos + 2))

/-- The expansion of the lines from index pos on. -/
def expandFrom (prog : List HostLine) : Nat → List HostLine → Option (List HostInstr)
  | _, [] => some []
  | pos, line :: rest =>
    match expandLine prog pos line, expandFrom prog (pos + line.size) rest with
    | some a, some b => some (a ++ b)
    | _, _ => none

/-- The host instructions of a host program (30_encoding.md R60). -/
def assembleHost (prog : List HostLine) : Option (List HostInstr) := expandFrom prog 0 prog

end Sys2Proof.Machine
end

