-- ==== Sys2Proof/Machine/Platform.lean ====
section
/-! DEFINITION. A platform with several CORE instances (60_exceptions.md R108) and the place of each register window in
the platform's address space (20_memory.md R50). -/

namespace Sys2Proof.Machine

/-- One instance on a platform: its own state, the streams its source and its sink are attached to, and the base
P_CORE_BASE of its register window, which the platform chooses (20_memory.md R50). -/
structure Attached where
  base     : Nat
  sourceId : Nat
  sinkId   : Nat
  state    : State
  deriving DecidableEq, Repr

/-- Several instances. -/
structure Platform where
  cores : List Attached
  deriving DecidableEq, Repr

/-- Two instances share no stream (60_exceptions.md R108: "Each instance must have its own source and its own sink"). -/
def Attached.disjoint (a b : Attached) : Bool :=
  decide (a.sourceId ≠ b.sourceId) && decide (a.sourceId ≠ b.sinkId)
    && decide (a.sinkId ≠ b.sourceId) && decide (a.sinkId ≠ b.sinkId)

/-- No stream is attached to two instances. -/
def streamsApart : List Attached → Bool
  | [] => true
  | a :: rest => rest.all a.disjoint && streamsApart rest

/-- The three outcomes of a platform's step. -/
abbrev PlatformResult := Host.Outcome Platform Fault Refusal

/-- Instance j makes its next event. Instances share no state, so no other instance changes. A platform with two
instances on one stream is refused (60_exceptions.md R108). -/
def Platform.step (p : Platform) (j : Nat) : PlatformResult :=
  if streamsApart p.cores then
    match p.cores[j]? with
    | some a =>
      match Sys2Proof.Machine.step a.state with
      | .next s => .next { cores := p.cores.set j { a with state := s } }
      | .fault r => .fault r
      | .refused r => .refused r
    | none => .refused .noSuchInstance
  else .refused .sharedStream

/-- The bus access of a platform address, for a register window at `base`: its offset in the window
(20_memory.md R46, R50). -/
def windowAccess (base addr bits : Nat) : Option BusAddr :=
  if base ≤ addr ∧ addr < base + 0x40 then some { offset := addr - base, bits := bits } else none

end Sys2Proof.Machine
end

