-- ==== Sys2Proof/Safety.lean ====
section
/-! DEFINITION. The terms in which claims are stated: the value a float word denotes (41_float_decode.md R72), the
document's own loops (R73, 42_float_encode.md R82), a run of one command, the end of a run (70_reset_and_hazards.md
R118), and the invariants of the machine. -/

namespace Sys2Proof.Machine

/-! ## Values of float words -/

/-- The value a float word denotes (41_float_decode.md R72). -/
inductive FValue where
  | nan
  | inf (neg : Bool)
  | finite (x : ℚ)
  deriving DecidableEq

/-- (-1)^S. -/
def signFactor (s : Bool) : ℚ := if s then -1 else 1

/-- The fraction value f = F / 2^fb (41_float_decode.md R70). -/
def fracValue (T : Format) (w : Word) : ℚ := (fracField T w : ℚ) / 2 ^ T.fb

/-- The finite value of cases (a), (d) and (e) (41_float_decode.md R72), with shift = E - bias (R71). -/
def finiteValue (T : Format) (w : Word) : ℚ :=
  if expField T w = 0 then
    signFactor (signField T w) * fracValue T w * (2 : ℚ) ^ (1 - (T.bias : ℤ))
  else
    signFactor (signField T w) * (1 + fracValue T w) * (2 : ℚ) ^ ((expField T w : ℤ) - (T.bias : ℤ))

/-- The value of a float word (41_float_decode.md R72). -/
def floatValue (T : Format) (w : Word) : FValue :=
  match classOf T w with
  | .nan => .nan
  | .inf => .inf (signField T w)
  | _ => .finite (finiteValue T w)

/-- The word is a finite value of its format: neither an infinity nor a NaN. -/
def isFinite (T : Format) (w : Word) : Prop := expField T w ≠ T.expMax

/-- MAX_T = (2 - 2^-fb) · 2^bias (00_scope.md R8). -/
def maxValue (T : Format) : ℚ := (2 - 1 / 2 ^ T.fb) * 2 ^ T.bias

/-- The decoder's loop of 41_float_decode.md R73: double the fraction and decrement the exponent counter until the
fraction reaches 1, with at most `fuel` doublings. -/
def doubleUntilOne : Nat → ℚ → ℤ → ℚ × ℤ
  | 0, f, e => (f, e)
  | fuel + 1, f, e => if 1 ≤ f then (f, e) else doubleUntilOne fuel (2 * f) (e - 1)

/-- The encoder's loop of 42_float_encode.md R82: double or halve until the value is in [1, 2), tracking the net
power-of-two shift, with at most `fuel` steps. -/
def normalizeLoop : Nat → ℚ → ℤ → ℚ × ℤ
  | 0, a, e => (a, e)
  | fuel + 1, a, e =>
    if a < 1 then normalizeLoop fuel (2 * a) (e - 1)
    else if 2 ≤ a then normalizeLoop fuel (a / 2) (e + 1)
    else (a, e)

/-- r rounds to the integer q: q is nearest to r, and the even one of the two on a tie (00_scope.md section 5). -/
def RoundsTo (r : ℚ) (q : ℕ) : Prop :=
  |(q : ℚ) - r| ≤ 1 / 2 ∧ (|(q : ℚ) - r| = 1 / 2 → q % 2 = 0)

/-! ## Octets -/

/-- The contribution of the most significant octet of an integer: signed, and -257 where it is missing
(40_integer.md R62). -/
def topContribution (x : Slot) : Int := if x.eos then -257 else x.d.toInt

/-- The contribution of a lower octet of an integer: unsigned, and -1 where it is missing (40_integer.md R63). -/
def lowContribution (x : Slot) : Int := if x.eos then -1 else (x.d.toNat : Int)

/-- The octet RAW and a float word show for a slot: 0xFF where it is missing (10_state.md R17). -/
def shownOctet (x : Slot) : Byte := if x.eos then 0xFF#8 else x.d

/-- Two octets as a word, most significant first. -/
def word2 (a b : Byte) : Word := (a ++ b).setWidth 64

/-- Four octets as a word, most significant first. -/
def word4 (a b c d : Byte) : Word := (a ++ b ++ c ++ d).setWidth 64

/-- Eight octets as a word, most significant first. -/
def word8 (a b c d e f g h : Byte) : Word := a ++ b ++ c ++ d ++ e ++ f ++ g ++ h

/-! ## Runs -/

/-- m steps of the command i. -/
def runExec (i : Instr) : Nat → State → StepResult
  | 0, s => .next s
  | m + 1, s =>
    match exec i s with
    | .next t => runExec i m t
    | .fault r => .fault r
    | .refused r => .refused r

/-- m steps of the machine. -/
def runSteps : Nat → State → StepResult
  | 0, s => .next s
  | m + 1, s =>
    match step s with
    | .next t => runSteps m t
    | .fault r => .fault r
    | .refused r => .refused r

/-- The command i is in progress and its completion step is enabled (20_memory.md R41). -/
def Completing (i : Instr) (s : State) : Prop :=
  s.int.phase = .xfer ∧ s.int.op = i.op.code ∧ s.int.order = i.order ∧
    s.int.n.toNat = i.op.octets ∧ s.int.k = s.int.n

/-- The STATUS fields a completion writes (20_memory.md R41); every other bit of STATUS is as in `before`. -/
def CompletedStatus (before after : Word) (c : Nat) (trunc werr : Bool) (n : Nat) : Prop :=
  busyOf after = false ∧ illegalOf after = false ∧ truncOf after = trunc ∧ werrOf after = werr ∧
    classFieldOf after = c ∧ noctOf after = n ∧
    ∀ b, b < 64 → b = 7 ∨ 12 ≤ b → after.getLsbD b = before.getLsbD b

/-- t is s after a completion step with this RESULT, RAW, CLASS, TRUNC, WERR and NOCT (20_memory.md R41): those, BUSY,
ILLEGAL and int.phase are written, and everything else is as it was. -/
def CompletesWith (s t : State) (result raw : Word) (c : Nat) (trunc werr : Bool) (n : Nat) : Prop :=
  t.regs.result = result ∧ t.regs.raw = raw ∧
    CompletedStatus s.regs.status t.regs.status c trunc werr n ∧
    t.regs.cmd = s.regs.cmd ∧ t.regs.opnd = s.regs.opnd ∧
    t.int = { s.int with phase := .idle } ∧
    t.source = s.source ∧ t.sink = s.sink ∧ t.host = s.host ∧ t.sched = s.sched

/-- t is s after a whole command i, from its acceptance to its completion: the registers, and what stands outside CORE
but for the streams. -/
def RanCommand (i : Instr) (s t : State) (result raw : Word) (c : Nat) (trunc werr : Bool) : Prop :=
  t.regs.result = result ∧ t.regs.raw = raw ∧
    CompletedStatus s.regs.status t.regs.status c trunc werr i.op.octets ∧
    t.regs.cmd = encode i ∧ t.regs.opnd = s.regs.opnd ∧ t.int.phase = .idle ∧
    t.host = s.host ∧ t.sched = s.sched

/-- A run has ended: the host program has executed its last host instruction and int.phase = IDLE
(70_reset_and_hazards.md R118). -/
def runEnded (s : State) : Prop := s.host.prog[s.host.pc]? = none ∧ s.int.phase = .idle

/-! ## Invariants -/

/-- The invariant of CORE's registers and internal state. -/
structure Inv (s : State) : Prop where
  /-- STATUS.BUSY is 1 exactly when int.phase = XFER (10_state.md R19). -/
  busy : busyOf s.regs.status = decide (s.int.phase = .xfer)
  /-- STATUS bits 7 and 63:12 read 0 (10_state.md R18, R25). -/
  reserved : s.regs.status.getLsbD 7 = false ∧ s.regs.status.toNat < 2 ^ 12
  /-- CLASS codes 6 and 7 are never produced (10_state.md R23). -/
  classLegal : classFieldOf s.regs.status ≤ 5
  /-- NOCT is 0, 2, 4 or 8 (10_state.md R18). -/
  noctLegal : noctOf s.regs.status = 0 ∨ noctOf s.regs.status = 2 ∨ noctOf s.regs.status = 4 ∨
    noctOf s.regs.status = 8
  /-- At most one error bit is set (60_exceptions.md R102). -/
  oneError : ¬(illegalOf s.regs.status = true ∧ truncOf s.regs.status = true) ∧
    ¬(illegalOf s.regs.status = true ∧ werrOf s.regs.status = true) ∧
    ¬(truncOf s.regs.status = true ∧ werrOf s.regs.status = true)
  /-- In XFER a legal command is in progress: int.op, int.order and int.n are its own, int.k has not passed int.n, CMD
  holds its word, and for an encode command int.tx is the packed OPND (30_encoding.md R58, 10_state.md R28). -/
  inProgress : s.int.phase = .xfer → ∃ i : Instr,
    s.int.op = i.op.code ∧ s.int.order = i.order ∧ s.int.n.toNat = i.op.octets ∧
    s.int.k.toNat ≤ s.int.n.toNat ∧ s.regs.cmd = encode i ∧
    (i.op.isRead = true → s.int.werr = false) ∧ (i.op.isRead = false → s.int.trunc = false) ∧
    (i.op = .encodeF32 → s.int.tx = pack .binary32 s.regs.opnd) ∧
    (i.op = .encodeF64 → s.int.tx = pack .binary64 s.regs.opnd)

/-- The invariant of the two octet sequences: in XFER the last int.k answers of the source are the first int.k entries
of int.buf and int.trunc is the OR of their eos bits (20_memory.md R38); the last int.k octets sent are octets 0 to
int.k - 1 of int.tx and int.werr is the OR of their inverted ok bits (R39). -/
structure TraceInv (s : State) : Prop where
  read : s.int.phase = .xfer → ∀ i : Instr, running i s = true → i.op.isRead = true →
    s.int.k.toNat ≤ s.source.consumed.length ∧
    s.source.consumed.drop (s.source.consumed.length - s.int.k.toNat) = s.int.buf.toList.take s.int.k.toNat ∧
    s.int.trunc = (s.int.buf.toList.take s.int.k.toNat).any (fun x => x.eos)
  sent : s.int.phase = .xfer → ∀ i : Instr, running i s = true → i.op.isRead = false →
    s.int.k.toNat ≤ s.sink.sent.length ∧
    (s.sink.sent.drop (s.sink.sent.length - s.int.k.toNat)).map (fun x => x.d) =
      (List.range s.int.k.toNat).map (fun j => sendOctet s.int.order s.int.n.toNat j s.int.tx) ∧
    s.int.werr = (s.sink.sent.drop (s.sink.sent.length - s.int.k.toNat)).any (fun x => !x.ok)

/-- The registers describe the last accepted command (60_exceptions.md R103, R104): when IDLE, ILLEGAL = 1 means CMD
holds an illegal word, and NOCT ≠ 0 means CMD holds the legal command that completed last, of which NOCT is the octet
count (10_state.md R24), TRUNC and WERR report the read and the encode path (R21, R22), RAW is the octet word (R17) and
CLASS and RESULT are those of RAW where the command is a float operation (R16, R23). -/
structure StatusInv (s : State) : Prop where
  illegal : s.int.phase = .idle → illegalOf s.regs.status = true → legalWord s.regs.cmd = false
  last : s.int.phase = .idle → noctOf s.regs.status ≠ 0 → ∃ i : Instr,
    s.regs.cmd = encode i ∧ noctOf s.regs.status = i.op.octets ∧
    (truncOf s.regs.status = true → i.op.isRead = true) ∧
    (werrOf s.regs.status = true → i.op.isRead = false) ∧
    s.regs.raw.toNat < 2 ^ (8 * i.op.octets) ∧
    (i.op = .readInt16 ∨ i.op = .readInt32 → classFieldOf s.regs.status = 0) ∧
    (i.op = .decodeF32 → s.regs.result = decodeWord .binary32 s.regs.raw) ∧
    (i.op = .decodeF64 → s.regs.result = decodeWord .binary64 s.regs.raw) ∧
    (i.op = .encodeF32 ∨ i.op = .encodeF64 → s.regs.result = s.regs.raw) ∧
    (i.op = .decodeF32 ∨ i.op = .encodeF32 →
      classFieldOf s.regs.status = classCode (classOf .binary32 s.regs.raw)) ∧
    (i.op = .decodeF64 ∨ i.op = .encodeF64 →
      classFieldOf s.regs.status = classCode (classOf .binary64 s.regs.raw))

end Sys2Proof.Machine
end

