-- ==== Sys2Proof/Certificates/Slice0/Obligations.lean ====
section
/-! DEFINITION. The statements for the provers, from the numbered rules of spec/. -/

open Sys2Proof Sys2Proof.Machine

/-! ## Encoding -/

/-- 30_encoding.md R55: the twelve legal command words, and each is matched whole. -/
def Obligations.CommandWordsAreExact : Prop :=
  (∀ row ∈ ([(.readInt16Be, "READ_INT16.BE", 0x1#64, 0b001#3, false),
      (.readInt16Le, "READ_INT16.LE", 0x9#64, 0b001#3, true),
      (.readInt32Be, "READ_INT32.BE", 0x2#64, 0b010#3, false),
      (.readInt32Le, "READ_INT32.LE", 0xA#64, 0b010#3, true),
      (.decodeF32Be, "DECODE_F32.BE", 0x3#64, 0b011#3, false),
      (.decodeF32Le, "DECODE_F32.LE", 0xB#64, 0b011#3, true),
      (.decodeF64Be, "DECODE_F64.BE", 0x4#64, 0b100#3, false),
      (.decodeF64Le, "DECODE_F64.LE", 0xC#64, 0b100#3, true),
      (.encodeF32Be, "ENCODE_F32.BE", 0x5#64, 0b101#3, false),
      (.encodeF32Le, "ENCODE_F32.LE", 0xD#64, 0b101#3, true),
      (.encodeF64Be, "ENCODE_F64.BE", 0x6#64, 0b110#3, false),
      (.encodeF64Le, "ENCODE_F64.LE", 0xE#64, 0b110#3, true)] :
      List (Instr × String × Word × BitVec 3 × Bool)),
    row.1.mnemonic = row.2.1 ∧ encode row.1 = row.2.2.1 ∧ row.1.op.code = row.2.2.2.1 ∧
      row.1.order.bit = row.2.2.2.2) ∧
  ∀ (i : Instr) (v : Word), decode v = .ok i ↔ v = encode i

/-- A few words of 30_encoding.md R55, one of each family, decode to the command they stand for. -/
def Obligations.FamilyWordsDecode : Prop :=
  decode 0x0000000000000001#64 = .ok .readInt16Be ∧
  decode 0x000000000000000A#64 = .ok .readInt32Le ∧
  decode 0x000000000000000B#64 = .ok .decodeF32Le ∧
  decode 0x0000000000000004#64 = .ok .decodeF64Be ∧
  decode 0x0000000000000005#64 = .ok .encodeF32Be ∧
  decode 0x000000000000000E#64 = .ok .encodeF64Le

/-- 30_encoding.md R57: which CMD values are legal, and what accepting an illegal one does. -/
def Obligations.IllegalWordIsRecorded : Prop :=
  (∀ v : Word, (legalWord v = true ↔
      (v.extractLsb' 4 60 = 0#60 ∧ 1 ≤ (v.extractLsb' 0 3).toNat ∧ (v.extractLsb' 0 3).toNat ≤ 6)) ∧
    (legalWord v = true ↔ ∃ i, decode v = .ok i)) ∧
  ∀ (s : State) (v : Word), nextTurn s = .host → s.int.phase = .idle →
    s.host.prog[s.host.pc]? = some (.wr BusAddr.cmd v) → legalWord v = false →
    ∃ t, step s = .next t ∧
      t.regs.cmd = v ∧ illegalOf t.regs.status = true ∧ truncOf t.regs.status = false ∧
      werrOf t.regs.status = false ∧ classFieldOf t.regs.status = 0 ∧ noctOf t.regs.status = 0 ∧
      busyOf t.regs.status = busyOf s.regs.status ∧
      (∀ b, b < 64 → b = 7 ∨ 12 ≤ b → t.regs.status.getLsbD b = s.regs.status.getLsbD b) ∧
      t.regs.result = s.regs.result ∧ t.regs.raw = s.regs.raw ∧ t.regs.opnd = s.regs.opnd ∧
      t.int = s.int ∧ t.source = s.source ∧ t.sink = s.sink

/-! ## The step -/

/-- A step runs the decoded command: the host's write of a legal word to CMD when CORE is IDLE is exec of the command
it decodes to, after the turn is taken and the host has moved on; CORE's turn in XFER is exec of the command in
progress, after the turn is taken. -/
def Obligations.StepRunsTheDecodedCommand : Prop :=
  (∀ (s : State) (v : Word) (i : Instr), nextTurn s = .host → s.int.phase = .idle →
    s.host.prog[s.host.pc]? = some (.wr BusAddr.cmd v) → decode v = .ok i →
    step s = exec i (advanceHost (popTurn s))) ∧
  (∀ (s : State) (i : Instr), nextTurn s = .core → s.int.phase = .xfer →
    s.int.op = i.op.code → s.int.order = i.order →
    step s = exec i (popTurn s))

/-- A command word placed by withFetchWord is the command the next step runs, from every state (entry 6). -/
def Obligations.FetchedWordRuns : Prop :=
  ∀ (s : State) (i : Instr), ∃ u t,
    u.int = { s.int with phase := .idle } ∧ u.regs.opnd = s.regs.opnd ∧ u.source = s.source ∧ u.sink = s.sink ∧
    step (s.withFetchWord 64 (encode i).toNat) = exec i u ∧
    exec i u = .next t ∧ t.int.phase = .xfer ∧ t.regs.cmd = encode i

/-! ## The steps of a command -/

/-- 30_encoding.md R58: acceptance of a legal command, for all twelve commands. -/
def Obligations.LegalCommandIsAccepted : Prop :=
  ∀ (i : Instr) (s : State), s.int.phase = .idle →
    ∃ t, exec i s = .next t ∧
      t.regs.cmd = encode i ∧ t.int.op = (encode i).extractLsb' 0 3 ∧
      t.int.order = (if (encode i).getLsbD 3 then .le else .be) ∧
      t.int.n.toNat = i.op.octets ∧ t.int.k = 0#4 ∧ t.int.trunc = false ∧ t.int.werr = false ∧
      (i.op = .encodeF32 → t.int.tx = pack .binary32 s.regs.opnd) ∧
      (i.op = .encodeF64 → t.int.tx = pack .binary64 s.regs.opnd) ∧
      (i.op.isRead = true → t.int.tx = s.int.tx) ∧
      t.int.phase = .xfer ∧ busyOf t.regs.status = true ∧
      (∀ b, b < 64 → b ≠ 0 → t.regs.status.getLsbD b = s.regs.status.getLsbD b) ∧
      t.regs.opnd = s.regs.opnd ∧ t.regs.result = s.regs.result ∧ t.regs.raw = s.regs.raw ∧
      t.int.buf = s.int.buf ∧ t.source = s.source ∧ t.sink = s.sink ∧ t.host = s.host ∧ t.sched = s.sched

/-- 20_memory.md R38: the read transfer step, for the eight read commands. -/
def Obligations.ReadTransferStep : Prop :=
  ∀ (i : Instr) (s : State) (a : Slot) (rest : List Slot), i.op.isRead = true →
    s.int.phase = .xfer → s.int.op = i.op.code → s.int.order = i.order →
    s.int.k.toNat < s.int.n.toNat → s.int.n.toNat ≤ 8 → s.source.pending = a :: rest →
    ∃ t, exec i s = .next t ∧
      t.source.pending = rest ∧ t.source.consumed = s.source.consumed ++ [a] ∧
      slotAt t.int.buf s.int.k.toNat = a ∧
      (∀ j, j ≠ s.int.k.toNat → slotAt t.int.buf j = slotAt s.int.buf j) ∧
      t.int.trunc = (s.int.trunc || a.eos) ∧ t.int.k.toNat = s.int.k.toNat + 1 ∧
      t.int.phase = .xfer ∧ t.int.op = s.int.op ∧ t.int.order = s.int.order ∧ t.int.n = s.int.n ∧
      t.int.tx = s.int.tx ∧ t.int.werr = s.int.werr ∧
      t.regs = s.regs ∧ t.sink = s.sink ∧ t.host = s.host ∧ t.sched = s.sched

/-- 20_memory.md R39: the write transfer step, for the four encode commands, with the octet of R43 written out. -/
def Obligations.WriteTransferStep : Prop :=
  ∀ (i : Instr) (s : State) (ok : Bool) (rest : List Bool), i.op.isRead = false →
    s.int.phase = .xfer → s.int.op = i.op.code → s.int.order = i.order →
    s.int.k.toNat < s.int.n.toNat → s.sink.answers = ok :: rest →
    ∃ t, exec i s = .next t ∧
      t.sink.answers = rest ∧
      t.sink.sent = s.sink.sent ++
        [{ d := (match i.order with
              | .be => s.int.tx.extractLsb' (8 * (s.int.n.toNat - 1 - s.int.k.toNat)) 8
              | .le => s.int.tx.extractLsb' (8 * s.int.k.toNat) 8),
           ok := ok }] ∧
      t.int = { s.int with werr := s.int.werr || !ok, k := s.int.k + 1#4 } ∧
      t.int.k.toNat = s.int.k.toNat + 1 ∧
      t.regs = s.regs ∧ t.source = s.source ∧ t.host = s.host ∧ t.sched = s.sched

/-- 20_memory.md R36: a transfer happens only when the collaborator answers, and there is no time-out. While the source
(for a read command) or the sink (for an encode command) does not answer, CORE stays in XFER with BUSY = 1, whatever
the other agents do and however long, short of a reset. -/
def Obligations.SilentCollaboratorKeepsCoreWaiting : Prop :=
  ∀ (m : Nat) (i : Instr) (s t : State), Inv s → s.int.phase = .xfer → running i s = true →
    s.int.k.toNat < s.int.n.toNat →
    (i.op.isRead = true → s.source.pending = []) → (i.op.isRead = false → s.sink.answers = []) →
    Turn.reset ∉ s.sched → runSteps m s = .next t →
    t.int = s.int ∧ t.regs = s.regs ∧ t.source = s.source ∧ t.sink = s.sink ∧ busyOf t.regs.status = true

/-- The completion step of READ_INT16 and READ_INT32 (20_memory.md R41, 40_integer.md R61 to R63): the value written
out octet by octet. -/
def Obligations.IntegerReadCompletion : Prop :=
  ∀ s : State,
    let x := fun k => slotAt s.int.buf k
    (Completing .readInt16Be s → ∃ t, exec .readInt16Be s = .next t ∧ CompletesWith s t
      (BitVec.ofInt 64 (topContribution (x 0) * 256 + lowContribution (x 1)))
      (word2 (shownOctet (x 0)) (shownOctet (x 1))) 0 s.int.trunc false 2) ∧
    (Completing .readInt16Le s → ∃ t, exec .readInt16Le s = .next t ∧ CompletesWith s t
      (BitVec.ofInt 64 (topContribution (x 1) * 256 + lowContribution (x 0)))
      (word2 (shownOctet (x 1)) (shownOctet (x 0))) 0 s.int.trunc false 2) ∧
    (Completing .readInt32Be s → ∃ t, exec .readInt32Be s = .next t ∧ CompletesWith s t
      (BitVec.ofInt 64 (topContribution (x 0) * 256 ^ 3 + lowContribution (x 1) * 256 ^ 2
        + lowContribution (x 2) * 256 + lowContribution (x 3)))
      (word4 (shownOctet (x 0)) (shownOctet (x 1)) (shownOctet (x 2)) (shownOctet (x 3))) 0 s.int.trunc false 4) ∧
    (Completing .readInt32Le s → ∃ t, exec .readInt32Le s = .next t ∧ CompletesWith s t
      (BitVec.ofInt 64 (topContribution (x 3) * 256 ^ 3 + lowContribution (x 2) * 256 ^ 2
        + lowContribution (x 1) * 256 + lowContribution (x 0)))
      (word4 (shownOctet (x 3)) (shownOctet (x 2)) (shownOctet (x 1)) (shownOctet (x 0))) 0 s.int.trunc false 4)

/-- The completion step of DECODE_F32 and DECODE_F64 (20_memory.md R41, 41_float_decode.md R77, R78): the word written
out octet by octet. -/
def Obligations.FloatDecodeCompletion : Prop :=
  ∀ s : State,
    let x := fun k => shownOctet (slotAt s.int.buf k)
    let w4be := word4 (x 0) (x 1) (x 2) (x 3)
    let w4le := word4 (x 3) (x 2) (x 1) (x 0)
    let w8be := word8 (x 0) (x 1) (x 2) (x 3) (x 4) (x 5) (x 6) (x 7)
    let w8le := word8 (x 7) (x 6) (x 5) (x 4) (x 3) (x 2) (x 1) (x 0)
    (Completing .decodeF32Be s → ∃ t, exec .decodeF32Be s = .next t ∧ CompletesWith s t
      (decodeWord .binary32 w4be) w4be (classCode (classOf .binary32 w4be)) s.int.trunc false 4) ∧
    (Completing .decodeF32Le s → ∃ t, exec .decodeF32Le s = .next t ∧ CompletesWith s t
      (decodeWord .binary32 w4le) w4le (classCode (classOf .binary32 w4le)) s.int.trunc false 4) ∧
    (Completing .decodeF64Be s → ∃ t, exec .decodeF64Be s = .next t ∧ CompletesWith s t
      (decodeWord .binary64 w8be) w8be (classCode (classOf .binary64 w8be)) s.int.trunc false 8) ∧
    (Completing .decodeF64Le s → ∃ t, exec .decodeF64Le s = .next t ∧ CompletesWith s t
      (decodeWord .binary64 w8le) w8le (classCode (classOf .binary64 w8le)) s.int.trunc false 8)

/-- The completion step of ENCODE_F32 and ENCODE_F64 (20_memory.md R41, 42_float_encode.md R91, R92): RESULT and RAW are
the word emitted, and CLASS is its class. -/
def Obligations.FloatEncodeCompletion : Prop :=
  ∀ s : State,
    let w32 := (s.int.tx.extractLsb' 0 32).setWidth 64
    let w64 := s.int.tx
    (Completing .encodeF32Be s → ∃ t, exec .encodeF32Be s = .next t ∧ CompletesWith s t
      w32 w32 (classCode (classOf .binary32 w32)) false s.int.werr 4) ∧
    (Completing .encodeF32Le s → ∃ t, exec .encodeF32Le s = .next t ∧ CompletesWith s t
      w32 w32 (classCode (classOf .binary32 w32)) false s.int.werr 4) ∧
    (Completing .encodeF64Be s → ∃ t, exec .encodeF64Be s = .next t ∧ CompletesWith s t
      w64 w64 (classCode (classOf .binary64 w64)) false s.int.werr 8) ∧
    (Completing .encodeF64Le s → ∃ t, exec .encodeF64Le s = .next t ∧ CompletesWith s t
      w64 w64 (classCode (classOf .binary64 w64)) false s.int.werr 8)

/-- A command that is not the one in progress is turned away (the model's choice, entry 8: exec of such a command has
the effect 10_state.md R14 gives its CMD write). -/
def Obligations.OtherCommandIsTurnedAway : Prop :=
  ∀ (i : Instr) (s : State), s.int.phase = .xfer → ¬(s.int.op = i.op.code ∧ s.int.order = i.order) →
    exec i s = .next s

/-! ## Whole commands -/

/-- 40_integer.md R66: READ_INT16 in both orders, from acceptance through two transfers to completion. -/
def Obligations.ReadInt16Command : Prop :=
  encode .readInt16Be = 0x1#64 ∧ encode .readInt16Le = 0x9#64 ∧
  (∀ (s : State) (a b : Slot) (rest : List Slot), s.int.phase = .idle → s.source.pending = a :: b :: rest →
    (∃ t, runExec .readInt16Be 4 s = .next t ∧
      RanCommand .readInt16Be s t (BitVec.ofInt 64 (topContribution a * 256 + lowContribution b))
        (word2 (shownOctet a) (shownOctet b)) 0 (a.eos || b.eos) false ∧
      t.source = { pending := rest, consumed := s.source.consumed ++ [a, b] } ∧ t.sink = s.sink) ∧
    (∃ t, runExec .readInt16Le 4 s = .next t ∧
      RanCommand .readInt16Le s t (BitVec.ofInt 64 (topContribution b * 256 + lowContribution a))
        (word2 (shownOctet b) (shownOctet a)) 0 (a.eos || b.eos) false ∧
      t.source = { pending := rest, consumed := s.source.consumed ++ [a, b] } ∧ t.sink = s.sink)) ∧
  ∀ row ∈ ([({ eos := false, d := 0x7F#8 }, { eos := false, d := 0xFF#8 }, 32767),
      ({ eos := false, d := 0x80#8 }, { eos := false, d := 0x00#8 }, -32768),
      ({ eos := false, d := 0xFF#8 }, { eos := false, d := 0xFF#8 }, -1),
      ({ eos := true, d := 0x00#8 }, { eos := true, d := 0x00#8 }, -65793),
      ({ eos := false, d := 0x12#8 }, { eos := true, d := 0x00#8 }, 4607)] : List (Slot × Slot × Int)),
    topContribution row.1 * 256 + lowContribution row.2.1 = row.2.2

/-- 40_integer.md R67: READ_INT32 in both orders, from acceptance through four transfers to completion. -/
def Obligations.ReadInt32Command : Prop :=
  encode .readInt32Be = 0x2#64 ∧ encode .readInt32Le = 0xA#64 ∧
  (∀ (s : State) (a b c d : Slot) (rest : List Slot), s.int.phase = .idle →
    s.source.pending = a :: b :: c :: d :: rest →
    (∃ t, runExec .readInt32Be 6 s = .next t ∧
      RanCommand .readInt32Be s t (BitVec.ofInt 64 (topContribution a * 256 ^ 3 + lowContribution b * 256 ^ 2
          + lowContribution c * 256 + lowContribution d))
        (word4 (shownOctet a) (shownOctet b) (shownOctet c) (shownOctet d)) 0
        (a.eos || b.eos || c.eos || d.eos) false ∧
      t.source = { pending := rest, consumed := s.source.consumed ++ [a, b, c, d] } ∧ t.sink = s.sink) ∧
    (∃ t, runExec .readInt32Le 6 s = .next t ∧
      RanCommand .readInt32Le s t (BitVec.ofInt 64 (topContribution d * 256 ^ 3 + lowContribution c * 256 ^ 2
          + lowContribution b * 256 + lowContribution a))
        (word4 (shownOctet d) (shownOctet c) (shownOctet b) (shownOctet a)) 0
        (a.eos || b.eos || c.eos || d.eos) false ∧
      t.source = { pending := rest, consumed := s.source.consumed ++ [a, b, c, d] } ∧ t.sink = s.sink)) ∧
  ∀ row ∈ ([(⟨false, 0x7F#8⟩, ⟨false, 0xFF#8⟩, ⟨false, 0xFF#8⟩, ⟨false, 0xFF#8⟩, 2147483647),
      (⟨false, 0x80#8⟩, ⟨false, 0x00#8⟩, ⟨false, 0x00#8⟩, ⟨false, 0x00#8⟩, -2147483648),
      (⟨false, 0xFF#8⟩, ⟨false, 0xFF#8⟩, ⟨false, 0xFF#8⟩, ⟨false, 0xFF#8⟩, -1),
      (⟨true, 0x00#8⟩, ⟨true, 0x00#8⟩, ⟨true, 0x00#8⟩, ⟨true, 0x00#8⟩, -4311810305),
      (⟨true, 0x00#8⟩, ⟨false, 0x03#8⟩, ⟨false, 0x02#8⟩, ⟨false, 0x01#8⟩, -4311547391),
      (⟨false, 0x01#8⟩, ⟨false, 0x02#8⟩, ⟨false, 0x03#8⟩, ⟨true, 0x00#8⟩, 16909055)] :
      List (Slot × Slot × Slot × Slot × Int)),
    topContribution row.1 * 256 ^ 3 + lowContribution row.2.1 * 256 ^ 2 + lowContribution row.2.2.1 * 256
      + lowContribution row.2.2.2.1 = row.2.2.2.2

/-- 41_float_decode.md R77: DECODE_F32 in both orders, and the corner cases of the rule. -/
def Obligations.DecodeF32Command : Prop :=
  encode .decodeF32Be = 0x3#64 ∧ encode .decodeF32Le = 0xB#64 ∧
  (∀ (s : State) (a b c d : Slot) (rest : List Slot), s.int.phase = .idle →
    s.source.pending = a :: b :: c :: d :: rest →
    let be := word4 (shownOctet a) (shownOctet b) (shownOctet c) (shownOctet d)
    let le := word4 (shownOctet d) (shownOctet c) (shownOctet b) (shownOctet a)
    (∃ t, runExec .decodeF32Be 6 s = .next t ∧
      RanCommand .decodeF32Be s t (decodeWord .binary32 be) be (classCode (classOf .binary32 be))
        (a.eos || b.eos || c.eos || d.eos) false ∧
      t.source = { pending := rest, consumed := s.source.consumed ++ [a, b, c, d] } ∧ t.sink = s.sink) ∧
    (∃ t, runExec .decodeF32Le 6 s = .next t ∧
      RanCommand .decodeF32Le s t (decodeWord .binary32 le) le (classCode (classOf .binary32 le))
        (a.eos || b.eos || c.eos || d.eos) false ∧
      t.source = { pending := rest, consumed := s.source.consumed ++ [a, b, c, d] } ∧ t.sink = s.sink)) ∧
  ∀ row ∈ ([(0x80000000#64, 0x00000000#64, .zero), (0x7F800001#64, 0x7FC00000#64, .nan),
      (0xFFC00000#64, 0x7FC00000#64, .nan), (0xFF800000#64, 0xFF800000#64, .inf),
      (0x00000001#64, 0x00000001#64, .subnormal), (0x807FFFFF#64, 0x807FFFFF#64, .subnormal),
      (0x00800000#64, 0x00800000#64, .normal), (0x7F7FFFFF#64, 0x7F7FFFFF#64, .normal),
      (0x40490FDB#64, 0x40490FDB#64, .normal)] : List (Word × Word × FClass)),
    decodeWord .binary32 row.1 = row.2.1 ∧ classOf .binary32 row.1 = row.2.2

/-- 41_float_decode.md R78: DECODE_F64 in both orders, and the corner cases of the rule. -/
def Obligations.DecodeF64Command : Prop :=
  encode .decodeF64Be = 0x4#64 ∧ encode .decodeF64Le = 0xC#64 ∧
  (∀ (s : State) (a b c d e f g h : Slot) (rest : List Slot), s.int.phase = .idle →
    s.source.pending = a :: b :: c :: d :: e :: f :: g :: h :: rest →
    let be := word8 (shownOctet a) (shownOctet b) (shownOctet c) (shownOctet d)
      (shownOctet e) (shownOctet f) (shownOctet g) (shownOctet h)
    let le := word8 (shownOctet h) (shownOctet g) (shownOctet f) (shownOctet e)
      (shownOctet d) (shownOctet c) (shownOctet b) (shownOctet a)
    let trunc := a.eos || b.eos || c.eos || d.eos || e.eos || f.eos || g.eos || h.eos
    (∃ t, runExec .decodeF64Be 10 s = .next t ∧
      RanCommand .decodeF64Be s t (decodeWord .binary64 be) be (classCode (classOf .binary64 be)) trunc false ∧
      t.source = { pending := rest, consumed := s.source.consumed ++ [a, b, c, d, e, f, g, h] } ∧
      t.sink = s.sink) ∧
    (∃ t, runExec .decodeF64Le 10 s = .next t ∧
      RanCommand .decodeF64Le s t (decodeWord .binary64 le) le (classCode (classOf .binary64 le)) trunc false ∧
      t.source = { pending := rest, consumed := s.source.consumed ++ [a, b, c, d, e, f, g, h] } ∧
      t.sink = s.sink)) ∧
  ∀ row ∈ ([(0x8000000000000000#64, 0x0000000000000000#64, .zero),
      (0x7FF0000000000001#64, 0x7FF8000000000000#64, .nan), (0xFFF8000000000000#64, 0x7FF8000000000000#64, .nan),
      (0xFFF0000000000000#64, 0xFFF0000000000000#64, .inf),
      (0x0000000000000001#64, 0x0000000000000001#64, .subnormal),
      (0x800FFFFFFFFFFFFF#64, 0x800FFFFFFFFFFFFF#64, .subnormal),
      (0x0010000000000000#64, 0x0010000000000000#64, .normal),
      (0x7FEFFFFFFFFFFFFF#64, 0x7FEFFFFFFFFFFFFF#64, .normal),
      (0x400921FB54442D18#64, 0x400921FB54442D18#64, .normal)] : List (Word × Word × FClass)),
    decodeWord .binary64 row.1 = row.2.1 ∧ classOf .binary64 row.1 = row.2.2

/-- 42_float_encode.md R91: ENCODE_F32 in both orders, and the corner cases of the rule. -/
def Obligations.EncodeF32Command : Prop :=
  encode .encodeF32Be = 0x5#64 ∧ encode .encodeF32Le = 0xD#64 ∧
  (∀ (s : State) (p q r u : Bool) (rest : List Bool), s.int.phase = .idle →
    s.sink.answers = p :: q :: r :: u :: rest →
    let w := pack .binary32 s.regs.opnd
    let werr := !p || !q || !r || !u
    w.toNat < 2 ^ 32 ∧
    (∃ t, runExec .encodeF32Be 6 s = .next t ∧
      RanCommand .encodeF32Be s t w w (classCode (classOf .binary32 w)) false werr ∧ t.source = s.source ∧
      t.sink = { answers := rest, sent := s.sink.sent ++
        [{ d := w.extractLsb' 24 8, ok := p }, { d := w.extractLsb' 16 8, ok := q },
         { d := w.extractLsb' 8 8, ok := r }, { d := w.extractLsb' 0 8, ok := u }] }) ∧
    (∃ t, runExec .encodeF32Le 6 s = .next t ∧
      RanCommand .encodeF32Le s t w w (classCode (classOf .binary32 w)) false werr ∧ t.source = s.source ∧
      t.sink = { answers := rest, sent := s.sink.sent ++
        [{ d := w.extractLsb' 0 8, ok := p }, { d := w.extractLsb' 8 8, ok := q },
         { d := w.extractLsb' 16 8, ok := r }, { d := w.extractLsb' 24 8, ok := u }] })) ∧
  (∀ row ∈ ([(0x8000000000000000#64, 0x00000000#64), (0x3690000000000000#64, 0x00000000#64),
      (0xB680000000000000#64, 0x00000000#64), (0x36A0000000000000#64, 0x00000001#64),
      (0x3698000000000000#64, 0x00000001#64), (0x380FFFFFF0000000#64, 0x00800000#64),
      (0x3FFFFFFFF8000000#64, 0x40000000#64), (0x3FF0000010000000#64, 0x3F800000#64),
      (0x47EFFFFFE0000000#64, 0x7F7FFFFF#64), (0x47EFFFFFF0800000#64, 0x7F800000#64),
      (0xC8078287F49C4A1D#64, 0xFF800000#64), (0x3FB999999999999A#64, 0x3DCCCCCD#64)] : List (Word × Word)),
    pack .binary32 row.1 = row.2) ∧
  ∀ x : Word, classOf .binary64 x = .nan → pack .binary32 x = 0x7FC00000#64

/-- 42_float_encode.md R92: ENCODE_F64 in both orders, and the corner cases of the rule. -/
def Obligations.EncodeF64Command : Prop :=
  encode .encodeF64Be = 0x6#64 ∧ encode .encodeF64Le = 0xE#64 ∧
  (∀ (s : State) (p0 p1 p2 p3 p4 p5 p6 p7 : Bool) (rest : List Bool), s.int.phase = .idle →
    s.sink.answers = p0 :: p1 :: p2 :: p3 :: p4 :: p5 :: p6 :: p7 :: rest →
    let w := pack .binary64 s.regs.opnd
    let werr := !p0 || !p1 || !p2 || !p3 || !p4 || !p5 || !p6 || !p7
    (∃ t, runExec .encodeF64Be 10 s = .next t ∧
      RanCommand .encodeF64Be s t w w (classCode (classOf .binary64 w)) false werr ∧ t.source = s.source ∧
      t.sink = { answers := rest, sent := s.sink.sent ++
        [{ d := w.extractLsb' 56 8, ok := p0 }, { d := w.extractLsb' 48 8, ok := p1 },
         { d := w.extractLsb' 40 8, ok := p2 }, { d := w.extractLsb' 32 8, ok := p3 },
         { d := w.extractLsb' 24 8, ok := p4 }, { d := w.extractLsb' 16 8, ok := p5 },
         { d := w.extractLsb' 8 8, ok := p6 }, { d := w.extractLsb' 0 8, ok := p7 }] }) ∧
    (∃ t, runExec .encodeF64Le 10 s = .next t ∧
      RanCommand .encodeF64Le s t w w (classCode (classOf .binary64 w)) false werr ∧ t.source = s.source ∧
      t.sink = { answers := rest, sent := s.sink.sent ++
        [{ d := w.extractLsb' 0 8, ok := p0 }, { d := w.extractLsb' 8 8, ok := p1 },
         { d := w.extractLsb' 16 8, ok := p2 }, { d := w.extractLsb' 24 8, ok := p3 },
         { d := w.extractLsb' 32 8, ok := p4 }, { d := w.extractLsb' 40 8, ok := p5 },
         { d := w.extractLsb' 48 8, ok := p6 }, { d := w.extractLsb' 56 8, ok := p7 }] })) ∧
  (∀ row ∈ ([(0x8000000000000000#64, 0x0000000000000000#64), (0xFFF0000000000000#64, 0xFFF0000000000000#64),
      (0x0000000000000001#64, 0x0000000000000001#64), (0x8000000000000001#64, 0x8000000000000001#64),
      (0x7FEFFFFFFFFFFFFF#64, 0x7FEFFFFFFFFFFFFF#64), (0x400921FB54442D18#64, 0x400921FB54442D18#64)] :
      List (Word × Word)),
    pack .binary64 row.1 = row.2) ∧
  ∀ x : Word, classOf .binary64 x = .nan → pack .binary64 x = 0x7FF8000000000000#64

/-- 20_memory.md R40: a legal command makes exactly N transfer calls, in slot order, whatever the collaborators
answer: after its acceptance and m transfers int.k = m, and after the N-th transfer and the completion CORE is IDLE. -/
def Obligations.CommandMakesExactlyNTransfers : Prop :=
  ∀ (i : Instr) (s : State), s.int.phase = .idle →
    (i.op.isRead = true → i.op.octets ≤ s.source.pending.length) →
    (i.op.isRead = false → i.op.octets ≤ s.sink.answers.length) →
    (∀ m, m ≤ i.op.octets → ∃ u, runExec i (m + 1) s = .next u ∧ u.int.phase = .xfer ∧ u.int.k.toNat = m ∧
      (i.op.isRead = true → u.source.pending = s.source.pending.drop m ∧
        u.source.consumed = s.source.consumed ++ s.source.pending.take m ∧ u.sink = s.sink) ∧
      (i.op.isRead = false → u.source = s.source ∧ u.sink.answers = s.sink.answers.drop m ∧
        u.sink.sent.map (fun x => x.d) = s.sink.sent.map (fun x => x.d) ++
          (List.range m).map (fun k => sendOctet i.order i.op.octets k u.int.tx) ∧
        u.sink.sent.map (fun x => x.ok) = s.sink.sent.map (fun x => x.ok) ++ s.sink.answers.take m)) ∧
    (∃ u t, runExec i (i.op.octets + 1) s = .next u ∧ runExec i (i.op.octets + 2) s = .next t ∧
      t.int.phase = .idle ∧ t.source = u.source ∧ t.sink = u.sink)

/-- Under every interleaving of host instructions with CORE's own steps, a command in progress ends in the same
registers, internal state and octet sequences as when CORE runs alone (20_memory.md R51). -/
def Obligations.EveryInterleavingGivesTheSameResult : Prop :=
  ∀ (i : Instr) (s : State) (turns rest : List Turn), Inv s → s.int.phase = .xfer → running i s = true →
    hostProgramWellFormed s.host.prog = true →
    (i.op.isRead = true → s.int.n.toNat - s.int.k.toNat ≤ s.source.pending.length) →
    (i.op.isRead = false → s.int.n.toNat - s.int.k.toNat ≤ s.sink.answers.length) →
    s.sched = turns ++ rest → Turn.reset ∉ turns →
    turns.count .core = s.int.n.toNat - s.int.k.toNat + 1 → turns.getLast? = some .core →
    ∃ t u, runSteps turns.length s = .next t ∧
      runExec i (s.int.n.toNat - s.int.k.toNat + 1) s = .next u ∧
      t.int.phase = .idle ∧ t.regs = u.regs ∧ t.int = u.int ∧ t.source = u.source ∧ t.sink = u.sink

/-- 10_state.md R30: what a legal command writes to RESULT, RAW and STATUS depends only on its CMD value, the OPND value
at acceptance (encode operations) and the answers its own N transfers return. -/
def Obligations.CommandDependsOnlyOnItsInputs : Prop :=
  ∀ (i : Instr) (s s' : State), Inv s → Inv s' → s.int.phase = .idle → s'.int.phase = .idle →
    (i.op.isRead = true → i.op.octets ≤ s.source.pending.length ∧
      s.source.pending.take i.op.octets = s'.source.pending.take i.op.octets) →
    (i.op.isRead = false → s.regs.opnd = s'.regs.opnd ∧ i.op.octets ≤ s.sink.answers.length ∧
      s.sink.answers.take i.op.octets = s'.sink.answers.take i.op.octets) →
    ∃ t t', runExec i (i.op.octets + 2) s = .next t ∧ runExec i (i.op.octets + 2) s' = .next t' ∧
      t.regs.result = t'.regs.result ∧ t.regs.raw = t'.regs.raw ∧ t.regs.status = t'.regs.status

/-! ## The Integer Codec -/

/-- 40_integer.md R62: the contribution of the most significant octet. -/
def Obligations.TopOctetContribution : Prop :=
  (∀ d : Byte, topInt (d.toNat : Int) = d.toInt ∧
    (d.toNat ≤ 0x7F → topInt (d.toNat : Int) = d.toNat) ∧
    (0x80 ≤ d.toNat → topInt (d.toNat : Int) = (d.toNat : Int) - 256)) ∧
  topInt (-1) = -257

/-- 40_integer.md R64: with no slot missing, the value is the sign extension of the word. -/
def Obligations.CompleteIntegerIsTheSignExtension : Prop :=
  ∀ (order : Order) (K : Nat) (fill : Byte) (buf : Vector Slot 8), K = 2 ∨ K = 4 →
    (∀ k, k < K → (slotAt buf k).eos = false) →
    intValue order K buf = ((assemble fill order K buf).setWidth (8 * K)).toInt ∧
    (K = 2 → -32768 ≤ intValue order K buf ∧ intValue order K buf ≤ 32767) ∧
    (K = 4 → -2147483648 ≤ intValue order K buf ∧ intValue order K buf ≤ 2147483647)

/-- 40_integer.md R65: the range with missing slots, where its minimum is reached, and that RESULT holds the exact
value. -/
def Obligations.TruncatedIntegerRange : Prop :=
  (∀ (order : Order) (buf : Vector Slot 8),
    -65793 ≤ intValue order 2 buf ∧ intValue order 2 buf ≤ 32767 ∧
    (twos64 (intValue order 2 buf)).toInt = intValue order 2 buf ∧
    -4311810305 ≤ intValue order 4 buf ∧ intValue order 4 buf ≤ 2147483647 ∧
    (twos64 (intValue order 4 buf)).toInt = intValue order 4 buf) ∧
  ∀ (order : Order) (buf : Vector Slot 8),
    ((∀ k, k < 2 → (slotAt buf k).eos = true) → intValue order 2 buf = -65793) ∧
    ((∀ k, k < 4 → (slotAt buf k).eos = true) → intValue order 4 buf = -4311810305)

/-! ## Byte order -/

/-- 20_memory.md R44: a BE command on o_0 .. o_{n-1} and an LE command on o_{n-1} .. o_0 see the same word and so leave
the same RESULT, RAW and STATUS; and an encode command sends its octets in the reverse order. -/
def Obligations.ByteOrderIsAPermutation : Prop :=
  (∀ (fill : Byte) (n : Nat) (buf buf' : Vector Slot 8),
    (∀ k, k < n → slotAt buf' k = slotAt buf (n - 1 - k)) →
    assemble fill .be n buf = assemble fill .le n buf') ∧
  (∀ (n k : Nat) (w : Word), k < n → sendOctet .be n k w = sendOctet .le n (n - 1 - k) w) ∧
  ∀ (op : Op) (s s' : State) (octets rest rest' : List Slot), op.isRead = true → Inv s → Inv s' →
    s.int.phase = .idle → s'.int.phase = .idle → octets.length = op.octets →
    s.source.pending = octets ++ rest → s'.source.pending = octets.reverse ++ rest' →
    ∃ t t', runExec (Instr.ofParts op .be) (op.octets + 2) s = .next t ∧
      runExec (Instr.ofParts op .le) (op.octets + 2) s' = .next t' ∧
      t.regs.result = t'.regs.result ∧ t.regs.raw = t'.regs.raw ∧ t.regs.status = t'.regs.status

/-- The octets of an assembled word, sent in the same order, are the octets it was assembled from, and the word has no
more (20_memory.md R42, R43). -/
def Obligations.SendUndoesAssemble : Prop :=
  ∀ (fill : Byte) (order : Order) (n : Nat) (buf : Vector Slot 8), n ≤ 8 →
    (assemble fill order n buf).toNat < 256 ^ n ∧
    ∀ k, k < n → sendOctet order n k (assemble fill order n buf) = fillOctet fill (slotAt buf k)

/-! ## The Float Decoder -/

/-- 41_float_decode.md R74: the five cases of the decoder with their classes, and that the word of a nonzero value that
is no NaN is the only word of its format with that value. -/
def Obligations.DecoderCases : Prop :=
  (∀ (T : Format) (w : Word),
    (expField T w = 0 ∧ fracField T w = 0 → decodeWord T w = 0#64 ∧ classOf T w = .zero) ∧
    (expField T w = 2 ^ T.eb - 1 ∧ fracField T w ≠ 0 → decodeWord T w = Config.decNan T ∧ classOf T w = .nan) ∧
    (expField T w = 2 ^ T.eb - 1 ∧ fracField T w = 0 → decodeWord T w = w ∧ classOf T w = .inf) ∧
    (1 ≤ expField T w ∧ expField T w ≠ 2 ^ T.eb - 1 → decodeWord T w = w ∧ classOf T w = .normal) ∧
    (expField T w = 0 ∧ fracField T w ≠ 0 → decodeWord T w = w ∧ classOf T w = .subnormal)) ∧
  ∀ (T : Format) (w w' : Word), w.toNat < 2 ^ T.width → w'.toNat < 2 ^ T.width →
    classOf T w ≠ .zero → classOf T w ≠ .nan → floatValue T w = floatValue T w' → w = w'

/-- 41_float_decode.md R75: every NaN input gives the one NaN pattern, and whatever NaN pattern is taken, the result is
a NaN exactly when the input is one. -/
def Obligations.EveryNanDecodesToOnePattern : Prop :=
  (∀ w : Word, classOf .binary32 w = .nan → decodeWord .binary32 w = 0x7FC00000#64) ∧
  (∀ w : Word, classOf .binary64 w = .nan → decodeWord .binary64 w = 0x7FF8000000000000#64) ∧
  ∀ (T : Format) (nan w : Word), expField T nan = 2 ^ T.eb - 1 → fracField T nan ≠ 0 →
    (classOf T w = .nan → decodeFloat T nan w = nan) ∧
    (classOf T (decodeFloat T nan w) = .nan ↔ classOf T w = .nan)

/-- Decoding is exact: the result denotes the value of the word (41_float_decode.md section 4). -/
def Obligations.DecodedValueIsExact : Prop :=
  ∀ (T : Format) (w : Word), floatValue T (decodeWord T w) = floatValue T w

/-- 41_float_decode.md R70: the fraction value is in [0, 1) and is the sum of 2^-(i+1) over the set bits F[fb-1-i]. -/
def Obligations.FractionIsTheBitSum : Prop :=
  ∀ (T : Format) (w : Word), 0 ≤ fracValue T w ∧ fracValue T w < 1 ∧
    fracValue T w = ((List.range T.fb).map fun i =>
      if w.getLsbD (T.fb - 1 - i) then (1 : ℚ) / 2 ^ (i + 1) else 0).sum

/-- 41_float_decode.md R73: for f ≠ 0 the document's doubling loop, seeded at 1 - bias, stops after m steps, where
2^-m ≤ f < 2^-(m-1), with the value of the closed form; and for a subnormal word (R72 case (e)) the signed, scaled
result of the loop is the value of the word and of the pattern the decoder returns for it. -/
def Obligations.SubnormalLoopIsTheClosedForm : Prop :=
  ∀ (T : Format) (w : Word), fracField T w ≠ 0 →
    ∃ m : ℕ, 1 ≤ m ∧ m ≤ T.fb ∧ 1 / 2 ^ m ≤ fracValue T w ∧ fracValue T w < 1 / 2 ^ (m - 1) ∧
      ∀ fuel, m ≤ fuel →
        let loop := doubleUntilOne fuel (fracValue T w) (1 - (T.bias : ℤ))
        loop = (fracValue T w * 2 ^ m, 1 - (T.bias : ℤ) - (m : ℤ)) ∧
        loop.1 * (2 : ℚ) ^ loop.2 = fracValue T w * (2 : ℚ) ^ (1 - (T.bias : ℤ)) ∧
        (expField T w = 0 →
          signFactor (signField T w) * (loop.1 * (2 : ℚ) ^ loop.2) = finiteValue T w ∧
          floatValue T (decodeWord T w) =
            .finite (signFactor (signField T w) * (loop.1 * (2 : ℚ) ^ loop.2)))

/-! ## The Float Encoder -/

/-- 42_float_encode.md R81: the special cases, for any NaN word and any rounding. -/
def Obligations.EncoderSpecialCases : Prop :=
  (∀ (T : Format) (nan : Word) (round : Nat → Nat → Nat) (x : Word),
    (classOf .binary64 x = .zero → packFloat T nan round x = 0#64) ∧
    (floatValue .binary64 x = .inf false ∨
      (isFinite .binary64 x ∧ maxValue T < finiteValue .binary64 x) → packFloat T nan round x = infWord T false) ∧
    (floatValue .binary64 x = .inf true ∨
      (isFinite .binary64 x ∧ finiteValue .binary64 x < -maxValue T) → packFloat T nan round x = infWord T true) ∧
    (classOf .binary64 x = .nan → packFloat T nan round x = nan)) ∧
  infWord .binary32 false = 0x7F800000#64 ∧ infWord .binary32 true = 0xFF800000#64 ∧
  infWord .binary64 false = 0x7FF0000000000000#64 ∧ infWord .binary64 true = 0xFFF0000000000000#64

/-- 42_float_encode.md R82: the document's repeated doubling or halving of |x| reaches m in [1, 2) and the e with
2^e ≤ |x| < 2^(e+1) and |x| = m · 2^e, the ones the packing uses. -/
def Obligations.NormalizationReachesTheExponent : Prop :=
  ∀ x : Word, isFinite .binary64 x → classOf .binary64 x ≠ .zero →
    let a : ℚ := |finiteValue .binary64 x|
    let e : ℤ := ((scaledMag x).log2 : ℤ) - 1074
    let m : ℚ := a / (2 : ℚ) ^ e
    a = (scaledMag x : ℚ) / 2 ^ 1074 ∧ 1 ≤ m ∧ m < 2 ∧
    (2 : ℚ) ^ e ≤ a ∧ a < (2 : ℚ) ^ (e + 1) ∧ ∀ fuel, 1100 ≤ fuel → normalizeLoop fuel a 0 = (m, e)

/-- The normal and the subnormal case of the encoder on the exact real (42_float_encode.md R83, R85, R86): the stored
exponent, and the fraction rounded to nearest with ties to even. -/
def Obligations.PackRoundsTheExactFraction : Prop :=
  ∀ (T : Format) (x : Word) (e : ℤ), isFinite .binary64 x → classOf .binary64 x ≠ .zero →
    |finiteValue .binary64 x| ≤ maxValue T →
    (2 : ℚ) ^ e ≤ |finiteValue .binary64 x| → |finiteValue .binary64 x| < (2 : ℚ) ^ (e + 1) →
    e ≤ T.emax ∧
    (e < T.emin → ∃ q : ℕ,
      RoundsTo (|finiteValue .binary64 x| / (2 : ℚ) ^ e * (2 : ℚ) ^ (e - T.emin) * 2 ^ T.fb) q ∧
      pack T x = packFields T (signField .binary64 x) 0 q) ∧
    (T.emin ≤ e → ∃ q : ℕ,
      RoundsTo ((|finiteValue .binary64 x| / (2 : ℚ) ^ e - 1) * 2 ^ T.fb) q ∧
      pack T x = packFields T (signField .binary64 x) (e + T.bias).toNat q)

/-- 42_float_encode.md R87: packing a finite value within ±MAX_T never creates an infinity or a NaN, and for ENCODE_F64
the rounded fraction is an exact integer, so every rounding that keeps integers gives the same word; and in the top
binade of binary32 no carry leaves. -/
def Obligations.PackingNeverOverflows : Prop :=
  (∀ (T : Format) (x : Word), isFinite .binary64 x → |finiteValue .binary64 x| ≤ maxValue T →
    (pack T x).toNat % 2 ^ (T.width - 1) < (2 ^ T.eb - 1) * 2 ^ T.fb ∧ (pack T x).toNat < 2 ^ T.width ∧
    classOf T (pack T x) ≠ .inf ∧ classOf T (pack T x) ≠ .nan) ∧
  (∀ (nan : Word) (round : Nat → Nat → Nat) (x : Word), (∀ q d, 0 < d → round (q * d) d = q) →
    packFloat .binary64 nan round x = packFloat .binary64 nan roundNearestEven x) ∧
  (∀ (x : Word) (e : ℤ), isFinite .binary64 x → (2 : ℚ) ^ e ≤ |finiteValue .binary64 x| →
    |finiteValue .binary64 x| < (2 : ℚ) ^ (e + 1) →
    (Format.binary64.emin ≤ e → ∃ q : ℕ, (|finiteValue .binary64 x| / (2 : ℚ) ^ e - 1) * 2 ^ 52 = q) ∧
    (e < Format.binary64.emin → ∃ q : ℕ,
      |finiteValue .binary64 x| / (2 : ℚ) ^ e * (2 : ℚ) ^ (e - Format.binary64.emin) * 2 ^ 52 = q)) ∧
  ∀ x : Word, isFinite .binary64 x → |finiteValue .binary64 x| ≤ maxValue .binary32 →
    (2 : ℚ) ^ Format.binary32.emax ≤ |finiteValue .binary64 x| →
    (|finiteValue .binary64 x| / (2 : ℚ) ^ Format.binary32.emax - 1) * 2 ^ 23 ≤ 2 ^ 23 - 1

/-- 42_float_encode.md R89: pack64 is the identity but for the negative zero and the NaNs. -/
def Obligations.Pack64IsTheIdentity : Prop :=
  (∀ x : Word, x ≠ 0x8000000000000000#64 → classOf .binary64 x ≠ .nan → pack .binary64 x = x) ∧
  pack .binary64 0x8000000000000000#64 = 0#64 ∧
  ∀ x : Word, classOf .binary64 x = .nan → pack .binary64 x = Config.encNan .binary64

/-- 42_float_encode.md R90: pack32 is the nearest binary32 value, ties to even, with the exceptions the rule lists; and
a binary32 value widened exactly gives back its own pattern. -/
def Obligations.Pack32IsTheNearestValue : Prop :=
  (∀ x : Word, isFinite .binary64 x → |finiteValue .binary64 x| ≤ maxValue .binary32 →
    let w := pack .binary32 x
    isFinite .binary32 w ∧ w.toNat < 2 ^ 32 ∧ (w = 0#64 ∨ signField .binary32 w = signField .binary64 x) ∧
    ∀ w' : Word, isFinite .binary32 w' → w'.toNat < 2 ^ 32 →
      |finiteValue .binary32 w - finiteValue .binary64 x| ≤ |finiteValue .binary32 w' - finiteValue .binary64 x| ∧
      (|finiteValue .binary32 w - finiteValue .binary64 x| = |finiteValue .binary32 w' - finiteValue .binary64 x| →
        finiteValue .binary32 w' = finiteValue .binary32 w ∨ fracField .binary32 w % 2 = 0)) ∧
  (∀ x : Word, isFinite .binary64 x → maxValue .binary32 < |finiteValue .binary64 x| →
    pack .binary32 x = infWord .binary32 (signField .binary64 x)) ∧
  (∀ x : Word, isFinite .binary64 x → |finiteValue .binary64 x| ≤ 1 / 2 ^ 150 → pack .binary32 x = 0#64) ∧
  (∀ x : Word, classOf .binary64 x = .nan → pack .binary32 x = Config.encNan .binary32) ∧
  ∀ x w : Word, w.toNat < 2 ^ 32 → classOf .binary32 w ≠ .zero → classOf .binary32 w ≠ .nan →
    floatValue .binary64 x = floatValue .binary32 w → pack .binary32 x = w

/-- 42_float_encode.md R94: encode OPND and an order with ENCODE_F64, then decode the octets emitted with DECODE_F64 in
the same order; and the corresponding result for ENCODE_F32 and DECODE_F32. -/
def Obligations.EncodeThenDecodeRoundTrip : Prop :=
  (∀ (order : Order) (s t : State) (rest : List Slot), s.int.phase = .idle → 8 ≤ s.sink.answers.length →
    runExec (Instr.ofParts .encodeF64 order) 10 s = .next t →
    ∃ u, runExec (Instr.ofParts .decodeF64 order) 10
        { t with source := { t.source with pending :=
          (t.sink.sent.drop s.sink.sent.length).map (fun x => { eos := false, d := x.d }) ++ rest } } = .next u ∧
      (classOf .binary64 s.regs.opnd ≠ .zero → classOf .binary64 s.regs.opnd ≠ .nan →
        u.regs.result = s.regs.opnd) ∧
      (classOf .binary64 s.regs.opnd = .zero → u.regs.result = 0#64) ∧
      (classOf .binary64 s.regs.opnd = .nan → u.regs.result = Config.decNan .binary64)) ∧
  ∀ (order : Order) (s t : State) (rest : List Slot), s.int.phase = .idle → 4 ≤ s.sink.answers.length →
    runExec (Instr.ofParts .encodeF32 order) 6 s = .next t →
    ∃ u, runExec (Instr.ofParts .decodeF32 order) 6
        { t with source := { t.source with pending :=
          (t.sink.sent.drop s.sink.sent.length).map (fun x => { eos := false, d := x.d }) ++ rest } } = .next u ∧
      (classOf .binary64 s.regs.opnd ≠ .zero → classOf .binary64 s.regs.opnd ≠ .nan →
        u.regs.result = pack .binary32 s.regs.opnd) ∧
      (classOf .binary64 s.regs.opnd = .zero → u.regs.result = 0#64) ∧
      (classOf .binary64 s.regs.opnd = .nan → u.regs.result = Config.decNan .binary32)

/-! ## Invariants -/

/-- The three invariants hold right after reset. -/
def Obligations.InvariantsHoldAtReset : Prop :=
  Inv State.reset ∧ TraceInv State.reset ∧ StatusInv State.reset

/-- Every step keeps the invariant of the registers and the internal state. -/
def Obligations.StepKeepsInvariant : Prop :=
  ∀ s t : State, Inv s → step s = .next t → Inv t

/-- Every step keeps the invariant of the octet sequences. -/
def Obligations.StepKeepsTraceInvariant : Prop :=
  ∀ s t : State, Inv s → TraceInv s → step s = .next t → TraceInv t

/-- Every step keeps the invariant that the registers describe the last accepted command. -/
def Obligations.StepKeepsStatusInvariant : Prop :=
  ∀ s t : State, Inv s → StatusInv s → step s = .next t → StatusInv t

/-- CORE raises no trap and never stops: where the invariant holds, no step faults, and the one refusal a step can end
in is that of a host access outside CORE's interface (60_exceptions.md section 4). -/
def Obligations.NoStepFaults : Prop :=
  ∀ s : State, Inv s → (∀ r : Fault, step s ≠ .fault r) ∧ ∀ r : Refusal, step s = .refused r → r = .busBadAccess

/-! ## Rules about the whole machine -/

/-- RESULT and RAW are written only at a completion, and by reset (10_state.md R16, R17; 70_reset_and_hazards.md
R111). -/
def Obligations.ResultsChangeOnlyAtCompletion : Prop :=
  ∀ s t : State, step s = .next t → t.regs.result ≠ s.regs.result ∨ t.regs.raw ≠ s.regs.raw →
    nextTurn s = .reset ∨
      (nextTurn s = .core ∧ s.int.phase = .xfer ∧ s.int.k = s.int.n ∧ t.int.phase = .idle ∧
        busyOf t.regs.status = false)

/-- 10_state.md R19: BUSY is 1 exactly in XFER, the acceptance of a legal command sets it and nothing else does, the
completion step clears it and, but for a reset, nothing else does, and an illegal command never sets it. -/
def Obligations.BusyFollowsThePhase : Prop :=
  (∀ s t : State, Inv s → step s = .next t →
    (busyOf s.regs.status = true ↔ s.int.phase = .xfer) ∧
    (busyOf t.regs.status = true ↔ t.int.phase = .xfer) ∧
    (busyOf s.regs.status = false → busyOf t.regs.status = true →
      nextTurn s = .host ∧ ∃ v i, s.host.prog[s.host.pc]? = some (.wr BusAddr.cmd v) ∧ decode v = .ok i) ∧
    (busyOf s.regs.status = true → busyOf t.regs.status = false →
      (nextTurn s = .core ∧ s.int.k = s.int.n) ∨ nextTurn s = .reset)) ∧
  (∀ (s : State) (v : Word) (i : Instr), nextTurn s = .host → s.int.phase = .idle →
    s.host.prog[s.host.pc]? = some (.wr BusAddr.cmd v) → decode v = .ok i →
    ∃ t, step s = .next t ∧ busyOf t.regs.status = true ∧ t.int.phase = .xfer) ∧
  (∀ s : State, Inv s → nextTurn s = .core → s.int.phase = .xfer → s.int.k = s.int.n →
    ∃ t, step s = .next t ∧ busyOf t.regs.status = false ∧ t.int.phase = .idle) ∧
  ∀ (s : State) (v : Word), Inv s → nextTurn s = .host → s.int.phase = .idle →
    s.host.prog[s.host.pc]? = some (.wr BusAddr.cmd v) → (∀ i, decode v ≠ .ok i) →
    ∃ t, step s = .next t ∧ busyOf t.regs.status = false

/-- 10_state.md R14: a host write to CMD is accepted when IDLE and ignored in XFER. -/
def Obligations.CmdWriteAcceptedOrIgnored : Prop :=
  ∀ (s : State) (v : Word), nextTurn s = .host → s.host.prog[s.host.pc]? = some (.wr BusAddr.cmd v) →
    (s.int.phase = .idle → ∃ t, step s = .next t ∧ t.regs.cmd = v ∧
      ∀ i, decode v = .ok i → step s = exec i (advanceHost (popTurn s)) ∧ t.int.phase = .xfer ∧
        busyOf t.regs.status = true) ∧
    (s.int.phase = .xfer → step s = .next (advanceHost (popTurn s)))

/-- A host write to OPND is stored when IDLE and ignored in XFER, and changes nothing else (10_state.md R15, the host's
side). -/
def Obligations.OpndWriteStoredOrIgnored : Prop :=
  ∀ (s : State) (v : Word), nextTurn s = .host → s.host.prog[s.host.pc]? = some (.wr BusAddr.opnd v) →
    ∃ t, step s = .next t ∧
      t.regs = (match s.int.phase with
        | .idle => { s.regs with opnd := v }
        | .xfer => s.regs) ∧
      t.int = s.int ∧ t.source = s.source ∧ t.sink = s.sink

/-- A command in progress is fixed (20_memory.md R51 items 3 and 4, 70_reset_and_hazards.md R115): until its
completion no step but a reset changes its operation, order, octet count or emitted word, any register, or moves
int.k by more than one. -/
def Obligations.CommandInProgressIsFixed : Prop :=
  ∀ s t : State, Inv s → s.int.phase = .xfer → nextTurn s ≠ .reset → step s = .next t →
    (t.int.phase = .idle ∧ s.int.k = s.int.n ∧ nextTurn s = .core) ∨
    (t.int.phase = .xfer ∧ t.int.op = s.int.op ∧ t.int.order = s.int.order ∧ t.int.n = s.int.n ∧
      t.int.tx = s.int.tx ∧ t.regs = s.regs ∧
      (t.int = s.int ∨ (nextTurn s = .core ∧ t.int.k.toNat = s.int.k.toNat + 1)))

/-- A host read returns the register of its offset, 0 for the reserved offsets 0x28 to 0x38, and has no side effect
(10_state.md R12, R26; 20_memory.md R49). -/
def Obligations.HostReadReturnsTheRegister : Prop :=
  ∀ (s : State) (t : Fin 8) (offset : Nat), nextTurn s = .host →
    s.host.prog[s.host.pc]? = some (.rd t { offset := offset, bits := 64 }) →
    ∀ value, (offset, value) ∈ [(0x00, s.regs.cmd), (0x08, s.regs.opnd), (0x10, s.regs.result), (0x18, s.regs.raw),
        (0x20, s.regs.status), (0x28, 0#64), (0x30, 0#64), (0x38, 0#64)] →
    ∃ u, step s = .next u ∧ temp t u = value ∧ (∀ t' : Fin 8, t' ≠ t → temp t' u = temp t' s) ∧
      u.host.pc = s.host.pc + 1 ∧ u.host.prog = s.host.prog ∧
      u.regs = s.regs ∧ u.int = s.int ∧ u.source = s.source ∧ u.sink = s.sink

/-- 10_state.md R25: a host write to RESULT, RAW or STATUS changes no state of CORE, at any time, and the reserved
STATUS bits read 0. The same for the reserved offsets 0x28 to 0x38. -/
def Obligations.ReadOnlyRegistersIgnoreWrites : Prop :=
  (∀ (s : State) (offset : Nat) (v : Word), nextTurn s = .host →
    s.host.prog[s.host.pc]? = some (.wr { offset := offset, bits := 64 } v) →
    offset ∈ [0x10, 0x18, 0x20, 0x28, 0x30, 0x38] → step s = .next (advanceHost (popTurn s))) ∧
  ∀ s : State, Inv s → readReg 4 s &&& 0xFFFFFFFFFFFFF080#64 = 0#64

/-- 20_memory.md R46: a step is refused exactly when it is a host access that is not a 64-bit access at a multiple of 8
in 0x00 to 0x38. -/
def Obligations.BadBusAccessIsRefused : Prop :=
  ∀ (s : State) (r : Refusal), step s = .refused r ↔
    (r = .busBadAccess ∧ nextTurn s = .host ∧ ∃ a : BusAddr,
      ((∃ v, s.host.prog[s.host.pc]? = some (.wr a v)) ∨ (∃ t, s.host.prog[s.host.pc]? = some (.rd t a))) ∧
      ¬(a.bits = 64 ∧ a.offset % 8 = 0 ∧ a.offset ≤ 0x38))

/-- Reset at any time puts every register and every internal element into its value of 10_state.md R32, abandons a
command in progress, and leaves the octets already read and sent as they are (70_reset_and_hazards.md R111). That the
answers still to come, the host and the rest of the schedule stay as they are too is the model's reading (DEDUCED, log
entry 5). -/
def Obligations.ResetAtAnyTime : Prop :=
  ∀ s : State, nextTurn s = .reset → ∃ t, step s = .next t ∧
    t.regs = State.reset.regs ∧ t.int = State.reset.int ∧ t.source = s.source ∧ t.sink = s.sink ∧
    t.host = s.host ∧ t.sched = s.sched.tail

/-- 10_state.md R32: the state CORE enters on reset. -/
def Obligations.ResetState : Prop :=
  State.reset.regs.cmd = 0x0000000000000000#64 ∧ State.reset.regs.opnd = 0x0000000000000000#64 ∧
  State.reset.regs.result = 0x0000000000000000#64 ∧ State.reset.regs.raw = 0x0000000000000000#64 ∧
  State.reset.regs.status = 0x0000000000000000#64 ∧
  busyOf State.reset.regs.status = false ∧ illegalOf State.reset.regs.status = false ∧
  truncOf State.reset.regs.status = false ∧ werrOf State.reset.regs.status = false ∧
  classFieldOf State.reset.regs.status = 0 ∧ noctOf State.reset.regs.status = 0 ∧
  State.reset.int.phase = .idle ∧ State.reset.int.op = 0#3 ∧ State.reset.int.order = .be ∧
  State.reset.int.n = 0#4 ∧ State.reset.int.k = 0#4 ∧
  (∀ k, k < 8 → slotAt State.reset.int.buf k = { eos := false, d := 0x00#8 }) ∧
  State.reset.int.tx = 0#64 ∧ State.reset.int.trunc = false ∧ State.reset.int.werr = false ∧
  decode State.reset.regs.cmd = .error .reservedOp

/-- The host-local instructions ANDI, BNZ and ADDI have the effect 30_encoding.md R60 gives them on the host, and touch
no CORE state. -/
def Obligations.HostLocalInstructions : Prop :=
  ∀ (s : State) (i : HostInstr), nextTurn s = .host → s.host.prog[s.host.pc]? = some i →
    (∀ td ts imm, i = .andi td ts imm → ∃ u, step s = .next u ∧ temp td u = temp ts s &&& imm ∧
      (∀ t' : Fin 8, t' ≠ td → temp t' u = temp t' s) ∧ u.host.pc = s.host.pc + 1 ∧
      u.regs = s.regs ∧ u.int = s.int ∧ u.source = s.source ∧ u.sink = s.sink) ∧
    (∀ td ts imm, i = .addi td ts imm → ∃ u, step s = .next u ∧ temp td u = temp ts s + imm ∧
      (∀ t' : Fin 8, t' ≠ td → temp t' u = temp t' s) ∧ u.host.pc = s.host.pc + 1 ∧
      u.regs = s.regs ∧ u.int = s.int ∧ u.source = s.source ∧ u.sink = s.sink) ∧
    (∀ t target, i = .bnz t target → ∃ u, step s = .next u ∧ u.host.temps = s.host.temps ∧
      u.host.pc = (if temp t s ≠ 0#64 then target else s.host.pc + 1) ∧
      u.regs = s.regs ∧ u.int = s.int ∧ u.source = s.source ∧ u.sink = s.sink)

/-- Once a run has ended (70_reset_and_hazards.md R118), no step but a reset changes anything but the schedule. That a
turn of an agent that cannot move answers the same state with the turn taken is the model's choice (DESIGN CHOICE, log
entry 2). -/
def Obligations.EndedRunStays : Prop :=
  ∀ s : State, runEnded s → nextTurn s ≠ .reset → step s = .next { s with sched := s.sched.tail }

/-- A host program that assembles is well formed when the accesses it writes out are: labels are resolved inside the
program and the pseudo-instructions expand to legal accesses (30_encoding.md R60). -/
def Obligations.AssembledProgramIsWellFormed : Prop :=
  ∀ (lines : List HostLine) (prog : List HostInstr), assembleHost lines = some prog →
    (∀ line ∈ lines, ∀ a, (∃ v, line = .wr a v) ∨ (∃ i, line = .wrCmd a i) ∨ (∃ t, line = .rd t a) →
      a.wellFormed = true) →
    hostProgramWellFormed prog = true

/-- 60_exceptions.md R108: instances share no state, so a step of one leaves every other as it was, and a platform with
two instances on one stream is refused. -/
def Obligations.InstancesShareNothing : Prop :=
  (∀ (p q : Platform) (j : Nat), p.step j = .next q →
    q.cores.length = p.cores.length ∧
    (∀ k, k ≠ j → q.cores[k]? = p.cores[k]?) ∧
    ∃ a s, p.cores[j]? = some a ∧ step a.state = .next s ∧ q.cores[j]? = some { a with state := s }) ∧
  (∀ (p : Platform) (j : Nat) (h k : Nat) (a b : Attached), h ≠ k →
    p.cores[h]? = some a → p.cores[k]? = some b →
    (a.sourceId = b.sourceId ∨ a.sourceId = b.sinkId ∨ a.sinkId = b.sourceId ∨ a.sinkId = b.sinkId) →
    p.step j = .refused .sharedStream)

/-- The register window has eight slots at offsets 0x00 to 0x38 from its base, wherever the platform puts it
(20_memory.md R50). -/
def Obligations.WindowHasEightSlots : Prop :=
  ∀ (base addr : Nat), (∃ a, windowAccess base addr 64 = some a ∧ a.wellFormed = true) ↔
    ∃ number, number < 8 ∧ addr = base + 8 * number ∧ windowAccess base addr 64 = some (BusAddr.ofReg number)
end

