-- ==== Sys2Proof/Laws/Flags.lean ====
section
/-! SUPPORT. The fields of STATUS after each update: reading a field back, and reading any other field. -/

namespace Sys2Proof.Machine

/-- Bit i of a register after a field of it is set. -/
theorem getLsbD_setField (lo len v : Nat) (w : Word) (i : Nat) (hi : i < 64) :
    (setField lo len v w).getLsbD i =
      if lo ≤ i ∧ i < lo + len then v.testBit (i - lo) else w.getLsbD i := by
  simp only [setField, BitVec.getLsbD_or, BitVec.getLsbD_and, BitVec.getLsbD_not, BitVec.getLsbD_ofNat,
    hi, decide_true, Bool.true_and, Nat.testBit_mul_two_pow, Nat.testBit_mod_two_pow]
  by_cases h1 : lo ≤ i
  · by_cases h2 : i < lo + len
    · have h3 : i - lo < len := by omega
      simp [h1, h2, h3]
    · have h3 : ¬ i - lo < len := by omega
      simp [h1, h2, h3]
  · simp [h1]

/-- Setting one field leaves a field that does not overlap it alone. -/
theorem getField_setField_of_disjoint (lo len v lo' len' : Nat) (w : Word)
    (h64 : lo' + len' ≤ 64) (h : lo' + len' ≤ lo ∨ lo + len ≤ lo') :
    getField lo' len' (setField lo len v w) = getField lo' len' w := by
  unfold getField
  congr 1
  apply BitVec.eq_of_getLsbD_eq
  intro i hi
  rw [BitVec.getLsbD_extractLsb', BitVec.getLsbD_extractLsb', getLsbD_setField _ _ _ _ _ (by omega)]
  rw [if_neg (by omega)]

/-- A field reads back as the value it was set to. -/
theorem getField_setField_self (lo len v : Nat) (w : Word) (h64 : lo + len ≤ 64) (hv : v < 2 ^ len) :
    getField lo len (setField lo len v w) = v := by
  have h : (setField lo len v w).extractLsb' lo len = BitVec.ofNat len v := by
    apply BitVec.eq_of_getLsbD_eq
    intro i hi
    rw [BitVec.getLsbD_extractLsb', getLsbD_setField _ _ _ _ _ (by omega), if_pos (by omega),
      BitVec.getLsbD_ofNat]
    simp [hi]
  simp [getField, h, Nat.mod_eq_of_lt hv]

/-! ## The one-bit fields -/

section Bits

variable (b : Bool) (c : FClass) (n : Nat) (w : Word)

@[simp] theorem busyOf_setBusy : busyOf (setBusy b w) = b := by
  rw [busyOf, setBusy, getLsbD_setField _ _ _ _ _ (by omega)]; cases b <;> rfl
@[simp] theorem busyOf_setIllegal : busyOf (setIllegal b w) = busyOf w := by
  rw [busyOf, setIllegal, getLsbD_setField _ _ _ _ _ (by omega)]; rfl
@[simp] theorem busyOf_setTrunc : busyOf (setTrunc b w) = busyOf w := by
  rw [busyOf, setTrunc, getLsbD_setField _ _ _ _ _ (by omega)]; rfl
@[simp] theorem busyOf_setWerr : busyOf (setWerr b w) = busyOf w := by
  rw [busyOf, setWerr, getLsbD_setField _ _ _ _ _ (by omega)]; rfl
@[simp] theorem busyOf_setClass : busyOf (setClass c w) = busyOf w := by
  rw [busyOf, setClass, getLsbD_setField _ _ _ _ _ (by omega)]; rfl
@[simp] theorem busyOf_setNoct : busyOf (setNoct n w) = busyOf w := by
  rw [busyOf, setNoct, getLsbD_setField _ _ _ _ _ (by omega)]; rfl

@[simp] theorem illegalOf_setBusy : illegalOf (setBusy b w) = illegalOf w := by
  rw [illegalOf, setBusy, getLsbD_setField _ _ _ _ _ (by omega)]; rfl
@[simp] theorem illegalOf_setIllegal : illegalOf (setIllegal b w) = b := by
  rw [illegalOf, setIllegal, getLsbD_setField _ _ _ _ _ (by omega)]; cases b <;> rfl
@[simp] theorem illegalOf_setTrunc : illegalOf (setTrunc b w) = illegalOf w := by
  rw [illegalOf, setTrunc, getLsbD_setField _ _ _ _ _ (by omega)]; rfl
@[simp] theorem illegalOf_setWerr : illegalOf (setWerr b w) = illegalOf w := by
  rw [illegalOf, setWerr, getLsbD_setField _ _ _ _ _ (by omega)]; rfl
@[simp] theorem illegalOf_setClass : illegalOf (setClass c w) = illegalOf w := by
  rw [illegalOf, setClass, getLsbD_setField _ _ _ _ _ (by omega)]; rfl
@[simp] theorem illegalOf_setNoct : illegalOf (setNoct n w) = illegalOf w := by
  rw [illegalOf, setNoct, getLsbD_setField _ _ _ _ _ (by omega)]; rfl

@[simp] theorem truncOf_setBusy : truncOf (setBusy b w) = truncOf w := by
  rw [truncOf, setBusy, getLsbD_setField _ _ _ _ _ (by omega)]; rfl
@[simp] theorem truncOf_setIllegal : truncOf (setIllegal b w) = truncOf w := by
  rw [truncOf, setIllegal, getLsbD_setField _ _ _ _ _ (by omega)]; rfl
@[simp] theorem truncOf_setTrunc : truncOf (setTrunc b w) = b := by
  rw [truncOf, setTrunc, getLsbD_setField _ _ _ _ _ (by omega)]; cases b <;> rfl
@[simp] theorem truncOf_setWerr : truncOf (setWerr b w) = truncOf w := by
  rw [truncOf, setWerr, getLsbD_setField _ _ _ _ _ (by omega)]; rfl
@[simp] theorem truncOf_setClass : truncOf (setClass c w) = truncOf w := by
  rw [truncOf, setClass, getLsbD_setField _ _ _ _ _ (by omega)]; rfl
@[simp] theorem truncOf_setNoct : truncOf (setNoct n w) = truncOf w := by
  rw [truncOf, setNoct, getLsbD_setField _ _ _ _ _ (by omega)]; rfl

@[simp] theorem werrOf_setBusy : werrOf (setBusy b w) = werrOf w := by
  rw [werrOf, setBusy, getLsbD_setField _ _ _ _ _ (by omega)]; rfl
@[simp] theorem werrOf_setIllegal : werrOf (setIllegal b w) = werrOf w := by
  rw [werrOf, setIllegal, getLsbD_setField _ _ _ _ _ (by omega)]; rfl
@[simp] theorem werrOf_setTrunc : werrOf (setTrunc b w) = werrOf w := by
  rw [werrOf, setTrunc, getLsbD_setField _ _ _ _ _ (by omega)]; rfl
@[simp] theorem werrOf_setWerr : werrOf (setWerr b w) = b := by
  rw [werrOf, setWerr, getLsbD_setField _ _ _ _ _ (by omega)]; cases b <;> rfl
@[simp] theorem werrOf_setClass : werrOf (setClass c w) = werrOf w := by
  rw [werrOf, setClass, getLsbD_setField _ _ _ _ _ (by omega)]; rfl
@[simp] theorem werrOf_setNoct : werrOf (setNoct n w) = werrOf w := by
  rw [werrOf, setNoct, getLsbD_setField _ _ _ _ _ (by omega)]; rfl

/-! ## CLASS and NOCT -/

theorem classCode_lt (c : FClass) : classCode c < 2 ^ 3 := by cases c <;> decide

@[simp] theorem classFieldOf_setBusy : classFieldOf (setBusy b w) = classFieldOf w :=
  getField_setField_of_disjoint _ _ _ _ _ _ (by omega) (by omega)
@[simp] theorem classFieldOf_setIllegal : classFieldOf (setIllegal b w) = classFieldOf w :=
  getField_setField_of_disjoint _ _ _ _ _ _ (by omega) (by omega)
@[simp] theorem classFieldOf_setTrunc : classFieldOf (setTrunc b w) = classFieldOf w :=
  getField_setField_of_disjoint _ _ _ _ _ _ (by omega) (by omega)
@[simp] theorem classFieldOf_setWerr : classFieldOf (setWerr b w) = classFieldOf w :=
  getField_setField_of_disjoint _ _ _ _ _ _ (by omega) (by omega)
@[simp] theorem classFieldOf_setClass : classFieldOf (setClass c w) = classCode c :=
  getField_setField_self _ _ _ _ (by omega) (classCode_lt c)
@[simp] theorem classFieldOf_setNoct : classFieldOf (setNoct n w) = classFieldOf w :=
  getField_setField_of_disjoint _ _ _ _ _ _ (by omega) (by omega)

@[simp] theorem noctOf_setBusy : noctOf (setBusy b w) = noctOf w :=
  getField_setField_of_disjoint _ _ _ _ _ _ (by omega) (by omega)
@[simp] theorem noctOf_setIllegal : noctOf (setIllegal b w) = noctOf w :=
  getField_setField_of_disjoint _ _ _ _ _ _ (by omega) (by omega)
@[simp] theorem noctOf_setTrunc : noctOf (setTrunc b w) = noctOf w :=
  getField_setField_of_disjoint _ _ _ _ _ _ (by omega) (by omega)
@[simp] theorem noctOf_setWerr : noctOf (setWerr b w) = noctOf w :=
  getField_setField_of_disjoint _ _ _ _ _ _ (by omega) (by omega)
@[simp] theorem noctOf_setClass : noctOf (setClass c w) = noctOf w :=
  getField_setField_of_disjoint _ _ _ _ _ _ (by omega) (by omega)
theorem noctOf_setNoct (hn : n < 16) : noctOf (setNoct n w) = n :=
  getField_setField_self _ _ _ _ (by omega) hn

end Bits

/-! ## The two updates of the whole register -/

section Updates

variable (trunc werr : Bool) (c : FClass) (n : Nat) (w : Word)

@[simp] theorem busyOf_completionStatus : busyOf (completionStatus trunc werr c n w) = false := by
  simp [completionStatus]
@[simp] theorem illegalOf_completionStatus : illegalOf (completionStatus trunc werr c n w) = false := by
  simp [completionStatus]
@[simp] theorem truncOf_completionStatus : truncOf (completionStatus trunc werr c n w) = trunc := by
  simp [completionStatus]
@[simp] theorem werrOf_completionStatus : werrOf (completionStatus trunc werr c n w) = werr := by
  simp [completionStatus]
@[simp] theorem classFieldOf_completionStatus :
    classFieldOf (completionStatus trunc werr c n w) = classCode c := by
  simp [completionStatus]
theorem noctOf_completionStatus (hn : n < 16) : noctOf (completionStatus trunc werr c n w) = n := by
  simp [completionStatus, noctOf_setNoct _ _ hn]

@[simp] theorem busyOf_illegalStatus : busyOf (illegalStatus w) = busyOf w := by simp [illegalStatus]
@[simp] theorem illegalOf_illegalStatus : illegalOf (illegalStatus w) = true := by simp [illegalStatus]
@[simp] theorem truncOf_illegalStatus : truncOf (illegalStatus w) = false := by simp [illegalStatus]
@[simp] theorem werrOf_illegalStatus : werrOf (illegalStatus w) = false := by simp [illegalStatus]
@[simp] theorem classFieldOf_illegalStatus : classFieldOf (illegalStatus w) = 0 := by
  simp [illegalStatus, classCode]
@[simp] theorem noctOf_illegalStatus : noctOf (illegalStatus w) = 0 := by
  simp [illegalStatus, noctOf_setNoct]

/-- The reserved bits of STATUS keep their values at a completion. -/
theorem reserved_completionStatus (i : Nat) (hi : i < 64) (h : i = 7 ∨ 12 ≤ i) :
    (completionStatus trunc werr c n w).getLsbD i = w.getLsbD i := by
  simp only [completionStatus, setBusy, setNoct, setClass, setWerr, setTrunc, setIllegal,
    getLsbD_setField _ _ _ _ i hi]
  rw [if_neg (by omega), if_neg (by omega), if_neg (by omega), if_neg (by omega), if_neg (by omega),
    if_neg (by omega)]

/-- The reserved bits of STATUS keep their values at the acceptance of an illegal word. -/
theorem reserved_illegalStatus (i : Nat) (hi : i < 64) (h : i = 7 ∨ 12 ≤ i) :
    (illegalStatus w).getLsbD i = w.getLsbD i := by
  simp only [illegalStatus, setNoct, setClass, setWerr, setTrunc, setIllegal, getLsbD_setField _ _ _ _ i hi]
  rw [if_neg (by omega), if_neg (by omega), if_neg (by omega), if_neg (by omega), if_neg (by omega)]

/-- setBusy changes bit 0 alone. -/
theorem getLsbD_setBusy_of_ne (b : Bool) (i : Nat) (hi : i < 64) (h : i ≠ 0) :
    (setBusy b w).getLsbD i = w.getLsbD i := by
  rw [setBusy, getLsbD_setField _ _ _ _ i hi, if_neg (by omega)]

end Updates

end Sys2Proof.Machine
end

