-- ==== Sys2Proof/Laws/Operands.lean ====
section
/-! SUPPORT. Small laws of the operand forms: the octet sums, what a word and an integer value depend on, the bounds of
the float fields, and rounding. -/

namespace Sys2Proof.Machine

/-! ## Octet sums -/

/-- A sum over a list of indices is a sum over a range. -/
theorem sum_map_range {α : Type} [AddCommMonoid α] (f : ℕ → α) (n : ℕ) :
    ((List.range n).map f).sum = ∑ j ∈ Finset.range n, f j := by
  induction n with
  | zero => simp
  | succ n ih =>
    rw [List.range_succ, List.map_append, List.sum_append, ih, Finset.sum_range_succ]
    simp

/-- An octet sum read from the other end. -/
theorem sum_map_range_reflect {α : Type} [AddCommMonoid α] (f : ℕ → α) (n : ℕ) :
    ((List.range n).map f).sum = ((List.range n).map fun k => f (n - 1 - k)).sum := by
  rw [sum_map_range, sum_map_range, Finset.sum_range_reflect]

/-- A sum of n base-256 digits is below 256^n. -/
theorem digitSum_lt (f : ℕ → ℕ) (hf : ∀ j, f j < 256) (n : ℕ) :
    ∑ j ∈ Finset.range n, f j * 256 ^ j < 256 ^ n := by
  induction n with
  | zero => simp
  | succ n ih =>
    have h : f n * 256 ^ n ≤ 255 * 256 ^ n := Nat.mul_le_mul_right _ (Nat.le_of_lt_succ (hf n))
    rw [Finset.sum_range_succ, pow_succ]
    linarith

/-- The digits of a base-256 sum. -/
theorem digitSum_digit (f : ℕ → ℕ) (hf : ∀ j, f j < 256) (n k : ℕ) (hk : k < n) :
    (∑ j ∈ Finset.range n, f j * 256 ^ j) / 256 ^ k % 256 = f k := by
  induction n with
  | zero => omega
  | succ n ih =>
    rw [Finset.sum_range_succ]
    by_cases hkn : k < n
    · rw [show f n * 256 ^ n = f n * 256 ^ (n - 1 - k) * 256 * 256 ^ k by
        rw [mul_assoc, mul_assoc, ← pow_succ', ← pow_add]; congr 2; omega,
        Nat.add_mul_div_right _ _ (by positivity), Nat.add_mul_mod_self_right]
      exact ih hkn
    · obtain rfl : k = n := by omega
      rw [Nat.add_mul_div_right _ _ (by positivity), Nat.div_eq_of_lt (digitSum_lt f hf k), Nat.zero_add]
      exact Nat.mod_eq_of_lt (hf k)

/-! ## What a word and an integer value depend on -/

/-- The significance of a slot is one of the n, and reading it twice gives the slot back. -/
theorem significance_lt (order : Order) {n k : Nat} (h : k < n) : significance order n k < n := by
  cases order <;> simp only [significance] <;> omega

theorem significance_significance (order : Order) {n k : Nat} (h : k < n) :
    significance order n (significance order n k) = k := by
  cases order <;> simp only [significance]; omega

/-- The assembled word depends on the first n slots alone. -/
theorem assemble_congr (fill : Byte) (order : Order) (n : Nat) {buf buf' : Vector Slot 8}
    (h : ∀ k, k < n → slotAt buf k = slotAt buf' k) :
    assemble fill order n buf = assemble fill order n buf' := by
  unfold assemble
  congr 2
  exact List.map_congr_left fun k hk => by rw [h k (List.mem_range.1 hk)]

/-- The integer value depends on the first K slots alone. -/
theorem intValue_congr (order : Order) {K : Nat} (hK : 1 ≤ K) {buf buf' : Vector Slot 8}
    (h : ∀ k, k < K → slotAt buf k = slotAt buf' k) : intValue order K buf = intValue order K buf' := by
  have hs : ∀ j, j < K → sigInt order K buf j = sigInt order K buf' j := by
    intro j hj
    cases order <;> simp only [sigInt] <;> rw [h _ (by omega)]
  unfold intValue
  rw [hs _ (by omega)]
  congr 2
  exact List.map_congr_left fun k hk => by rw [hs k (by have := List.mem_range.1 hk; omega)]

theorem lowOctets_toNat (n : Nat) (w : Word) : (lowOctets n w).toNat = w.toNat % 2 ^ (8 * n) := by
  rw [lowOctets, BitVec.toNat_ofNat, Nat.mod_eq_of_lt]
  exact lt_of_le_of_lt (Nat.mod_le _ _) w.isLt

/-! ## Float fields -/

theorem expField_lt (T : Format) (w : Word) : expField T w < 2 ^ T.eb := Nat.mod_lt _ (by positivity)

theorem fracField_lt (T : Format) (w : Word) : fracField T w < 2 ^ T.fb := Nat.mod_lt _ (by positivity)

/-! ## Rounding -/

/-- An integer rounds to itself. -/
theorem roundNearestEven_mul (q d : Nat) (hd : 0 < d) : roundNearestEven (q * d) d = q := by
  simp [roundNearestEven, hd]

/-- Rounding moves by at most one from the integer part. -/
theorem roundNearestEven_cases (num den : Nat) :
    roundNearestEven num den = num / den ∨ roundNearestEven num den = num / den + 1 := by
  simp only [roundNearestEven]
  split
  · exact .inl rfl
  · split
    · exact .inr rfl
    · split
      · exact .inl rfl
      · exact .inr rfl

end Sys2Proof.Machine
end

