-- ==== Sys2Proof/Laws/State.lean ====
section
/-! SUPPORT. What each update of the state leaves in each of its fields, true by rfl. -/

namespace Sys2Proof.Machine

variable (s : State)

/-! ## popTurn -/

@[simp] theorem popTurn_regs : (popTurn s).regs = s.regs := rfl
@[simp] theorem popTurn_int : (popTurn s).int = s.int := rfl
@[simp] theorem popTurn_source : (popTurn s).source = s.source := rfl
@[simp] theorem popTurn_sink : (popTurn s).sink = s.sink := rfl
@[simp] theorem popTurn_host : (popTurn s).host = s.host := rfl
@[simp] theorem popTurn_sched : (popTurn s).sched = s.sched.tail := rfl

/-! ## advanceHost -/

@[simp] theorem advanceHost_regs : (advanceHost s).regs = s.regs := rfl
@[simp] theorem advanceHost_int : (advanceHost s).int = s.int := rfl
@[simp] theorem advanceHost_source : (advanceHost s).source = s.source := rfl
@[simp] theorem advanceHost_sink : (advanceHost s).sink = s.sink := rfl
@[simp] theorem advanceHost_sched : (advanceHost s).sched = s.sched := rfl
@[simp] theorem advanceHost_prog : (advanceHost s).host.prog = s.host.prog := rfl
@[simp] theorem advanceHost_pc : (advanceHost s).host.pc = s.host.pc + 1 := rfl
@[simp] theorem advanceHost_temps : (advanceHost s).host.temps = s.host.temps := rfl

/-! ## setTemp -/

variable (t : Fin 8) (v : Word)

@[simp] theorem setTemp_regs : (setTemp t v s).regs = s.regs := rfl
@[simp] theorem setTemp_int : (setTemp t v s).int = s.int := rfl
@[simp] theorem setTemp_source : (setTemp t v s).source = s.source := rfl
@[simp] theorem setTemp_sink : (setTemp t v s).sink = s.sink := rfl
@[simp] theorem setTemp_sched : (setTemp t v s).sched = s.sched := rfl
@[simp] theorem setTemp_prog : (setTemp t v s).host.prog = s.host.prog := rfl
@[simp] theorem setTemp_pc : (setTemp t v s).host.pc = s.host.pc := rfl
@[simp] theorem setTemp_temps : (setTemp t v s).host.temps = s.host.temps.set t v := rfl

/-- A temporary that is read after it is written gives the value written. -/
@[simp] theorem temp_setTemp_self : temp t (setTemp t v s) = v := by
  simp [temp, Vector.get_eq_getElem]

/-- Writing one temporary leaves every other one alone. -/
theorem temp_setTemp_of_ne {u : Fin 8} (h : u ≠ t) : temp u (setTemp t v s) = temp u s := by
  have h' : (t : Nat) ≠ u := fun e => h (Fin.ext e.symm)
  simp [temp, Vector.get_eq_getElem, Vector.getElem_set_ne, h']

/-! ## acceptIllegal -/

@[simp] theorem acceptIllegal_cmd : (acceptIllegal v s).regs.cmd = v := rfl
@[simp] theorem acceptIllegal_opnd : (acceptIllegal v s).regs.opnd = s.regs.opnd := rfl
@[simp] theorem acceptIllegal_result : (acceptIllegal v s).regs.result = s.regs.result := rfl
@[simp] theorem acceptIllegal_raw : (acceptIllegal v s).regs.raw = s.regs.raw := rfl
@[simp] theorem acceptIllegal_status : (acceptIllegal v s).regs.status = illegalStatus s.regs.status := rfl
@[simp] theorem acceptIllegal_int : (acceptIllegal v s).int = s.int := rfl
@[simp] theorem acceptIllegal_source : (acceptIllegal v s).source = s.source := rfl
@[simp] theorem acceptIllegal_sink : (acceptIllegal v s).sink = s.sink := rfl
@[simp] theorem acceptIllegal_host : (acceptIllegal v s).host = s.host := rfl
@[simp] theorem acceptIllegal_sched : (acceptIllegal v s).sched = s.sched := rfl

/-! ## accept -/

variable (i : Instr) (tx : Word)

@[simp] theorem accept_cmd : (accept i tx s).regs.cmd = encode i := rfl
@[simp] theorem accept_opnd : (accept i tx s).regs.opnd = s.regs.opnd := rfl
@[simp] theorem accept_result : (accept i tx s).regs.result = s.regs.result := rfl
@[simp] theorem accept_raw : (accept i tx s).regs.raw = s.regs.raw := rfl
@[simp] theorem accept_status : (accept i tx s).regs.status = setBusy true s.regs.status := rfl
@[simp] theorem accept_phase : (accept i tx s).int.phase = .xfer := rfl
@[simp] theorem accept_op : (accept i tx s).int.op = i.op.code := rfl
@[simp] theorem accept_order : (accept i tx s).int.order = i.order := rfl
@[simp] theorem accept_n : (accept i tx s).int.n = BitVec.ofNat 4 i.op.octets := rfl
@[simp] theorem accept_k : (accept i tx s).int.k = 0#4 := rfl
@[simp] theorem accept_buf : (accept i tx s).int.buf = s.int.buf := rfl
@[simp] theorem accept_tx : (accept i tx s).int.tx = tx := rfl
@[simp] theorem accept_trunc : (accept i tx s).int.trunc = false := rfl
@[simp] theorem accept_werr : (accept i tx s).int.werr = false := rfl
@[simp] theorem accept_source : (accept i tx s).source = s.source := rfl
@[simp] theorem accept_sink : (accept i tx s).sink = s.sink := rfl
@[simp] theorem accept_host : (accept i tx s).host = s.host := rfl
@[simp] theorem accept_sched : (accept i tx s).sched = s.sched := rfl

/-! ## storeSlot -/

variable (a : Slot) (rest : List Slot)

@[simp] theorem storeSlot_regs : (storeSlot a rest s).regs = s.regs := rfl
@[simp] theorem storeSlot_int : (storeSlot a rest s).int =
    { s.int with buf := s.int.buf.setIfInBounds s.int.k.toNat a, trunc := s.int.trunc || a.eos,
                 k := s.int.k + 1#4 } := rfl
@[simp] theorem storeSlot_pending : (storeSlot a rest s).source.pending = rest := rfl
@[simp] theorem storeSlot_consumed :
    (storeSlot a rest s).source.consumed = s.source.consumed ++ [a] := rfl
@[simp] theorem storeSlot_sink : (storeSlot a rest s).sink = s.sink := rfl
@[simp] theorem storeSlot_host : (storeSlot a rest s).host = s.host := rfl
@[simp] theorem storeSlot_sched : (storeSlot a rest s).sched = s.sched := rfl

/-! ## sendSlot -/

variable (ok : Bool) (left : List Bool)

@[simp] theorem sendSlot_regs : (sendSlot ok left s).regs = s.regs := rfl
@[simp] theorem sendSlot_int : (sendSlot ok left s).int =
    { s.int with werr := s.int.werr || !ok, k := s.int.k + 1#4 } := rfl
@[simp] theorem sendSlot_source : (sendSlot ok left s).source = s.source := rfl
@[simp] theorem sendSlot_answers : (sendSlot ok left s).sink.answers = left := rfl
@[simp] theorem sendSlot_sent :
    (sendSlot ok left s).sink.sent = s.sink.sent ++ [{ d := nextOctet s, ok := ok }] := rfl
@[simp] theorem sendSlot_host : (sendSlot ok left s).host = s.host := rfl
@[simp] theorem sendSlot_sched : (sendSlot ok left s).sched = s.sched := rfl

/-! ## complete -/

variable (result raw : Word) (c : FClass) (trunc werr : Bool)

@[simp] theorem complete_cmd : (complete result raw c trunc werr s).regs.cmd = s.regs.cmd := rfl
@[simp] theorem complete_opnd : (complete result raw c trunc werr s).regs.opnd = s.regs.opnd := rfl
@[simp] theorem complete_result : (complete result raw c trunc werr s).regs.result = result := rfl
@[simp] theorem complete_raw : (complete result raw c trunc werr s).regs.raw = raw := rfl
@[simp] theorem complete_status : (complete result raw c trunc werr s).regs.status =
    completionStatus trunc werr c s.int.n.toNat s.regs.status := rfl
@[simp] theorem complete_int : (complete result raw c trunc werr s).int = { s.int with phase := .idle } := rfl
@[simp] theorem complete_source : (complete result raw c trunc werr s).source = s.source := rfl
@[simp] theorem complete_sink : (complete result raw c trunc werr s).sink = s.sink := rfl
@[simp] theorem complete_host : (complete result raw c trunc werr s).host = s.host := rfl
@[simp] theorem complete_sched : (complete result raw c trunc werr s).sched = s.sched := rfl

/-! ## resetCore -/

@[simp] theorem resetCore_regs : (resetCore s).regs = Regs.reset := rfl
@[simp] theorem resetCore_int : (resetCore s).int = Internal.reset := rfl
@[simp] theorem resetCore_source : (resetCore s).source = s.source := rfl
@[simp] theorem resetCore_sink : (resetCore s).sink = s.sink := rfl
@[simp] theorem resetCore_host : (resetCore s).host = s.host := rfl
@[simp] theorem resetCore_sched : (resetCore s).sched = s.sched := rfl

/-! ## writeOpnd -/

/-- A write to OPND is stored when CORE is IDLE (10_state.md R15). -/
theorem writeOpnd_idle (h : s.int.phase = .idle) :
    writeOpnd v s = { s with regs := { s.regs with opnd := v } } := by
  simp [writeOpnd, h]

/-- A write to OPND is ignored in XFER (10_state.md R15). -/
theorem writeOpnd_xfer (h : s.int.phase = .xfer) : writeOpnd v s = s := by
  simp [writeOpnd, h]

end Sys2Proof.Machine
end

