-- ==== Sys2Proof/Laws/Ops.lean ====
section
/-! SUPPORT. What each shared operation can do, said once: one lemma for each operation, and the inversion lemmas of
exec and step that the invariants are proved from. -/

namespace Sys2Proof.Machine

/-! ## The two shapes of a command -/

/-- RESULT and CLASS of a read command, of int.buf. -/
def readValue (i : Instr) : Vector Slot 8 → Word × FClass :=
  match i.op with
  | .readInt16 => intResult i.order 2
  | .readInt32 => intResult i.order 4
  | .decodeF32 => floatResult .binary32 i.order 4
  | .decodeF64 => floatResult .binary64 i.order 8
  | .encodeF32 => floatResult .binary32 i.order 4
  | .encodeF64 => floatResult .binary64 i.order 8

/-- The target format of an encode command. -/
def targetFormat (i : Instr) : Format :=
  match i.op with
  | .encodeF32 => .binary32
  | _ => .binary64

theorem exec_read (i : Instr) (h : i.op.isRead = true) (s : State) :
    exec i s = readCommand i (readValue i) s := by
  cases i <;> first | rfl | cases h

theorem exec_encode (i : Instr) (h : i.op.isRead = false) (s : State) :
    exec i s = encodeCommand i (targetFormat i) s := by
  cases i <;> first | rfl | cases h

/-- The word int.tx takes when the command i is accepted. -/
def acceptTx (i : Instr) (s : State) : Word :=
  if i.op.isRead then s.int.tx else pack (targetFormat i) s.regs.opnd

/-- The completion of the command i. -/
def completion (i : Instr) (s : State) : State :=
  if i.op.isRead then
    complete (readValue i s.int.buf).1 (assemble Config.eosFill i.order i.op.octets s.int.buf)
      (readValue i s.int.buf).2 s.int.trunc false s
  else
    complete (lowOctets i.op.octets s.int.tx) (lowOctets i.op.octets s.int.tx)
      (classOf (targetFormat i) (lowOctets i.op.octets s.int.tx)) false s.int.werr s

/-- A command is accepted when CORE is IDLE. -/
theorem exec_idle (i : Instr) (s : State) (h : s.int.phase = .idle) :
    exec i s = .next (accept i (acceptTx i s) s) := by
  cases hr : i.op.isRead
  · simp [exec_encode i hr, encodeCommand, h, acceptTx, hr]
  · simp [exec_read i hr, readCommand, h, acceptTx, hr]

/-- A command that is not the one in progress changes nothing. -/
theorem exec_not_running (i : Instr) (s : State) (h : s.int.phase = .xfer) (hn : running i s = false) :
    exec i s = .next s := by
  cases hr : i.op.isRead
  · simp [exec_encode i hr, encodeCommand, h, hn]
  · simp [exec_read i hr, readCommand, h, hn]

/-- The command in progress makes a read transfer while int.k < int.n. -/
theorem exec_read_transfer (i : Instr) (s : State) (hr : i.op.isRead = true) (h : s.int.phase = .xfer)
    (hrun : running i s = true) (hk : s.int.k < s.int.n) : exec i s = readTransfer s := by
  simp [exec_read i hr, readCommand, h, hrun, hk]

/-- The command in progress makes a write transfer while int.k < int.n. -/
theorem exec_write_transfer (i : Instr) (s : State) (hr : i.op.isRead = false) (h : s.int.phase = .xfer)
    (hrun : running i s = true) (hk : s.int.k < s.int.n) : exec i s = writeTransfer s := by
  simp [exec_encode i hr, encodeCommand, h, hrun, hk]

/-- The command in progress completes when int.k = int.n. -/
theorem exec_complete (i : Instr) (s : State) (h : s.int.phase = .xfer)
    (hrun : running i s = true) (hk : s.int.k = s.int.n) : exec i s = .next (completion i s) := by
  have hlt : ¬ s.int.n < s.int.n := by simp
  cases hr : i.op.isRead
  · simp [exec_encode i hr, encodeCommand, h, hrun, hk, completion, hr]
  · simp [exec_read i hr, readCommand, h, hrun, hk, completion, hr]

/-- Beyond int.n the command in progress has no step. -/
theorem exec_past_end (i : Instr) (s : State) (h : s.int.phase = .xfer)
    (hrun : running i s = true) (hk : ¬ s.int.k < s.int.n) (hk' : s.int.k ≠ s.int.n) :
    exec i s = .fault .slotPastEnd := by
  cases hr : i.op.isRead
  · simp [exec_encode i hr, encodeCommand, h, hrun, hk, hk']
  · simp [exec_read i hr, readCommand, h, hrun, hk, hk']

/-- What a read transfer can do when it answers a next state. -/
theorem readTransfer_next (s t : State) (h : readTransfer s = .next t) :
    (s.source.pending = [] ∧ t = s) ∨
    (∃ a rest, s.source.pending = a :: rest ∧ s.int.k.toNat < 8 ∧ t = storeSlot a rest s) := by
  unfold readTransfer at h
  split at h
  · next hp => cases h; exact .inl ⟨hp, rfl⟩
  · next a rest hp =>
    split at h
    · next hk => cases h; exact .inr ⟨a, rest, hp, hk, rfl⟩
    · cases h

/-- What a write transfer can do when it answers a next state. -/
theorem writeTransfer_next (s t : State) (h : writeTransfer s = .next t) :
    (s.sink.answers = [] ∧ t = s) ∨
    (∃ ok rest, s.sink.answers = ok :: rest ∧ t = sendSlot ok rest s) := by
  unfold writeTransfer at h
  split at h
  · next hp => cases h; exact .inl ⟨hp, rfl⟩
  · next ok rest hp => cases h; exact .inr ⟨ok, rest, hp, rfl⟩

/-- Everything a command can do when it answers a next state. -/
theorem exec_next (i : Instr) (s t : State) (h : exec i s = .next t) :
    (s.int.phase = .idle ∧ t = accept i (acceptTx i s) s) ∨
    (s.int.phase = .xfer ∧ t = s) ∨
    (s.int.phase = .xfer ∧ running i s = true ∧ i.op.isRead = true ∧ s.int.k < s.int.n ∧
      ∃ a rest, s.source.pending = a :: rest ∧ s.int.k.toNat < 8 ∧ t = storeSlot a rest s) ∨
    (s.int.phase = .xfer ∧ running i s = true ∧ i.op.isRead = false ∧ s.int.k < s.int.n ∧
      ∃ ok rest, s.sink.answers = ok :: rest ∧ t = sendSlot ok rest s) ∨
    (s.int.phase = .xfer ∧ running i s = true ∧ s.int.k = s.int.n ∧ t = completion i s) := by
  cases hp : s.int.phase
  · rw [exec_idle i s hp] at h; cases h; exact .inl ⟨rfl, rfl⟩
  · refine .inr ?_
    cases hrun : running i s
    · rw [exec_not_running i s hp hrun] at h; cases h; exact .inl ⟨rfl, rfl⟩
    · by_cases hk : s.int.k < s.int.n
      · cases hr : i.op.isRead
        · rw [exec_write_transfer i s hr hp hrun hk] at h
          obtain ⟨-, rfl⟩ | ⟨ok, rest, ha, rfl⟩ := writeTransfer_next s t h
          · exact .inl ⟨rfl, rfl⟩
          · exact .inr (.inr (.inl ⟨rfl, rfl, rfl, hk, ok, rest, ha, rfl⟩))
        · rw [exec_read_transfer i s hr hp hrun hk] at h
          obtain ⟨-, rfl⟩ | ⟨a, rest, ha, hk8, rfl⟩ := readTransfer_next s t h
          · exact .inl ⟨rfl, rfl⟩
          · exact .inr (.inl ⟨rfl, rfl, rfl, hk, a, rest, ha, hk8, rfl⟩)
      · by_cases hk' : s.int.k = s.int.n
        · rw [exec_complete i s hp hrun hk'] at h; cases h
          exact .inr (.inr (.inr ⟨rfl, rfl, hk', rfl⟩))
        · rw [exec_past_end i s hp hrun hk hk'] at h; cases h

/-- No command is refused. -/
theorem exec_ne_refused (i : Instr) (s : State) (r : Refusal) : exec i s ≠ .refused r := by
  intro h
  cases hp : s.int.phase
  · rw [exec_idle i s hp] at h; cases h
  · cases hrun : running i s
    · rw [exec_not_running i s hp hrun] at h; cases h
    · by_cases hk : s.int.k < s.int.n
      · cases hr : i.op.isRead
        · rw [exec_write_transfer i s hr hp hrun hk] at h
          unfold writeTransfer at h
          split at h <;> cases h
        · rw [exec_read_transfer i s hr hp hrun hk] at h
          unfold readTransfer at h
          split at h
          · cases h
          · split at h <;> cases h
      · by_cases hk' : s.int.k = s.int.n
        · rw [exec_complete i s hp hrun hk'] at h; cases h
        · rw [exec_past_end i s hp hrun hk hk'] at h; cases h

/-! ## The command in progress -/

theorem ofCode_code (op : Op) : Op.ofCode op.code = some op := by cases op <;> rfl

theorem code_injective {a b : Op} (h : a.code = b.code) : a = b := by
  have := congrArg Op.ofCode h
  rw [ofCode_code, ofCode_code] at this
  exact Option.some.inj this

theorem code_ofCode {c : BitVec 3} {op : Op} (h : Op.ofCode c = some op) : op.code = c := by
  revert c op; decide

@[simp] theorem op_ofParts (op : Op) (o : Order) : (Instr.ofParts op o).op = op := by
  cases op <;> cases o <;> rfl

@[simp] theorem order_ofParts (op : Op) (o : Order) : (Instr.ofParts op o).order = o := by
  cases op <;> cases o <;> rfl

@[simp] theorem ofParts_op_order (i : Instr) : Instr.ofParts i.op i.order = i := by cases i <;> rfl

/-- The current command is the one that is running. -/
theorem currentCommand_eq_some (s : State) (i : Instr) :
    currentCommand s = some i ↔ running i s = true := by
  constructor
  · intro h
    unfold currentCommand at h
    split at h
    · next op hop =>
      cases h
      simp [running, code_ofCode hop]
    · cases h
  · intro h
    simp only [running, Bool.and_eq_true, decide_eq_true_eq] at h
    simp [currentCommand, h.1, h.2, ofCode_code]

/-- At most one command is running. -/
theorem running_unique {i j : Instr} {s : State} (hi : running i s = true) (hj : running j s = true) :
    i = j := by
  rw [← currentCommand_eq_some] at hi hj
  exact Option.some.inj (hi.symm.trans hj)

/-! ## CORE's turn, the host's turn, a step -/

/-- What CORE's turn can do when it answers a next state. -/
theorem coreTurn_next (s t : State) (h : coreTurn s = .next t) :
    (s.int.phase = .idle ∧ t = s) ∨
    (s.int.phase = .xfer ∧ ∃ i, running i s = true ∧ exec i s = .next t) := by
  unfold coreTurn at h
  split at h
  · next hp => cases h; exact .inl ⟨hp, rfl⟩
  · next hp =>
    split at h
    · next i hi => exact .inr ⟨hp, i, (currentCommand_eq_some s i).1 hi, h⟩
    · cases h

/-- What a host write to CMD can do when it answers a next state. -/
theorem writeCmd_next (v : Word) (s t : State) (h : writeCmd v s = .next t) :
    (s.int.phase = .xfer ∧ t = s) ∨
    (s.int.phase = .idle ∧ ∃ i, decode v = .ok i ∧ t = accept i (acceptTx i s) s) ∨
    (s.int.phase = .idle ∧ (∃ e, decode v = .error e) ∧ t = acceptIllegal v s) := by
  unfold writeCmd at h
  split at h
  · next hp =>
    split at h
    · next i hi => rw [exec_idle i s hp] at h; cases h; exact .inr (.inl ⟨hp, i, hi, rfl⟩)
    · next e he => cases h; exact .inr (.inr ⟨hp, ⟨e, he⟩, rfl⟩)
  · next hp => cases h; exact .inl ⟨hp, rfl⟩

/-- What the host's turn can do to CORE and to the two streams when it answers a next state: nothing, or one of the
three effects of a write in the register window. The host program and the schedule are never changed. -/
theorem hostTurn_next (s t : State) (h : hostTurn s = .next t) :
    (t.regs = s.regs ∧ t.int = s.int ∧ t.source = s.source ∧ t.sink = s.sink) ∨
    (s.int.phase = .idle ∧ ∃ v, s.host.prog[s.host.pc]? = some (.wr BusAddr.opnd v) ∧
      t = writeOpnd v (advanceHost s)) ∨
    (s.int.phase = .idle ∧ ∃ v i, s.host.prog[s.host.pc]? = some (.wr BusAddr.cmd v) ∧ decode v = .ok i ∧
      t = accept i (acceptTx i s) (advanceHost s)) ∨
    (s.int.phase = .idle ∧ ∃ v e, s.host.prog[s.host.pc]? = some (.wr BusAddr.cmd v) ∧
      decode v = .error e ∧ t = acceptIllegal v (advanceHost s)) := by
  unfold hostTurn at h
  split at h
  · next i hi =>
    cases i with
    | wr a v =>
      simp only [runHostInstr] at h
      split at h
      · next hw =>
        simp only [BusAddr.wellFormed, Bool.and_eq_true, decide_eq_true_eq] at hw
        obtain ⟨⟨hb, hm⟩, hl⟩ := hw
        unfold writeReg at h
        split at h
        · next h0 =>
          have ha : a = BusAddr.cmd := by
            cases a; simp only [BusAddr.cmd, BusAddr.ofReg, BusAddr.mk.injEq] at *; omega
          subst ha
          obtain ⟨-, rfl⟩ | ⟨hp, i, hd, rfl⟩ | ⟨hp, ⟨e, he⟩, rfl⟩ := writeCmd_next v _ t h
          · exact .inl ⟨rfl, rfl, rfl, rfl⟩
          · exact .inr (.inr (.inl ⟨hp, v, i, hi, hd, rfl⟩))
          · exact .inr (.inr (.inr ⟨hp, v, e, hi, he, rfl⟩))
        · next h1 =>
          have ha : a = BusAddr.opnd := by
            cases a; simp only [BusAddr.opnd, BusAddr.ofReg, BusAddr.mk.injEq] at *; omega
          subst ha
          cases h
          cases hp : s.int.phase
          · exact .inr (.inl ⟨rfl, v, hi, rfl⟩)
          · refine .inl ?_
            rw [writeOpnd_xfer (advanceHost s) v hp]
            exact ⟨rfl, rfl, rfl, rfl⟩
        · cases h; exact .inl ⟨rfl, rfl, rfl, rfl⟩
      · cases h
    | rd t' a =>
      simp only [runHostInstr] at h
      split at h
      · cases h; exact .inl ⟨rfl, rfl, rfl, rfl⟩
      · cases h
    | andi td ts imm => cases h; exact .inl ⟨rfl, rfl, rfl, rfl⟩
    | bnz t' target =>
      simp only [runHostInstr] at h
      split at h <;> (cases h; exact .inl ⟨rfl, rfl, rfl, rfl⟩)
    | addi td ts imm => cases h; exact .inl ⟨rfl, rfl, rfl, rfl⟩
  · cases h; exact .inl ⟨rfl, rfl, rfl, rfl⟩

/-- No step but the host's leaves the host's program, and none changes it. -/
theorem hostTurn_prog (s t : State) (h : hostTurn s = .next t) :
    t.host.prog = s.host.prog ∧ t.sched = s.sched := by
  unfold hostTurn at h
  split at h
  · next i hi =>
    cases i with
    | wr a v =>
      simp only [runHostInstr] at h
      split at h
      · unfold writeReg at h
        split at h
        · obtain ⟨-, rfl⟩ | ⟨-, i, -, rfl⟩ | ⟨-, -, rfl⟩ := writeCmd_next v _ t h <;> exact ⟨rfl, rfl⟩
        · cases h
          unfold writeOpnd
          split <;> exact ⟨rfl, rfl⟩
        · cases h; exact ⟨rfl, rfl⟩
      · cases h
    | rd t' a =>
      simp only [runHostInstr] at h
      split at h
      · cases h; exact ⟨rfl, rfl⟩
      · cases h
    | andi td ts imm => cases h; exact ⟨rfl, rfl⟩
    | bnz t' target =>
      simp only [runHostInstr] at h
      split at h <;> (cases h; exact ⟨rfl, rfl⟩)
    | addi td ts imm => cases h; exact ⟨rfl, rfl⟩
  · cases h; exact ⟨rfl, rfl⟩

/-- A step by the agent whose turn it is. -/
theorem step_host (s : State) (h : nextTurn s = .host) : step s = hostTurn (popTurn s) := by
  simp [step, h, takeTurn]

theorem step_core (s : State) (h : nextTurn s = .core) : step s = coreTurn (popTurn s) := by
  simp [step, h, takeTurn]

theorem step_reset (s : State) (h : nextTurn s = .reset) : step s = .next (resetCore (popTurn s)) := by
  simp [step, h, takeTurn]

/-- Everything a step can do to CORE and to the two streams when it answers a next state: nothing, a host write to
OPND, the acceptance of a legal or an illegal CMD value, a read or a write transfer, a completion, or a reset. -/
theorem step_next (s t : State) (h : step s = .next t) :
    (nextTurn s ≠ .reset ∧ t.regs = s.regs ∧ t.int = s.int ∧ t.source = s.source ∧ t.sink = s.sink) ∨
    (nextTurn s = .host ∧ s.int.phase = .idle ∧ ∃ v, s.host.prog[s.host.pc]? = some (.wr BusAddr.opnd v) ∧
      t = writeOpnd v (advanceHost (popTurn s))) ∨
    (nextTurn s = .host ∧ s.int.phase = .idle ∧ ∃ v i, s.host.prog[s.host.pc]? = some (.wr BusAddr.cmd v) ∧
      decode v = .ok i ∧ t = accept i (acceptTx i s) (advanceHost (popTurn s))) ∨
    (nextTurn s = .host ∧ s.int.phase = .idle ∧ ∃ v e, s.host.prog[s.host.pc]? = some (.wr BusAddr.cmd v) ∧
      decode v = .error e ∧ t = acceptIllegal v (advanceHost (popTurn s))) ∨
    (nextTurn s = .core ∧ s.int.phase = .xfer ∧ ∃ i, running i s = true ∧ i.op.isRead = true ∧
      s.int.k < s.int.n ∧ ∃ a rest, s.source.pending = a :: rest ∧ s.int.k.toNat < 8 ∧
      t = storeSlot a rest (popTurn s)) ∨
    (nextTurn s = .core ∧ s.int.phase = .xfer ∧ ∃ i, running i s = true ∧ i.op.isRead = false ∧
      s.int.k < s.int.n ∧ ∃ ok rest, s.sink.answers = ok :: rest ∧ t = sendSlot ok rest (popTurn s)) ∨
    (nextTurn s = .core ∧ s.int.phase = .xfer ∧ ∃ i, running i s = true ∧ s.int.k = s.int.n ∧
      t = completion i (popTurn s)) ∨
    (nextTurn s = .reset ∧ t = resetCore (popTurn s)) := by
  cases hturn : nextTurn s with
  | host =>
    rw [step_host s hturn] at h
    obtain ⟨h1, h2, h3, h4⟩ | ⟨hp, v, hv, rfl⟩ | ⟨hp, v, i, hv, hd, rfl⟩ | ⟨hp, v, e, hv, hd, rfl⟩ :=
      hostTurn_next _ t h
    · exact .inl ⟨by simp, h1, h2, h3, h4⟩
    · exact .inr (.inl ⟨rfl, hp, v, hv, rfl⟩)
    · exact .inr (.inr (.inl ⟨rfl, hp, v, i, hv, hd, rfl⟩))
    · exact .inr (.inr (.inr (.inl ⟨rfl, hp, v, e, hv, hd, rfl⟩)))
  | core =>
    rw [step_core s hturn] at h
    obtain ⟨-, rfl⟩ | ⟨hp, i, hrun, he⟩ := coreTurn_next _ t h
    · exact .inl ⟨by simp, rfl, rfl, rfl, rfl⟩
    · have hrun' : running i s = true := hrun
      have hp' : s.int.phase = .xfer := hp
      obtain ⟨hi, -⟩ | ⟨-, rfl⟩ | ⟨-, -, hr, hk, a, rest, ha, hk8, rfl⟩ | ⟨-, -, hr, hk, ok, rest, ha, rfl⟩ |
        ⟨-, -, hk, rfl⟩ := exec_next i _ t he
      · rw [hp] at hi; cases hi
      · exact .inl ⟨by simp, rfl, rfl, rfl, rfl⟩
      · exact .inr (.inr (.inr (.inr (.inl ⟨rfl, hp', i, hrun', hr, hk, a, rest, ha, hk8, rfl⟩))))
      · exact .inr (.inr (.inr (.inr (.inr (.inl ⟨rfl, hp', i, hrun', hr, hk, ok, rest, ha, rfl⟩)))))
      · exact .inr (.inr (.inr (.inr (.inr (.inr (.inl ⟨rfl, hp', i, hrun', hk, rfl⟩))))))
  | reset =>
    rw [step_reset s hturn] at h
    cases h
    exact .inr (.inr (.inr (.inr (.inr (.inr (.inr ⟨rfl, rfl⟩))))))

end Sys2Proof.Machine
end

