-- ==== Sys2Proof/Laws/PerInstr.lean ====
section
/-! SUPPORT. The per-instruction family CommandWord: the fields of a command's word and its octet count. -/

namespace Sys2Proof.Laws.CommandWord

open Sys2Proof

/-- A command is well formed, its word is legal and is ORDER · 8 + OP (30_encoding.md R53), it is the command of its
operation and its order, and it makes 2, 4 or 8 transfers (00_scope.md R6). -/
def Statement (i : Instr) : Prop :=
  i.wellFormed = true ∧ legalWord (encode i) = true ∧
    (encode i).toNat = i.order.bit.toNat * 8 + i.op.code.toNat ∧
    Instr.ofParts i.op i.order = i ∧ (i.op.octets = 2 ∨ i.op.octets = 4 ∨ i.op.octets = 8)

theorem readInt16Be : Statement .readInt16Be := by unfold Statement; decide
theorem readInt16Le : Statement .readInt16Le := by unfold Statement; decide
theorem readInt32Be : Statement .readInt32Be := by unfold Statement; decide
theorem readInt32Le : Statement .readInt32Le := by unfold Statement; decide
theorem decodeF32Be : Statement .decodeF32Be := by unfold Statement; decide
theorem decodeF32Le : Statement .decodeF32Le := by unfold Statement; decide
theorem decodeF64Be : Statement .decodeF64Be := by unfold Statement; decide
theorem decodeF64Le : Statement .decodeF64Le := by unfold Statement; decide
theorem encodeF32Be : Statement .encodeF32Be := by unfold Statement; decide
theorem encodeF32Le : Statement .encodeF32Le := by unfold Statement; decide
theorem encodeF64Be : Statement .encodeF64Be := by unfold Statement; decide
theorem encodeF64Le : Statement .encodeF64Le := by unfold Statement; decide

end Sys2Proof.Laws.CommandWord
end

