-- ==== Sys2Proof/Laws/Runs.lean ====
section
/-! SUPPORT. The transfers of a command, packaged once by induction over the collaborator's answers. -/

namespace Sys2Proof.Machine

/-! ## Slots and the slot index -/

theorem slotAt_setIfInBounds_self (b : Vector Slot 8) (k : Nat) (a : Slot) (h : k < 8) :
    slotAt (b.setIfInBounds k a) k = a := by
  simp [slotAt, h]

theorem slotAt_setIfInBounds_of_ne (b : Vector Slot 8) (k j : Nat) (a : Slot) (h : j ≠ k) :
    slotAt (b.setIfInBounds k a) j = slotAt b j := by
  simp [slotAt, Vector.getElem?_setIfInBounds_ne h.symm]

theorem running_of {i : Instr} {s : State} (h1 : s.int.op = i.op.code) (h2 : s.int.order = i.order) :
    running i s = true := by
  simp [running, h1, h2]

theorem op_of_running {i : Instr} {s : State} (h : running i s = true) : s.int.op = i.op.code := by
  simp [running] at h; exact h.1

theorem order_of_running {i : Instr} {s : State} (h : running i s = true) : s.int.order = i.order := by
  simp [running] at h; exact h.2

/-- int.k moves on without wrapping while it is below int.n. -/
theorem toNat_add_one_of_lt (k n : BitVec 4) (h : k.toNat < n.toNat) : (k + 1#4).toNat = k.toNat + 1 := by
  rw [BitVec.toNat_add]
  have := n.isLt
  simp
  omega

theorem octets_cases (op : Op) : op.octets = 2 ∨ op.octets = 4 ∨ op.octets = 8 := by
  cases op <;> simp [Op.octets]

theorem octets_le (op : Op) : op.octets ≤ 8 := by cases op <;> simp [Op.octets]

theorem toNat_octets (op : Op) : (BitVec.ofNat 4 op.octets).toNat = op.octets := by
  cases op <;> rfl

/-- The octet count survives its 4-bit field. -/
@[simp] theorem octets_mod (op : Op) : op.octets % 16 = op.octets := by cases op <;> rfl

/-! ## Runs of one command -/

@[simp] theorem runExec_zero (i : Instr) (s : State) : runExec i 0 s = .next s := rfl

theorem runExec_succ_of_next {i : Instr} {s t : State} (m : Nat) (h : exec i s = .next t) :
    runExec i (m + 1) s = runExec i m t := by
  simp [runExec, h]

theorem runExec_add {i : Instr} {s t : State} (m m' : Nat) (h : runExec i m s = .next t) :
    runExec i (m + m') s = runExec i m' t := by
  induction m generalizing s with
  | zero => cases h; rw [Nat.zero_add]
  | succ m ih =>
    rw [Nat.add_right_comm]
    unfold runExec at h
    split at h
    · next u hu => rw [runExec_succ_of_next _ hu]; exact ih h
    · cases h
    · cases h

/-- The read transfers of a command: `octets` are the next answers of the source, and each is stored in its slot. -/
theorem runExec_readTransfers (i : Instr) (hr : i.op.isRead = true) (octets rest : List Slot) (s : State)
    (hp : s.int.phase = .xfer) (hrun : running i s = true)
    (hk : s.int.k.toNat + octets.length ≤ s.int.n.toNat) (hn : s.int.n.toNat ≤ 8)
    (hpend : s.source.pending = octets ++ rest) :
    ∃ buf k, runExec i octets.length s = .next { s with
        source := { pending := rest, consumed := s.source.consumed ++ octets },
        int := { s.int with buf := buf, trunc := s.int.trunc || octets.any (fun x => x.eos), k := k } } ∧
      k.toNat = s.int.k.toNat + octets.length ∧
      (∀ j, j < s.int.k.toNat → slotAt buf j = slotAt s.int.buf j) ∧
      ∀ j, (h : j < octets.length) → slotAt buf (s.int.k.toNat + j) = octets[j] := by
  induction octets generalizing s with
  | nil =>
    refine ⟨s.int.buf, s.int.k, ?_, rfl, fun _ _ => rfl, fun _ h => absurd h (by simp)⟩
    simp only [List.length_nil, runExec_zero, List.append_nil, List.any_nil, Bool.or_false]
    rw [List.nil_append] at hpend
    rw [← hpend]
  | cons a octets ih =>
    simp only [List.length_cons] at hk ⊢
    have hlt : s.int.k.toNat < s.int.n.toNat := by omega
    have hk1 := toNat_add_one_of_lt _ _ hlt
    have he : exec i s = .next (storeSlot a (octets ++ rest) s) := by
      rw [exec_read_transfer i s hr hp hrun hlt, readTransfer, hpend]
      simp only [List.cons_append]
      rw [if_pos (by omega)]
    obtain ⟨buf, k, hrunE, hk', hlow, hhigh⟩ := ih (storeSlot a (octets ++ rest) s) hp hrun
      (by simp only [storeSlot_int]; rw [hk1]; omega) hn rfl
    simp only [storeSlot_int, hk1] at hk' hlow hhigh
    refine ⟨buf, k, ?_, by omega, ?_, ?_⟩
    · rw [runExec_succ_of_next _ he, hrunE]
      simp [storeSlot, Bool.or_assoc]
    · intro j hj
      rw [hlow j (by omega), slotAt_setIfInBounds_of_ne _ _ _ _ (by omega)]
    · intro j hj
      cases j with
      | zero =>
        rw [Nat.add_zero, hlow _ (by omega), slotAt_setIfInBounds_self _ _ _ (by omega)]
        rfl
      | succ j =>
        have := hhigh j (by omega)
        rw [show s.int.k.toNat + (j + 1) = s.int.k.toNat + 1 + j by omega, this]
        rfl

/-- The write transfers of a command: `oks` are the next answers of the sink. -/
theorem runExec_writeTransfers (i : Instr) (hr : i.op.isRead = false) (oks rest : List Bool) (s : State)
    (hp : s.int.phase = .xfer) (hrun : running i s = true)
    (hk : s.int.k.toNat + oks.length ≤ s.int.n.toNat)
    (hans : s.sink.answers = oks ++ rest) :
    ∃ sent k, runExec i oks.length s = .next { s with
        sink := { answers := rest, sent := s.sink.sent ++ sent },
        int := { s.int with werr := s.int.werr || oks.any (fun b => !b), k := k } } ∧
      k.toNat = s.int.k.toNat + oks.length ∧
      sent.map (fun x => x.ok) = oks ∧
      sent.map (fun x => x.d) = (List.range oks.length).map fun j =>
        sendOctet s.int.order s.int.n.toNat (s.int.k.toNat + j) s.int.tx := by
  induction oks generalizing s with
  | nil =>
    refine ⟨[], s.int.k, ?_, rfl, rfl, rfl⟩
    simp only [List.length_nil, runExec_zero, List.append_nil, List.any_nil, Bool.or_false]
    rw [List.nil_append] at hans
    rw [← hans]
  | cons ok oks ih =>
    simp only [List.length_cons] at hk ⊢
    have hlt : s.int.k.toNat < s.int.n.toNat := by omega
    have hk1 := toNat_add_one_of_lt _ _ hlt
    have he : exec i s = .next (sendSlot ok (oks ++ rest) s) := by
      rw [exec_write_transfer i s hr hp hrun hlt, writeTransfer, hans]
      rfl
    obtain ⟨sent, k, hrunE, hk', hoks, hds⟩ := ih (sendSlot ok (oks ++ rest) s) hp hrun
      (by simp only [sendSlot_int]; rw [hk1]; omega) rfl
    simp only [sendSlot_int, hk1] at hk' hds
    refine ⟨{ d := nextOctet s, ok := ok } :: sent, k, ?_, by omega, by simp [hoks], ?_⟩
    · rw [runExec_succ_of_next _ he, hrunE]
      simp [sendSlot, Bool.or_assoc]
    · rw [List.range_succ_eq_map, List.map_cons, List.map_cons, hds, List.map_map]
      simp only [nextOctet, Nat.add_zero, List.cons.injEq, true_and]
      apply List.map_congr_left
      intro j _
      simp only [Function.comp_apply, Nat.succ_eq_add_one]
      rw [show s.int.k.toNat + (j + 1) = s.int.k.toNat + 1 + j by omega]

/-! ## Whole commands -/

/-- A whole read command: acceptance, one transfer for each of the octets, completion. -/
theorem runExec_read (i : Instr) (hr : i.op.isRead = true) (octets rest : List Slot) (s : State)
    (hp : s.int.phase = .idle) (hlen : octets.length = i.op.octets)
    (hpend : s.source.pending = octets ++ rest) :
    ∃ buf k, (∀ j, (h : j < octets.length) → slotAt buf j = octets[j]) ∧ k = BitVec.ofNat 4 i.op.octets ∧
      runExec i (i.op.octets + 2) s = .next (completion i { accept i s.int.tx s with
        source := { pending := rest, consumed := s.source.consumed ++ octets },
        int := { (accept i s.int.tx s).int with
          buf := buf, trunc := octets.any (fun x => x.eos), k := k } }) := by
  have he : exec i s = .next (accept i s.int.tx s) := by
    rw [exec_idle i s hp]; simp [acceptTx, hr]
  obtain ⟨buf, k, hrunE, hk, -, hhigh⟩ := runExec_readTransfers i hr octets rest (accept i s.int.tx s) rfl
    (running_of rfl rfl) (by simp [hlen]) (by simp [octets_le]) hpend
  have hk' : k = BitVec.ofNat 4 i.op.octets := by
    apply BitVec.eq_of_toNat_eq
    rw [hk, toNat_octets, hlen]; simp
  refine ⟨buf, k, fun j h => by simpa using hhigh j h, hk', ?_⟩
  rw [show i.op.octets + 2 = (octets.length + 1) + 1 by omega, runExec_succ_of_next _ he,
    runExec_add _ 1 hrunE, runExec_succ_of_next 0 (exec_complete i _ rfl (running_of rfl rfl) hk')]
  simp

/-- A whole encode command: acceptance, one transfer for each of the octets, completion. -/
theorem runExec_encode (i : Instr) (hr : i.op.isRead = false) (oks rest : List Bool) (s : State)
    (hp : s.int.phase = .idle) (hlen : oks.length = i.op.octets)
    (hans : s.sink.answers = oks ++ rest) :
    ∃ sent k, sent.map (fun x => x.ok) = oks ∧
      sent.map (fun x => x.d) = (List.range i.op.octets).map (fun j =>
        sendOctet i.order i.op.octets j (pack (targetFormat i) s.regs.opnd)) ∧
      k = BitVec.ofNat 4 i.op.octets ∧
      runExec i (i.op.octets + 2) s = .next (completion i
        { accept i (pack (targetFormat i) s.regs.opnd) s with
          sink := { answers := rest, sent := s.sink.sent ++ sent },
          int := { (accept i (pack (targetFormat i) s.regs.opnd) s).int with
            werr := oks.any (fun b => !b), k := k } }) := by
  have he : exec i s = .next (accept i (pack (targetFormat i) s.regs.opnd) s) := by
    rw [exec_idle i s hp]; simp [acceptTx, hr]
  obtain ⟨sent, k, hrunE, hk, hoks, hds⟩ := runExec_writeTransfers i hr oks rest
    (accept i (pack (targetFormat i) s.regs.opnd) s) rfl
    (running_of rfl rfl) (by simp [hlen]) hans
  have hk' : k = BitVec.ofNat 4 i.op.octets := by
    apply BitVec.eq_of_toNat_eq
    rw [hk, toNat_octets, hlen]; simp
  refine ⟨sent, k, hoks, ?_, hk', ?_⟩
  · rw [hds, hlen]; simp
  rw [show i.op.octets + 2 = (oks.length + 1) + 1 by omega, runExec_succ_of_next _ he,
    runExec_add _ 1 hrunE, runExec_succ_of_next 0 (exec_complete i _ rfl (running_of rfl rfl) hk')]
  simp

end Sys2Proof.Machine
end

