-- ==== Sys2Proof/Tests/Slice0.lean ====
section
/-! SUPPORT. The model's own tests: what the well-formedness checks refuse, the words of 30_encoding.md R55, single steps
whose expected values are rows of 95_test_vectors.md, and a witness for the hypotheses of every statement of
Certificates/Slice0/Obligations.lean. -/

namespace Sys2Proof.Tests

set_option Elab.async false

open Sys2Proof Sys2Proof.Machine

/-! ## Small states -/

/-- An octet of the source. -/
def oct (d : Byte) : Slot := { eos := false, d := d }

/-- A missing octet. -/
def gap : Slot := { eos := true, d := 0x5A#8 }

/-- int.buf with these slots. -/
def bufOf (a b c d e f g h : Slot) : Vector Slot 8 := #v[a, b, c, d, e, f, g, h]

/-- An int.buf of which only two or four slots count. -/
def buf4 (a b c d : Slot) : Vector Slot 8 := bufOf a b c d (oct 0#8) (oct 0#8) (oct 0#8) (oct 0#8)

/-- Octets the source has still to give. -/
def stock : List Slot :=
  [oct 0x40#8, oct 0x09#8, oct 0x21#8, oct 0xFB#8, gap, oct 0x44#8, oct 0x2D#8, oct 0x18#8, oct 0x01#8]

/-- CORE IDLE with OPND x, collaborators that answer, and this host program under this schedule. -/
def idle (x : Word) (prog : List HostInstr) (sched : List Turn) : State :=
  { State.reset with
    regs := { Regs.reset with opnd := x }
    source := { pending := stock, consumed := [] }
    sink := { answers := [true, false, true, true, true, true, true, true, true], sent := [] }
    host := { prog := prog, pc := 0, temps := Vector.replicate 8 5#64 }
    sched := sched }

/-- Command i in progress, just accepted from `idle`. -/
def begun (i : Instr) (x : Word) (prog : List HostInstr) (sched : List Turn) : State :=
  accept i (acceptTx i (idle x prog sched)) (idle x prog sched)

/-- Command i in progress with this int.buf, at slot k. -/
def atSlot (i : Instr) (x : Word) (k : BitVec 4) (buf : Vector Slot 8) (trunc werr : Bool) : State :=
  { begun i x [] [Turn.core] with
    int := { (begun i x [] [Turn.core]).int with k := k, buf := buf, trunc := trunc, werr := werr } }

/-- Command i in progress with this int.buf, about to complete. -/
def finishing (i : Instr) (x : Word) (buf : Vector Slot 8) (trunc werr : Bool) : State :=
  atSlot i x (BitVec.ofNat 4 i.op.octets) buf trunc werr

/-- RESULT, RAW and STATUS after one step of command i. -/
def outcome (i : Instr) (s : State) : Option (Word × Word × Word) :=
  (nextState (exec i s)).map fun t => (t.regs.result, t.regs.raw, t.regs.status)

/-- The octets sent, with the sink's answers, after one step of command i. -/
def sentAfter (i : Instr) (s : State) : Option (List Sent) :=
  (nextState (exec i s)).map fun t => t.sink.sent

/-- π in binary64. -/
def pi64 : Word := 0x400921FB54442D18#64

/-- The octets of π in binary64, BE. -/
def piBuf : Vector Slot 8 :=
  bufOf (oct 0x40#8) (oct 0x09#8) (oct 0x21#8) (oct 0xFB#8) (oct 0x54#8) (oct 0x44#8) (oct 0x2D#8) (oct 0x18#8)

/-- The octets of π in binary64, LE. -/
def piBufLe : Vector Slot 8 :=
  bufOf (oct 0x18#8) (oct 0x2D#8) (oct 0x44#8) (oct 0x54#8) (oct 0xFB#8) (oct 0x21#8) (oct 0x09#8) (oct 0x40#8)

/-! ## Well-formedness -/

/-- The illegal words of 30_encoding.md R57: OP 0b000 and 0b111 in both orders, and a set reserved bit. -/
theorem test_illegal_words_refused :
    ([0x0, 0x7, 0x8, 0xF, 0x11, 0x10000000000000004, 0x8000000000000004, 0xFFFFFFFFFFFFFFF1] : List Nat).map
      (fun w => if w < 2 ^ 64 then legalWord (BitVec.ofNat 64 w) else false) =
    [false, false, false, false, false, false, false, false] := by decide

theorem test_legal_words_accepted :
    ([0x1#64, 0x6#64, 0x9#64, 0xE#64] : List Word).all legalWord = true := by decide

/-- A narrow, a misaligned and an out-of-window access are refused, and the last slot is not (20_memory.md R46). -/
theorem test_bus_access_refused :
    BusAddr.wellFormed { offset := 0x10, bits := 32 } = false ∧
    BusAddr.wellFormed { offset := 0x0C, bits := 64 } = false ∧
    BusAddr.wellFormed { offset := 0x40, bits := 64 } = false ∧
    BusAddr.wellFormed { offset := 0x38, bits := 64 } = true := by decide

theorem test_host_wr_refused : HostInstr.wellFormed 1 (.wr { offset := 0x04, bits := 64 } 0#64) = false := by decide

theorem test_host_rd_refused : HostInstr.wellFormed 1 (.rd 0 { offset := 0x48, bits := 64 }) = false := by decide

theorem test_host_branch_refused :
    HostInstr.wellFormed 2 (.bnz 0 3) = false ∧ HostInstr.wellFormed 2 (.bnz 0 2) = true := by decide

theorem test_host_program_refused :
    hostProgramWellFormed [.wr BusAddr.cmd 1#64, .bnz 7 9] = false ∧
    hostProgramWellFormed (waitIdleAt 0) = true := by decide

/-- ENC of a read command, and a branch to a label the program lacks, do not assemble (30_encoding.md R60). -/
theorem test_assembler_refuses :
    assembleHost [.enc .readInt16Be 0#64] = none ∧ assembleHost [.label 1, .bnz 0 2] = none := by decide

/-- DO expands to the CMD write and WAITIDLE, whose branch goes back to its own first instruction. -/
theorem test_do_expands :
    assembleHost [.doCmd .decodeF32Le] =
      some [.wr { offset := 0, bits := 64 } 0xB#64, .rd 7 { offset := 0x20, bits := 64 }, .andi 7 7 1#64,
        .bnz 7 1] := by decide

theorem test_every_command_well_formed (i : Instr) : i.wellFormed = true := by cases i <;> rfl

/-! ## Decoding: every word written out from 30_encoding.md R55, RSVD then ORDER then OP -/

theorem test_decode_readInt16Be : decode (0#60 ++ 0b0#1 ++ 0b001#3) = .ok .readInt16Be := rfl
theorem test_decode_readInt16Le : decode (0#60 ++ 0b1#1 ++ 0b001#3) = .ok .readInt16Le := rfl
theorem test_decode_readInt32Be : decode (0#60 ++ 0b0#1 ++ 0b010#3) = .ok .readInt32Be := rfl
theorem test_decode_readInt32Le : decode (0#60 ++ 0b1#1 ++ 0b010#3) = .ok .readInt32Le := rfl
theorem test_decode_decodeF32Be : decode (0#60 ++ 0b0#1 ++ 0b011#3) = .ok .decodeF32Be := rfl
theorem test_decode_decodeF32Le : decode (0#60 ++ 0b1#1 ++ 0b011#3) = .ok .decodeF32Le := rfl
theorem test_decode_decodeF64Be : decode (0#60 ++ 0b0#1 ++ 0b100#3) = .ok .decodeF64Be := rfl
theorem test_decode_decodeF64Le : decode (0#60 ++ 0b1#1 ++ 0b100#3) = .ok .decodeF64Le := rfl
theorem test_decode_encodeF32Be : decode (0#60 ++ 0b0#1 ++ 0b101#3) = .ok .encodeF32Be := rfl
theorem test_decode_encodeF32Le : decode (0#60 ++ 0b1#1 ++ 0b101#3) = .ok .encodeF32Le := rfl
theorem test_decode_encodeF64Be : decode (0#60 ++ 0b0#1 ++ 0b110#3) = .ok .encodeF64Be := rfl
theorem test_decode_encodeF64Le : decode (0#60 ++ 0b1#1 ++ 0b110#3) = .ok .encodeF64Le := rfl

theorem test_decode_rejects :
    decode 0x0#64 = .error .reservedOp ∧ decode 0xF#64 = .error .reservedOp ∧
    decode 0x11#64 = .error .reservedBits ∧ decode 0x8000000000000004#64 = .error .reservedBits :=
  ⟨rfl, rfl, rfl, rfl⟩

theorem test_table_words :
    decodeTableWord 64 0xE = some .encodeF64Le ∧ decodeTableWord 64 0x7 = none := by decide

/-! ## Completions (95_test_vectors.md part 2) -/

/-- 12 -- : RESULT 11FF, RAW 12FF, STATUS 0x204. -/
theorem test_readInt16Be_missing_low :
    outcome .readInt16Be (finishing .readInt16Be 0#64 (buf4 (oct 0x12#8) gap gap gap) true false) =
      some (0x11FF#64, 0x12FF#64, 0x204#64) := by decide +kernel

/-- Source -- 05 : RESULT FFFFFFFFFFFEFF05, RAW FF05, STATUS 0x204. -/
theorem test_readInt16Be_missing_top :
    outcome .readInt16Be (finishing .readInt16Be 0#64 (buf4 gap (oct 0x05#8) gap gap) true false) =
      some (0xFFFFFFFFFFFEFF05#64, 0xFF05#64, 0x204#64) := by decide +kernel

/-- 00 80 : RESULT FFFFFFFFFFFF8000, RAW 8000, STATUS 0x200. -/
theorem test_readInt16Le_smallest :
    outcome .readInt16Le (finishing .readInt16Le 0#64 (buf4 (oct 0#8) (oct 0x80#8) gap gap) false false) =
      some (0xFFFFFFFFFFFF8000#64, 0x8000#64, 0x200#64) := by decide +kernel

/-- 34 -- : RESULT FFFFFFFFFFFEFF34, RAW FF34, STATUS 0x204. -/
theorem test_readInt16Le_missing_top :
    outcome .readInt16Le (finishing .readInt16Le 0#64 (buf4 (oct 0x34#8) gap gap gap) true false) =
      some (0xFFFFFFFFFFFEFF34#64, 0xFF34#64, 0x204#64) := by decide +kernel

/-- 80 00 00 00 : RESULT FFFFFFFF80000000, RAW 80000000, STATUS 0x400. -/
theorem test_readInt32Be_smallest :
    outcome .readInt32Be (finishing .readInt32Be 0#64 (buf4 (oct 0x80#8) (oct 0#8) (oct 0#8) (oct 0#8)) false false) =
      some (0xFFFFFFFF80000000#64, 0x80000000#64, 0x400#64) := by decide +kernel

/-- Source -- -- -- -- : RESULT FFFFFFFEFEFEFEFF, RAW FFFFFFFF, STATUS 0x404. -/
theorem test_readInt32Be_all_missing :
    outcome .readInt32Be (finishing .readInt32Be 0#64 (buf4 gap gap gap gap) true false) =
      some (0xFFFFFFFEFEFEFEFF#64, 0xFFFFFFFF#64, 0x404#64) := by decide +kernel

/-- 78 56 34 12 : RESULT 12345678, RAW 12345678, STATUS 0x400. -/
theorem test_readInt32Le_order :
    outcome .readInt32Le
        (finishing .readInt32Le 0#64 (buf4 (oct 0x78#8) (oct 0x56#8) (oct 0x34#8) (oct 0x12#8)) false false) =
      some (0x12345678#64, 0x12345678#64, 0x400#64) := by decide +kernel

/-- 01 02 03 -- : RESULT FFFFFFFEFF030201, RAW FF030201, STATUS 0x404. -/
theorem test_readInt32Le_missing_top :
    outcome .readInt32Le (finishing .readInt32Le 0#64 (buf4 (oct 0x01#8) (oct 0x02#8) (oct 0x03#8) gap) true false) =
      some (0xFFFFFFFEFF030201#64, 0xFF030201#64, 0x404#64) := by decide +kernel

/-- FF C0 00 00 : RESULT 7FC00000, RAW FFC00000, STATUS 0x450. -/
theorem test_decodeF32Be_nan :
    outcome .decodeF32Be (finishing .decodeF32Be 0#64 (buf4 (oct 0xFF#8) (oct 0xC0#8) (oct 0#8) (oct 0#8)) false false) =
      some (0x7FC00000#64, 0xFFC00000#64, 0x450#64) := by decide +kernel

/-- 3F 80 -- -- : RESULT and RAW 3F80FFFF, STATUS 0x434. -/
theorem test_decodeF32Be_truncated :
    outcome .decodeF32Be (finishing .decodeF32Be 0#64 (buf4 (oct 0x3F#8) (oct 0x80#8) gap gap) true false) =
      some (0x3F80FFFF#64, 0x3F80FFFF#64, 0x434#64) := by decide +kernel

/-- DB 0F 49 40 : RESULT and RAW 40490FDB, STATUS 0x430. -/
theorem test_decodeF32Le_pi :
    outcome .decodeF32Le
        (finishing .decodeF32Le 0#64 (buf4 (oct 0xDB#8) (oct 0x0F#8) (oct 0x49#8) (oct 0x40#8)) false false) =
      some (0x40490FDB#64, 0x40490FDB#64, 0x430#64) := by decide +kernel

/-- 80 00 00 00 00 00 00 00 : RESULT 0, RAW 8000000000000000, STATUS 0x810. -/
theorem test_decodeF64Be_negative_zero :
    outcome .decodeF64Be (finishing .decodeF64Be 0#64
        (bufOf (oct 0x80#8) (oct 0#8) (oct 0#8) (oct 0#8) (oct 0#8) (oct 0#8) (oct 0#8) (oct 0#8)) false false) =
      some (0x0#64, 0x8000000000000000#64, 0x810#64) := by decide +kernel

/-- 80 0F FF FF FF FF FF FF : kept, STATUS 0x820. -/
theorem test_decodeF64Be_subnormal :
    outcome .decodeF64Be (finishing .decodeF64Be 0#64 (bufOf (oct 0x80#8) (oct 0x0F#8) (oct 0xFF#8) (oct 0xFF#8)
        (oct 0xFF#8) (oct 0xFF#8) (oct 0xFF#8) (oct 0xFF#8)) false false) =
      some (0x800FFFFFFFFFFFFF#64, 0x800FFFFFFFFFFFFF#64, 0x820#64) := by decide +kernel

/-- 18 2D 44 54 FB 21 09 40 : row S6, RESULT and RAW 400921FB54442D18, STATUS 0x830. -/
theorem test_decodeF64Le_pi :
    outcome .decodeF64Le (finishing .decodeF64Le 0#64 piBufLe false false) = some (pi64, pi64, 0x830#64) := by
  decide +kernel

/-- 0.1 : RESULT and RAW 3DCCCCCD, and with a failed write STATUS 0x438. -/
theorem test_encodeF32Be_write_failure :
    outcome .encodeF32Be (finishing .encodeF32Be 0x3FB999999999999A#64 piBuf false true) =
      some (0x3DCCCCCD#64, 0x3DCCCCCD#64, 0x438#64) := by decide +kernel

/-- 2 - 2^-25 : the first octet sent of 40 00 00 00. -/
theorem test_encodeF32Be_first_octet :
    sentAfter .encodeF32Be (atSlot .encodeF32Be 0x3FFFFFFFF8000000#64 0#4 piBuf false false) =
      some [{ d := 0x40#8, ok := true }] := by decide +kernel

/-- 0.1 : the first octet sent of CD CC CC 3D. -/
theorem test_encodeF32Le_first_octet :
    sentAfter .encodeF32Le (atSlot .encodeF32Le 0x3FB999999999999A#64 0#4 piBuf false false) =
      some [{ d := 0xCD#8, ok := true }] := by decide +kernel

/-- 1.5 · 2^-149, a tie: RESULT and RAW 00000002, STATUS 0x420. -/
theorem test_encodeF32Le_subnormal_tie :
    outcome .encodeF32Le (finishing .encodeF32Le 0x36A8000000000000#64 piBuf false false) =
      some (0x2#64, 0x2#64, 0x420#64) := by decide +kernel

/-- A signalling NaN: RESULT and RAW 7FF8000000000000, STATUS 0x850. -/
theorem test_encodeF64Be_nan :
    outcome .encodeF64Be (finishing .encodeF64Be 0x7FF0000000000001#64 piBuf false false) =
      some (0x7FF8000000000000#64, 0x7FF8000000000000#64, 0x850#64) := by decide +kernel

/-- 3F F0 00 ... : octet 1 of 1.0 is F0. -/
theorem test_encodeF64Be_second_octet :
    sentAfter .encodeF64Be (atSlot .encodeF64Be 0x3FF0000000000000#64 1#4 piBuf false false) =
      some [{ d := 0xF0#8, ok := true }] := by decide +kernel

/-- π with every write failed: RESULT and RAW 400921FB54442D18, STATUS 0x838. -/
theorem test_encodeF64Le_write_failure :
    outcome .encodeF64Le (finishing .encodeF64Le pi64 piBuf false true) = some (pi64, pi64, 0x838#64) := by
  decide +kernel

/-- Octet 7 of π, LE, is 40. -/
theorem test_encodeF64Le_last_octet :
    sentAfter .encodeF64Le (atSlot .encodeF64Le pi64 7#4 piBuf false false) =
      some [{ d := 0x40#8, ok := true }] := by decide +kernel

/-- reset, WR CMD, 0x7: CMD 7, STATUS 0x002 (95_test_vectors.md 2.4). -/
theorem test_illegal_command :
    (nextState (step (idle 0#64 [.wr BusAddr.cmd 0x7#64] [.host]))).map
      (fun t => (t.regs.cmd, t.regs.status, t.int.phase)) = some (0x7#64, 0x2#64, .idle) := by decide +kernel

/-- A command word placed on the reset state runs as the next step. -/
theorem test_fetched_word :
    (nextState (step (State.reset.withFetchWord 64 0xE))).map
      (fun t => (t.regs.cmd, t.int.phase, t.int.op, t.int.order, t.int.n)) =
    some (0xE#64, .xfer, 0b110#3, .le, 8#4) := by decide +kernel

/-! ## The invariants at concrete states -/

/-- A state with a command in progress and STATUS = 1 meets the invariant of the registers and the internal state. -/
theorem inv_of_busy (i : Instr) (s : State) (hs : s.regs.status = 1#64) (hp : s.int.phase = .xfer)
    (ho : s.int.op = i.op.code) (hd : s.int.order = i.order) (hn : s.int.n = BitVec.ofNat 4 i.op.octets)
    (hk : s.int.k.toNat ≤ i.op.octets) (hc : s.regs.cmd = encode i) (hw : i.op.isRead = true → s.int.werr = false)
    (ht : i.op.isRead = false → s.int.trunc = false) (hx : s.int.tx = acceptTx i s) : Inv s where
  busy := by rw [hs, hp]; rfl
  reserved := by rw [hs]; decide
  classLegal := by rw [hs]; decide
  noctLegal := by rw [hs]; decide
  oneError := by rw [hs]; decide
  inProgress := fun _ => ⟨i, ho, hd, by rw [hn, toNat_octets], by rw [hn, toNat_octets]; exact hk, hc, hw, ht,
    fun h => by rw [hx]; simp [acceptTx, targetFormat, h, Op.isRead],
    fun h => by rw [hx]; simp [acceptTx, targetFormat, h, Op.isRead]⟩

/-- A state with CORE IDLE and STATUS = 0 meets it. -/
theorem inv_of_reset_status (s : State) (hs : s.regs.status = 0#64) (hp : s.int.phase = .idle) : Inv s where
  busy := by rw [hs, hp]; rfl
  reserved := by rw [hs]; decide
  classLegal := by rw [hs]; decide
  noctLegal := by rw [hs]; decide
  oneError := by rw [hs]; decide
  inProgress := fun h => by rw [hp] at h; cases h

theorem setBusy_reset : setBusy true 0#64 = 1#64 := by decide

theorem inv_atSlot (i : Instr) (x : Word) (k : BitVec 4) (buf : Vector Slot 8) (trunc werr : Bool)
    (hk : k.toNat ≤ i.op.octets) (hr : i.op.isRead = true → werr = false)
    (he : i.op.isRead = false → trunc = false) : Inv (atSlot i x k buf trunc werr) :=
  inv_of_busy i _ setBusy_reset rfl rfl rfl rfl hk rfl hr he (by cases i <;> rfl)

theorem inv_idle (x : Word) (prog : List HostInstr) (sched : List Turn) : Inv (idle x prog sched) :=
  inv_of_reset_status _ rfl rfl

theorem inv_begun (i : Instr) (x : Word) (prog : List HostInstr) (sched : List Turn) :
    Inv (begun i x prog sched) :=
  inv_of_busy i _ setBusy_reset rfl rfl rfl rfl (Nat.zero_le _) rfl (fun _ => rfl) (fun _ => rfl) (by cases i <;> rfl)

/-- The octet sequences of a command just accepted. -/
theorem traceInv_begun (i : Instr) (x : Word) (prog : List HostInstr) (sched : List Turn) :
    TraceInv (begun i x prog sched) where
  read := fun _ _ _ _ => ⟨Nat.zero_le _, rfl, rfl⟩
  sent := fun _ _ _ _ => ⟨Nat.zero_le _, rfl, rfl⟩

/-- The registers while a command is in progress. -/
theorem statusInv_begun (i : Instr) (x : Word) (prog : List HostInstr) (sched : List Turn) :
    StatusInv (begun i x prog sched) where
  illegal := fun h => by cases h
  last := fun h => by cases h

/-! ## Witnesses: the step -/

theorem witness_IllegalWordIsRecorded :
    nextTurn (idle 0#64 [.wr BusAddr.cmd 0x7#64] [.host]) = .host ∧
    (idle 0#64 [.wr BusAddr.cmd 0x7#64] [.host]).int.phase = .idle ∧
    (idle 0#64 [.wr BusAddr.cmd 0x7#64] [.host]).host.prog[0]? = some (.wr BusAddr.cmd 0x7#64) ∧
    legalWord 0x7#64 = false ∧ legalWord 0x10#64 = false := ⟨rfl, rfl, rfl, by decide, by decide⟩

theorem witness_StepRunsTheDecodedCommand :
    (nextTurn (idle 0#64 [.wr BusAddr.cmd 0xE#64] []) = .host ∧
      (idle 0#64 [.wr BusAddr.cmd 0xE#64] []).int.phase = .idle ∧
      (idle 0#64 [.wr BusAddr.cmd 0xE#64] []).host.prog[0]? = some (.wr BusAddr.cmd 0xE#64) ∧
      decode 0xE#64 = .ok .encodeF64Le) ∧
    (nextTurn (begun .decodeF32Le 0#64 [] [.core]) = .core ∧ (begun .decodeF32Le 0#64 [] [.core]).int.phase = .xfer ∧
      (begun .decodeF32Le 0#64 [] [.core]).int.op = Instr.decodeF32Le.op.code ∧
      (begun .decodeF32Le 0#64 [] [.core]).int.order = Instr.decodeF32Le.order) :=
  ⟨⟨rfl, rfl, rfl, rfl⟩, rfl, rfl, rfl, rfl⟩

theorem witness_LegalCommandIsAccepted : (idle pi64 [] []).int.phase = .idle ∧
    Instr.encodeF32Be.op = .encodeF32 ∧ Instr.encodeF64Le.op = .encodeF64 ∧ Instr.readInt16Be.op.isRead = true :=
  ⟨rfl, rfl, rfl, rfl⟩

/-- The first slot of two, and the last of eight. -/
theorem witness_ReadTransferStep : ∀ p ∈ ([(.readInt16Be, 0#4), (.decodeF64Le, 7#4)] : List (Instr × BitVec 4)),
    let s := atSlot p.1 0#64 p.2 piBuf false false
    p.1.op.isRead = true ∧ s.int.phase = .xfer ∧ s.int.op = p.1.op.code ∧ s.int.order = p.1.order ∧
      s.int.k.toNat < s.int.n.toNat ∧ s.int.n.toNat ≤ 8 ∧ s.source.pending = oct 0x40#8 :: stock.tail := by
  decide +kernel

theorem witness_WriteTransferStep : ∀ p ∈ ([(.encodeF32Le, 0#4), (.encodeF64Be, 7#4)] : List (Instr × BitVec 4)),
    let s := atSlot p.1 pi64 p.2 piBuf false false
    p.1.op.isRead = false ∧ s.int.phase = .xfer ∧ s.int.op = p.1.op.code ∧ s.int.order = p.1.order ∧
      s.int.k.toNat < s.int.n.toNat ∧ s.sink.answers = true :: s.sink.answers.tail := by
  decide +kernel

/-- A read and an encode command whose collaborator is silent, while the host polls STATUS. -/
def silent (i : Instr) : State :=
  { begun i pi64 (waitIdleAt 0) [.core, .host] with
    source := { pending := [], consumed := [] }, sink := { answers := [], sent := [] } }

theorem inv_silent (i : Instr) : Inv (silent i) :=
  inv_of_busy i _ setBusy_reset rfl rfl rfl rfl (Nat.zero_le _) rfl (fun _ => rfl) (fun _ => rfl) 
    (by cases h : i.op.isRead <;> simp [silent, begun, idle, acceptTx, h])

theorem witness_SilentCollaboratorKeepsCoreWaiting :
    (∀ i, Inv (silent i)) ∧ ∀ i ∈ [Instr.readInt32Le, Instr.encodeF64Be],
      (silent i).int.phase = .xfer ∧ running i (silent i) = true ∧ (silent i).int.k.toNat < (silent i).int.n.toNat ∧
      (silent i).source.pending = [] ∧ (silent i).sink.answers = [] ∧ Turn.reset ∉ (silent i).sched ∧
      (nextState (runSteps 4 (silent i))).isSome = true := by
  exact ⟨inv_silent, by decide +kernel⟩

/-- Every command has a state in which it completes (the three completion statements). -/
theorem witness_Completion (i : Instr) : Completing i (finishing i pi64 piBuf false false) :=
  ⟨rfl, rfl, rfl, toNat_octets i.op, rfl⟩

theorem witness_OtherCommandIsTurnedAway :
    (begun .readInt16Be 0#64 [] []).int.phase = .xfer ∧
    ¬((begun .readInt16Be 0#64 [] []).int.op = Instr.readInt16Le.op.code ∧
      (begun .readInt16Be 0#64 [] []).int.order = Instr.readInt16Le.order) := by decide +kernel

/-! ## Witnesses: whole commands -/

/-- The four read-command statements. -/
theorem witness_ReadCommands : (idle 0#64 [] []).int.phase = .idle ∧
    (idle 0#64 [] []).source.pending = oct 0x40#8 :: oct 0x09#8 :: stock.drop 2 ∧
    (idle 0#64 [] []).source.pending = oct 0x40#8 :: oct 0x09#8 :: oct 0x21#8 :: oct 0xFB#8 :: stock.drop 4 ∧
    (idle 0#64 [] []).source.pending = oct 0x40#8 :: oct 0x09#8 :: oct 0x21#8 :: oct 0xFB#8 :: gap ::
      oct 0x44#8 :: oct 0x2D#8 :: oct 0x18#8 :: stock.drop 8 := ⟨rfl, rfl, rfl, rfl⟩

/-- The two encode-command statements. -/
theorem witness_EncodeCommands : (idle pi64 [] []).int.phase = .idle ∧
    (idle pi64 [] []).sink.answers = true :: false :: true :: true :: [true, true, true, true, true] ∧
    (idle pi64 [] []).sink.answers = true :: false :: true :: true :: true :: true :: true :: true :: [true] ∧
    classOf .binary64 0x7FF0000000000001#64 = .nan := ⟨rfl, rfl, rfl, by decide⟩

theorem witness_CommandMakesExactlyNTransfers (i : Instr) : (idle pi64 [] []).int.phase = .idle ∧
    i.op.octets ≤ (idle pi64 [] []).source.pending.length ∧ i.op.octets ≤ (idle pi64 [] []).sink.answers.length := by
  cases i <;> decide

/-- A read and an encode command, with host instructions between CORE's steps. -/
theorem witness_EveryInterleavingGivesTheSameResult :
    (∀ i, Inv (begun i pi64 (waitIdleAt 0) [.core, .host, .core, .host, .core, .core, .core, .core])) ∧
    ∀ p ∈ ([(.readInt16Le, [.core, .host, .core, .host, .core]),
        (.encodeF32Be, [.core, .host, .core, .host, .core, .core, .core])] : List (Instr × List Turn)),
      let s := begun p.1 pi64 (waitIdleAt 0) [.core, .host, .core, .host, .core, .core, .core, .core]
      s.int.phase = .xfer ∧ running p.1 s = true ∧ hostProgramWellFormed s.host.prog = true ∧
        s.int.n.toNat - s.int.k.toNat ≤ s.source.pending.length ∧
        s.int.n.toNat - s.int.k.toNat ≤ s.sink.answers.length ∧
        s.sched = p.2 ++ s.sched.drop p.2.length ∧ Turn.reset ∉ p.2 ∧
        p.2.count .core = s.int.n.toNat - s.int.k.toNat + 1 ∧ p.2.getLast? = some .core :=
  ⟨fun i => inv_begun i _ _ _, by decide +kernel⟩

/-- Two states that differ in what a command does not read. -/
theorem witness_CommandDependsOnlyOnItsInputs (i : Instr) :
    Inv (idle pi64 [] []) ∧ Inv (idle pi64 (waitIdleAt 0) [.core]) ∧
    (idle pi64 [] []).int.phase = .idle ∧ (idle pi64 (waitIdleAt 0) [.core]).int.phase = .idle ∧
    (idle pi64 [] []).regs.opnd = (idle pi64 (waitIdleAt 0) [.core]).regs.opnd ∧
    i.op.octets ≤ (idle pi64 [] []).source.pending.length ∧ i.op.octets ≤ (idle pi64 [] []).sink.answers.length ∧
    (idle pi64 [] []).source.pending.take i.op.octets =
      (idle pi64 (waitIdleAt 0) [.core]).source.pending.take i.op.octets ∧
    (idle pi64 [] []).sink.answers.take i.op.octets =
      (idle pi64 (waitIdleAt 0) [.core]).sink.answers.take i.op.octets :=
  ⟨inv_idle _ _ _, inv_idle _ _ _, rfl, rfl, rfl, by cases i <;> decide, by cases i <;> decide, rfl, rfl⟩

/-- CORE IDLE with these octets to come. -/
def fedWith (octets : List Slot) : State :=
  { idle 0#64 [] [] with source := { pending := octets, consumed := [] } }

theorem inv_fedWith (octets : List Slot) : Inv (fedWith octets) := inv_of_reset_status _ rfl rfl

theorem witness_ByteOrderIsAPermutation :
    (∀ k, k < 8 → slotAt piBufLe k = slotAt piBuf (8 - 1 - k)) ∧
    (∀ octets, Inv (fedWith octets)) ∧ (fedWith stock).int.phase = .idle ∧
    (stock.take 4).length = Op.decodeF32.octets ∧ Op.decodeF32.isRead = true ∧
    (fedWith stock).source.pending = stock.take 4 ++ stock.drop 4 ∧
    (fedWith ((stock.take 4).reverse ++ [gap])).source.pending = (stock.take 4).reverse ++ [gap] :=
  ⟨by decide, inv_fedWith, rfl, rfl, rfl, rfl, rfl⟩

/-- The last octet of a full buffer. -/
theorem witness_SendUndoesAssemble : (8 ≤ 8 ∧ 7 < 8) ∧
    sendOctet .be 8 7 (assemble 0xFF#8 .be 8 piBuf) = 0x18#8 := by decide +kernel

/-! ## Witnesses: the integer and float functions -/

theorem witness_TopOctetContribution : (0x7F#8).toNat ≤ 0x7F ∧ 0x80 ≤ (0x80#8).toNat := by decide

theorem witness_CompleteIntegerIsTheSignExtension : ∀ k, k < 4 → (slotAt piBuf k).eos = false := by decide

theorem witness_TruncatedIntegerRange :
    (∀ k, k < 2 → (slotAt (buf4 gap gap gap gap) k).eos = true) ∧
    ∀ k, k < 4 → (slotAt (buf4 gap gap gap gap) k).eos = true := by decide

/-- The five cases at their bounds, in both formats. -/
theorem witness_DecoderCases :
    (expField .binary32 0x80000000#64 = 0 ∧ fracField .binary32 0x80000000#64 = 0) ∧
    (expField .binary32 0x7F800001#64 = 2 ^ 8 - 1 ∧ fracField .binary32 0x7F800001#64 ≠ 0) ∧
    (expField .binary32 0xFF800000#64 = 2 ^ 8 - 1 ∧ fracField .binary32 0xFF800000#64 = 0) ∧
    (1 ≤ expField .binary32 0x00800000#64 ∧ expField .binary32 0x00800000#64 ≠ 2 ^ 8 - 1) ∧
    (expField .binary32 0x807FFFFF#64 = 0 ∧ fracField .binary32 0x807FFFFF#64 ≠ 0) ∧
    (1 ≤ expField .binary64 0x7FEFFFFFFFFFFFFF#64 ∧ expField .binary64 0x7FEFFFFFFFFFFFFF#64 ≠ 2 ^ 11 - 1) ∧
    (pi64.toNat < 2 ^ Format.binary64.width ∧ classOf .binary64 pi64 ≠ .zero ∧ classOf .binary64 pi64 ≠ .nan) := by
  decide

theorem witness_EveryNanDecodesToOnePattern :
    classOf .binary32 0xFFC00000#64 = .nan ∧ classOf .binary64 0x7FF0000000000001#64 = .nan ∧
    expField .binary32 0xFFFFFFFF#64 = 2 ^ 8 - 1 ∧ fracField .binary32 0xFFFFFFFF#64 ≠ 0 := by decide

theorem witness_SubnormalLoopIsTheClosedForm :
    (fracField .binary32 0x1#64 ≠ 0 ∧ expField .binary32 0x1#64 = 0) ∧
    (fracField .binary64 0x800FFFFFFFFFFFFF#64 ≠ 0 ∧ expField .binary64 0x800FFFFFFFFFFFFF#64 = 0) := by decide

/-- Zero, both infinities, the first operand above MAX_32 and the first below -MAX_32, and a NaN. -/
theorem witness_EncoderSpecialCases :
    classOf .binary64 0x8000000000000000#64 = .zero ∧
    floatValue .binary64 0x7FF0000000000000#64 = .inf false ∧
    (isFinite .binary64 0x47EFFFFFE0000001#64 ∧ maxValue .binary32 < finiteValue .binary64 0x47EFFFFFE0000001#64) ∧
    floatValue .binary64 0xFFF0000000000000#64 = .inf true ∧
    (isFinite .binary64 0xC7EFFFFFE0000001#64 ∧ finiteValue .binary64 0xC7EFFFFFE0000001#64 < -maxValue .binary32) ∧
    classOf .binary64 0xFFF8000000000000#64 = .nan := by
  refine ⟨by decide, by decide +kernel, ⟨?_, by decide +kernel⟩, by decide +kernel, ⟨?_, by decide +kernel⟩,
    by decide⟩ <;> (unfold isFinite; decide)

theorem witness_NormalizationReachesTheExponent :
    isFinite .binary64 0x1#64 ∧ classOf .binary64 0x1#64 ≠ .zero ∧
    isFinite .binary64 0xFFEFFFFFFFFFFFFF#64 ∧ classOf .binary64 0xFFEFFFFFFFFFFFFF#64 ≠ .zero := by
  unfold isFinite; decide

/-- The first value below 2^-126 with e = -127, and 2^-126 with e = -126. -/
theorem witness_PackRoundsTheExactFraction :
    (isFinite .binary64 0x380FFFFFFFFFFFFF#64 ∧ classOf .binary64 0x380FFFFFFFFFFFFF#64 ≠ .zero ∧
      |finiteValue .binary64 0x380FFFFFFFFFFFFF#64| ≤ maxValue .binary32 ∧
      (2 : ℚ) ^ (-127 : ℤ) ≤ |finiteValue .binary64 0x380FFFFFFFFFFFFF#64| ∧
      |finiteValue .binary64 0x380FFFFFFFFFFFFF#64| < (2 : ℚ) ^ (-127 + 1 : ℤ) ∧
      -127 < Format.binary32.emin) ∧
    (isFinite .binary64 0x3810000000000000#64 ∧ classOf .binary64 0x3810000000000000#64 ≠ .zero ∧
      |finiteValue .binary64 0x3810000000000000#64| ≤ maxValue .binary32 ∧
      (2 : ℚ) ^ (-126 : ℤ) ≤ |finiteValue .binary64 0x3810000000000000#64| ∧
      |finiteValue .binary64 0x3810000000000000#64| < (2 : ℚ) ^ (-126 + 1 : ℤ) ∧
      Format.binary32.emin ≤ -126) := by
  unfold isFinite; decide +kernel

/-- MAX_32, the smallest subnormal and 1.0. -/
theorem witness_PackingNeverOverflows :
    (isFinite .binary64 0x47EFFFFFE0000000#64 ∧
      |finiteValue .binary64 0x47EFFFFFE0000000#64| ≤ maxValue .binary32 ∧
      (2 : ℚ) ^ Format.binary32.emax ≤ |finiteValue .binary64 0x47EFFFFFE0000000#64|) ∧
    (isFinite .binary64 0x1#64 ∧ (2 : ℚ) ^ (-1074 : ℤ) ≤ |finiteValue .binary64 0x1#64| ∧
      |finiteValue .binary64 0x1#64| < (2 : ℚ) ^ (-1074 + 1 : ℤ) ∧ -1074 < Format.binary64.emin) ∧
    (isFinite .binary64 0x3FF0000000000000#64 ∧ (2 : ℚ) ^ (0 : ℤ) ≤ |finiteValue .binary64 0x3FF0000000000000#64| ∧
      |finiteValue .binary64 0x3FF0000000000000#64| < (2 : ℚ) ^ (0 + 1 : ℤ) ∧ Format.binary64.emin ≤ 0) ∧
    ∀ q d, 0 < d → roundNearestEven (q * d) d = q :=
  ⟨by unfold isFinite; decide +kernel, by unfold isFinite; decide +kernel, by unfold isFinite; decide +kernel,
    roundNearestEven_mul⟩

theorem witness_Pack64IsTheIdentity :
    0x0#64 ≠ 0x8000000000000000#64 ∧ classOf .binary64 0x0#64 ≠ .nan ∧
    classOf .binary64 0x7FF0000000000001#64 = .nan := by decide

/-- MAX_32 and the first value above it; 2^-150; a NaN; a binary32 value widened. -/
theorem witness_Pack32IsTheNearestValue :
    (isFinite .binary64 0x47EFFFFFE0000000#64 ∧
      |finiteValue .binary64 0x47EFFFFFE0000000#64| ≤ maxValue .binary32) ∧
    (isFinite .binary32 0x7F7FFFFF#64 ∧ (0x7F7FFFFF#64).toNat < 2 ^ 32) ∧
    (isFinite .binary64 0xC7EFFFFFE0000001#64 ∧
      maxValue .binary32 < |finiteValue .binary64 0xC7EFFFFFE0000001#64|) ∧
    (isFinite .binary64 0x3690000000000000#64 ∧ |finiteValue .binary64 0x3690000000000000#64| ≤ 1 / 2 ^ 150) ∧
    classOf .binary64 0xFFFFFFFFFFFFFFFF#64 = .nan ∧
    ((0x00000001#64).toNat < 2 ^ 32 ∧ classOf .binary32 0x00000001#64 ≠ .zero ∧
      classOf .binary32 0x00000001#64 ≠ .nan ∧
      floatValue .binary64 0x36A0000000000000#64 = floatValue .binary32 0x00000001#64) := by
  unfold isFinite; decide +kernel

/-- A number, a zero and a NaN, in both formats. -/
theorem witness_EncodeThenDecodeRoundTrip :
    (∀ x ∈ ([pi64, 0x8000000000000000#64, 0x7FF0000000000001#64] : List Word),
      (idle x [] []).int.phase = .idle ∧ 8 ≤ (idle x [] []).sink.answers.length ∧
      (∃ t, runExec (Instr.ofParts .encodeF64 .le) 10 (idle x [] []) = .next t) ∧
      ∃ t, runExec (Instr.ofParts .encodeF32 .be) 6 (idle x [] []) = .next t) ∧
    classOf .binary64 pi64 = .normal ∧ classOf .binary64 0x8000000000000000#64 = .zero ∧
    classOf .binary64 0x7FF0000000000001#64 = .nan := by
  refine ⟨?_, by decide, by decide, by decide⟩
  intro x _
  exact ⟨rfl, Nat.le_succ 8, ⟨_, rfl⟩, ⟨_, rfl⟩⟩

/-! ## Witnesses: the invariants and the whole machine -/

/-- The three invariant statements. -/
theorem witness_StepKeepsInvariants :
    Inv (begun .encodeF32Le pi64 [] [.core]) ∧ TraceInv (begun .encodeF32Le pi64 [] [.core]) ∧
    StatusInv (begun .encodeF32Le pi64 [] [.core]) ∧ ∃ t, step (begun .encodeF32Le pi64 [] [.core]) = .next t :=
  ⟨inv_begun _ _ _ _, traceInv_begun _ _ _ _, statusInv_begun _ _ _ _, _, rfl⟩

/-- A state that meets the invariant and whose step is refused, and one whose step is not. -/
theorem witness_NoStepFaults : Inv (idle 0#64 [.rd 3 { offset := 0x40, bits := 64 }] [.host]) ∧
    step (idle 0#64 [.rd 3 { offset := 0x40, bits := 64 }] [.host]) = .refused .busBadAccess ∧
    Inv (begun .encodeF32Le pi64 [] [.core]) := ⟨inv_idle _ _ _, rfl, inv_begun _ _ _ _⟩

theorem witness_ResultsChangeOnlyAtCompletion :
    (nextState (step (finishing .readInt16Be 0#64 piBuf false false))).map (fun t => t.regs.result) =
      some 0x4009#64 ∧ (finishing .readInt16Be 0#64 piBuf false false).regs.result = 0#64 := by decide +kernel

/-- BUSY goes from 0 to 1 at an acceptance and from 1 to 0 at a completion and at a reset. -/
theorem witness_BusyFollowsThePhase_changes :
    Inv (idle 0#64 [.wr BusAddr.cmd 0x1#64] [.host]) ∧ Inv (finishing .readInt16Be 0#64 piBuf false false) ∧
    Inv (begun .readInt16Be 0#64 [] [.reset]) ∧
    busyOf (idle 0#64 [.wr BusAddr.cmd 0x1#64] [.host]).regs.status = false ∧
    (nextState (step (idle 0#64 [.wr BusAddr.cmd 0x1#64] [.host]))).map (fun t => busyOf t.regs.status) =
      some true ∧
    busyOf (finishing .readInt16Be 0#64 piBuf false false).regs.status = true ∧
    (nextState (step (finishing .readInt16Be 0#64 piBuf false false))).map (fun t => busyOf t.regs.status) =
      some false ∧
    busyOf (begun .readInt16Be 0#64 [] [.reset]).regs.status = true ∧
    (nextState (step (begun .readInt16Be 0#64 [] [.reset]))).map (fun t => busyOf t.regs.status) = some false :=
  ⟨inv_idle _ _ _, inv_atSlot _ _ _ _ _ _ (by decide) (fun _ => rfl) (fun _ => rfl), inv_begun _ _ _ _,
    by decide +kernel, by decide +kernel, by decide +kernel, by decide +kernel, by decide +kernel, by decide +kernel⟩

/-- A legal and an illegal word written while IDLE, and CORE's turn when the last transfer is done, for a read and an
encode command. -/
theorem witness_BusyFollowsThePhase :
    (∀ v : Word, nextTurn (idle pi64 [.wr BusAddr.cmd v] [.host]) = .host ∧
      (idle pi64 [.wr BusAddr.cmd v] [.host]).int.phase = .idle ∧
      (idle pi64 [.wr BusAddr.cmd v] [.host]).host.prog[0]? = some (.wr BusAddr.cmd v)) ∧
    (∀ v, Inv (idle pi64 [.wr BusAddr.cmd v] [.host])) ∧
    decode 0xE#64 = .ok .encodeF64Le ∧ decode 0xF#64 = .error .reservedOp ∧
    ∀ i, Inv (finishing i pi64 piBuf false false) ∧ nextTurn (finishing i pi64 piBuf false false) = .core ∧
      (finishing i pi64 piBuf false false).int.phase = .xfer ∧
      (finishing i pi64 piBuf false false).int.k = (finishing i pi64 piBuf false false).int.n :=
  ⟨fun _ => ⟨rfl, rfl, rfl⟩, fun _ => inv_idle _ _ _, rfl, rfl, fun i =>
    ⟨inv_atSlot i pi64 (BitVec.ofNat 4 i.op.octets) piBuf false false (toNat_octets i.op).le (fun _ => rfl)
      (fun _ => rfl), rfl, rfl, rfl⟩⟩

/-- A CMD write when IDLE and in XFER. -/
theorem witness_CmdWriteAcceptedOrIgnored :
    (nextTurn (idle 0#64 [.wr BusAddr.cmd 0xA#64] [.host]) = .host ∧
      (idle 0#64 [.wr BusAddr.cmd 0xA#64] [.host]).host.prog[0]? = some (.wr BusAddr.cmd 0xA#64) ∧
      (idle 0#64 [.wr BusAddr.cmd 0xA#64] [.host]).int.phase = .idle ∧ decode 0xA#64 = .ok .readInt32Le) ∧
    (nextTurn (begun .readInt16Be 0#64 [.wr BusAddr.cmd 0xA#64] [.host]) = .host ∧
      (begun .readInt16Be 0#64 [.wr BusAddr.cmd 0xA#64] [.host]).host.prog[0]? = some (.wr BusAddr.cmd 0xA#64) ∧
      (begun .readInt16Be 0#64 [.wr BusAddr.cmd 0xA#64] [.host]).int.phase = .xfer) :=
  ⟨⟨rfl, rfl, rfl, rfl⟩, rfl, rfl, rfl⟩

/-- An OPND write when IDLE and in XFER. -/
theorem witness_OpndWriteStoredOrIgnored :
    (nextTurn (idle 0#64 [.wr BusAddr.opnd 9#64] [.host]) = .host ∧
      (idle 0#64 [.wr BusAddr.opnd 9#64] [.host]).host.prog[0]? = some (.wr BusAddr.opnd 9#64)) ∧
    (nextTurn (begun .encodeF64Be 0#64 [.wr BusAddr.opnd 9#64] [.host]) = .host ∧
      (begun .encodeF64Be 0#64 [.wr BusAddr.opnd 9#64] [.host]).host.prog[0]? = some (.wr BusAddr.opnd 9#64)) :=
  ⟨⟨rfl, rfl⟩, rfl, rfl⟩

/-- A step that completes, a transfer, and a host turn that leaves the command alone. -/
theorem witness_CommandInProgressIsFixed : ∀ s ∈ [finishing .readInt16Be 0#64 piBuf false false,
      begun .encodeF64Be pi64 [] [.core], begun .decodeF32Be 0#64 [.wr BusAddr.opnd 9#64] [.host]],
    Inv s ∧ s.int.phase = .xfer ∧ nextTurn s ≠ .reset ∧ ∃ t, step s = .next t := by
  intro s hs
  simp only [List.mem_cons, List.not_mem_nil, or_false] at hs
  obtain rfl | rfl | rfl := hs
  · exact ⟨inv_atSlot _ _ _ _ _ _ (by decide) (fun _ => rfl) (fun _ => rfl), rfl, by decide +kernel, _, rfl⟩
  · exact ⟨inv_begun _ _ _ _, rfl, by decide +kernel, _, rfl⟩
  · exact ⟨inv_begun _ _ _ _, rfl, by decide +kernel, _, rfl⟩

/-- A read of CMD and of the last reserved slot. -/
theorem witness_HostReadReturnsTheRegister : ∀ offset ∈ [0x00, 0x20, 0x38],
    nextTurn (idle 0#64 [.rd 3 { offset := offset, bits := 64 }] [.host]) = .host ∧
    (idle 0#64 [.rd 3 { offset := offset, bits := 64 }] [.host]).host.prog[0]? =
      some (.rd 3 { offset := offset, bits := 64 }) := by decide +kernel

theorem witness_ReadOnlyRegistersIgnoreWrites : Inv (idle 0#64 [] []) ∧ ∀ offset ∈ [0x10, 0x38],
    nextTurn (begun .encodeF64Be 0#64 [.wr { offset := offset, bits := 64 } 9#64] [.host]) = .host ∧
    (begun .encodeF64Be 0#64 [.wr { offset := offset, bits := 64 } 9#64] [.host]).host.prog[0]? =
      some (.wr { offset := offset, bits := 64 } 9#64) := ⟨inv_idle _ _ _, by decide +kernel⟩

/-- A narrow write and a read just past the window are refused, and the last slot is not. -/
theorem witness_BadBusAccessIsRefused :
    step (idle 0#64 [.wr { offset := 0x08, bits := 32 } 9#64] [.host]) = .refused .busBadAccess ∧
    step (idle 0#64 [.rd 3 { offset := 0x40, bits := 64 }] [.host]) = .refused .busBadAccess ∧
    (nextState (step (idle 0#64 [.rd 3 { offset := 0x38, bits := 64 }] [.host]))).isSome = true :=
  ⟨rfl, rfl, rfl⟩

theorem witness_ResetAtAnyTime : nextTurn (begun .encodeF64Be pi64 [] [.reset]) = .reset ∧
    (begun .encodeF64Be pi64 [] [.reset]).int.phase = .xfer := ⟨rfl, rfl⟩

theorem witness_HostLocalInstructions :
    ∀ i ∈ [HostInstr.andi 7 6 1#64, HostInstr.addi 0 0 0xFFFFFFFFFFFFFFFF#64, HostInstr.bnz 2 0],
      nextTurn (idle 0#64 [i] [.host]) = .host ∧ (idle 0#64 [i] [.host]).host.prog[0]? = some i := by
  decide +kernel

theorem witness_EndedRunStays :
    runEnded (idle 0#64 [] []) ∧ nextTurn (idle 0#64 [] []) ≠ .reset := by
  unfold runEnded; decide +kernel

theorem witness_AssembledProgramIsWellFormed :
    assembleHost [.label 0, .doCmd .readInt16Be, .rd 0 BusAddr.result, .bnz 0 0] =
      some ([.wr BusAddr.cmd 1#64] ++ waitIdleAt 1 ++ [.rd 0 BusAddr.result, .bnz 0 0]) ∧
    BusAddr.result.wellFormed = true := by decide +kernel

/-- An instance whose source and sink are these streams. -/
def attach (sourceId sinkId : Nat) : Attached :=
  { base := 0x1000, sourceId := sourceId, sinkId := sinkId, state := begun .readInt16Be 0#64 [] [.core] }

/-- Two instances on four streams step; two on one stream are refused. -/
theorem witness_InstancesShareNothing :
    (∃ q, Platform.step { cores := [attach 0 1, attach 2 3] } 1 = .next q) ∧
    Platform.step { cores := [attach 0 1, attach 1 2] } 0 = .refused .sharedStream := ⟨⟨_, rfl⟩, rfl⟩

theorem witness_WindowHasEightSlots :
    windowAccess 0x1000 0x1038 64 = some (BusAddr.ofReg 7) ∧ windowAccess 0x1000 0x1040 64 = none ∧
    BusAddr.wellFormed { offset := 0x34, bits := 64 } = false := by decide

end Sys2Proof.Tests
end

/-! PROOFS. The statements of 10_state.md: the invariants of the registers and the internal state, the register window,
BUSY, and what a command depends on. -/

/-! ## The decoder of a CMD value -/

namespace Sys2Proof

/-- A CMD value is its three fields RSVD, ORDER and OP side by side (30_encoding.md R53). -/
theorem fields_append (v : Word) :
    v.extractLsb' 4 60 ++ (BitVec.ofBool (v.getLsbD 3) ++ v.extractLsb' 0 3) = v := by
  apply BitVec.eq_of_getLsbD_eq
  intro b hb
  simp only [BitVec.getLsbD_append, BitVec.getLsbD_extractLsb']
  by_cases hOp : b < 3
  · simp [hOp, show b < 1 + 3 by omega]
  · by_cases hOrder : b = 3
    · subst hOrder; simp
    · simp [show ¬ b < 1 + 3 by omega, show b - 4 < 60 by omega, show 4 + (b - 4) = b by omega]

/-- The one word that decodes to a command is its own (30_encoding.md R55). -/
theorem encode_of_decode {v : Word} {i : Instr} (h : decode v = .ok i) : encode i = v := by
  unfold decode at h
  split at h
  · next hrsvd =>
    split at h
    · next op hop =>
      cases h
      have hbit : (Order.ofBit (v.getLsbD 3)).bit = v.getLsbD 3 := by cases v.getLsbD 3 <;> rfl
      rw [encode, Machine.op_ofParts, Machine.order_ofParts, hbit, Machine.code_ofCode hop, ← hrsvd]
      exact fields_append v
    · cases h
  · cases h

/-- OP codes 0b001 to 0b110 name an operation (30_encoding.md R54). -/
theorem exists_ofCode (c : BitVec 3) (h1 : 1 ≤ c.toNat) (h6 : c.toNat ≤ 6) : ∃ op, Op.ofCode c = some op := by
  rw [← Option.isSome_iff_exists]
  revert c
  decide

/-- Every legal CMD value decodes (30_encoding.md R57). -/
theorem exists_decode_of_legalWord {v : Word} (h : legalWord v = true) : ∃ i, decode v = .ok i := by
  simp only [legalWord, Bool.and_eq_true, decide_eq_true_eq] at h
  obtain ⟨⟨hlt, h1⟩, h6⟩ := h
  have hrsvd : v.extractLsb' 4 60 = 0#60 := by
    apply BitVec.eq_of_toNat_eq
    simp [Nat.shiftRight_eq_div_pow, Nat.div_eq_of_lt hlt]
  have hop : (v.extractLsb' 0 3).toNat = v.toNat % 8 := by simp
  obtain ⟨op, hcode⟩ := exists_ofCode (v.extractLsb' 0 3) (by omega) (by omega)
  exact ⟨_, by simp only [decode, hrsvd, hcode, if_true]; rfl⟩

theorem legalWord_eq_false_of_decode {v : Word} {e : IllegalWord} (h : decode v = .error e) :
    legalWord v = false := by
  rw [Bool.eq_false_iff]
  intro hlegal
  obtain ⟨i, hi⟩ := exists_decode_of_legalWord hlegal
  rw [h] at hi
  cases hi

end Sys2Proof

namespace Sys2Proof.Machine

/-! ## STATUS as a whole -/

/-- What holds of STATUS in every phase: the reserved bits are 0, CLASS and NOCT are legal, and at most one error bit is
set (10_state.md R18, R23, R25; 60_exceptions.md R102). -/
structure LegalStatus (w : Word) : Prop where
  reserved : ∀ b, b < 64 → b = 7 ∨ 12 ≤ b → w.getLsbD b = false
  classLegal : classFieldOf w ≤ 5
  noctLegal : noctOf w = 0 ∨ noctOf w = 2 ∨ noctOf w = 4 ∨ noctOf w = 8
  oneError : ¬(illegalOf w = true ∧ truncOf w = true) ∧ ¬(illegalOf w = true ∧ werrOf w = true) ∧
    ¬(truncOf w = true ∧ werrOf w = true)

/-- The reserved bits of STATUS are bit 7 and bits 63:12. -/
theorem reserved_iff (w : Word) : (w.getLsbD 7 = false ∧ w.toNat < 2 ^ 12) ↔
    ∀ b, b < 64 → b = 7 ∨ 12 ≤ b → w.getLsbD b = false := by
  constructor
  · rintro ⟨h7, hlt⟩ b - (rfl | hb)
    · exact h7
    · exact Nat.testBit_lt_two_pow (hlt.trans_le (Nat.pow_le_pow_right (by decide) hb))
  · intro h
    refine ⟨h 7 (by decide) (.inl rfl), Nat.lt_pow_two_of_testBit _ fun b hb => ?_⟩
    by_cases h64 : b < 64
    · exact h b h64 (.inr hb)
    · exact BitVec.getLsbD_of_ge w b (by omega)

theorem classCode_le (c : FClass) : classCode c ≤ 5 := by cases c <;> decide

theorem legalStatus_zero : LegalStatus 0#64 where
  reserved := by simp
  classLegal := by decide
  noctLegal := by decide
  oneError := by decide

theorem LegalStatus.setBusy {w : Word} (h : LegalStatus w) (b : Bool) : LegalStatus (setBusy b w) where
  reserved := fun j hj hr => by rw [getLsbD_setBusy_of_ne w b j hj (by omega)]; exact h.reserved j hj hr
  classLegal := by simpa using h.classLegal
  noctLegal := by simpa using h.noctLegal
  oneError := by simpa using h.oneError

theorem LegalStatus.illegalStatus {w : Word} (h : LegalStatus w) : LegalStatus (illegalStatus w) where
  reserved := fun j hj hr => by rw [reserved_illegalStatus w j hj hr]; exact h.reserved j hj hr
  classLegal := by simp
  noctLegal := by simp
  oneError := by simp

/-- A completion reports at most one error, because TRUNC is of the read path and WERR of the encode path. -/
theorem LegalStatus.completionStatus {w : Word} (h : LegalStatus w) (trunc werr : Bool) (c : FClass) (op : Op)
    (herr : ¬(trunc = true ∧ werr = true)) : LegalStatus (completionStatus trunc werr c op.octets w) where
  reserved := fun j hj hr => by rw [reserved_completionStatus _ _ _ _ w j hj hr]; exact h.reserved j hj hr
  classLegal := by simpa using classCode_le c
  noctLegal := by
    rw [noctOf_completionStatus _ _ _ _ _ (by have := octets_le op; omega)]
    exact .inr (octets_cases op)
  oneError := by simpa using herr

/-- Setting a field of two registers leaves them equal at bit b when they were equal there or b is in the field. -/
theorem getLsbD_setField_congr {lo len v b : Nat} {w w' : Word} (hb : b < 64)
    (h : ¬(lo ≤ b ∧ b < lo + len) → w.getLsbD b = w'.getLsbD b) :
    (setField lo len v w).getLsbD b = (setField lo len v w').getLsbD b := by
  rw [getLsbD_setField _ _ _ _ _ hb, getLsbD_setField _ _ _ _ _ hb]
  split
  · rfl
  · next hout => exact h hout

/-- A completion writes every bit of STATUS but the reserved ones (20_memory.md R41). -/
theorem completionStatus_congr (trunc werr : Bool) (c : FClass) (n : Nat) {w w' : Word}
    (h : ∀ b, b < 64 → b = 7 ∨ 12 ≤ b → w.getLsbD b = w'.getLsbD b) :
    completionStatus trunc werr c n w = completionStatus trunc werr c n w' := by
  apply BitVec.eq_of_getLsbD_eq
  intro b hb
  exact getLsbD_setField_congr hb fun _ => getLsbD_setField_congr hb fun _ => getLsbD_setField_congr hb fun _ =>
    getLsbD_setField_congr hb fun _ => getLsbD_setField_congr hb fun _ => getLsbD_setField_congr hb fun _ =>
    h b hb (by omega)

/-! ## What a completion leaves -/

theorem completion_of_read {i : Instr} (hr : i.op.isRead = true) (s : State) : completion i s =
    complete (readValue i s.int.buf).1 (assemble Config.eosFill i.order i.op.octets s.int.buf)
      (readValue i s.int.buf).2 s.int.trunc false s := by
  simp [completion, hr]

theorem completion_of_encode {i : Instr} (hr : i.op.isRead = false) (s : State) : completion i s =
    complete (lowOctets i.op.octets s.int.tx) (lowOctets i.op.octets s.int.tx)
      (classOf (targetFormat i) (lowOctets i.op.octets s.int.tx)) false s.int.werr s := by
  simp [completion, hr]

/-- Every completion is `complete`, with TRUNC of the read path and WERR of the encode path (10_state.md R21, R22). -/
theorem completion_eq_complete (i : Instr) (s : State) : ∃ result raw c, completion i s =
    complete result raw c (i.op.isRead && s.int.trunc) (!i.op.isRead && s.int.werr) s := by
  cases hr : i.op.isRead
  · exact ⟨_, _, _, completion_of_encode hr s⟩
  · exact ⟨_, _, _, completion_of_read hr s⟩

@[simp] theorem completion_int (i : Instr) (s : State) : (completion i s).int = { s.int with phase := .idle } := by
  obtain ⟨_, _, _, h⟩ := completion_eq_complete i s
  rw [h, complete_int]

@[simp] theorem busyOf_completion (i : Instr) (s : State) : busyOf (completion i s).regs.status = false := by
  obtain ⟨_, _, _, h⟩ := completion_eq_complete i s
  rw [h, complete_status, busyOf_completionStatus]

@[simp] theorem illegalOf_completion (i : Instr) (s : State) : illegalOf (completion i s).regs.status = false := by
  obtain ⟨_, _, _, h⟩ := completion_eq_complete i s
  rw [h, complete_status, illegalOf_completionStatus]

/-! ## Octet words -/

theorem intResult_congr (order : Order) {K : Nat} (hK : 1 ≤ K) {buf buf' : Vector Slot 8}
    (h : ∀ k, k < K → slotAt buf k = slotAt buf' k) : intResult order K buf = intResult order K buf' := by
  rw [intResult, intResult, intValue_congr order hK h]

theorem floatResult_congr (T : Format) (order : Order) (n : Nat) {buf buf' : Vector Slot 8}
    (h : ∀ k, k < n → slotAt buf k = slotAt buf' k) :
    floatResult T order n buf = floatResult T order n buf' := by
  simp only [floatResult, assemble_congr Config.eosFill order n h]

/-- RESULT and CLASS of a read command depend on its own slots alone (20_memory.md R42, 40_integer.md R61). -/
theorem readValue_congr (i : Instr) {buf buf' : Vector Slot 8}
    (h : ∀ k, k < i.op.octets → slotAt buf k = slotAt buf' k) : readValue i buf = readValue i buf' := by
  unfold readValue
  cases hop : i.op <;> rw [hop] at h
  case readInt16 => exact intResult_congr _ (by decide) h
  case readInt32 => exact intResult_congr _ (by decide) h
  all_goals exact floatResult_congr _ _ _ h

/-- The octets of a command, each at its significance, are the digits of a base-256 sum (20_memory.md R42). -/
theorem octetSum_eq_digitSum (o : ℕ → ℕ) (order : Order) (n : ℕ) :
    ((List.range n).map fun k => o k * 256 ^ significance order n k).sum =
      ∑ j ∈ Finset.range n, o (significance order n j) * 256 ^ j := by
  cases order with
  | le => exact sum_map_range _ _
  | be =>
    rw [sum_map_range_reflect, sum_map_range]
    refine Finset.sum_congr rfl fun j hj => ?_
    exact congrArg (o (n - 1 - j) * 256 ^ ·) (significance_significance .be (Finset.mem_range.1 hj))

/-- An assembled word has no bits beyond its n octets. -/
theorem assemble_lt (fill : Byte) (order : Order) (n : Nat) (buf : Vector Slot 8) :
    (assemble fill order n buf).toNat < 2 ^ (8 * n) := by
  rw [assemble, BitVec.toNat_ofNat, octetSum_eq_digitSum fun k => (fillOctet fill (slotAt buf k)).toNat]
  calc _ ≤ _ := Nat.mod_le _ _
    _ < 256 ^ n := digitSum_lt _ (fun j => BitVec.isLt _) n
    _ = 2 ^ (8 * n) := by norm_num [pow_mul]

theorem lowOctets_lt (n : Nat) (w : Word) : (lowOctets n w).toNat < 2 ^ (8 * n) := by
  rw [lowOctets_toNat]
  exact Nat.mod_lt _ (by positivity)

end Sys2Proof.Machine

/-! ## The invariant of CORE's state -/

namespace Sys2Proof.Machine

/-- The command i is in progress: what `Inv` says of CORE in XFER, by name (30_encoding.md R58, 10_state.md R28). -/
structure InProgress (i : Instr) (s : State) : Prop where
  op : s.int.op = i.op.code
  order : s.int.order = i.order
  octets : s.int.n.toNat = i.op.octets
  slot : s.int.k.toNat ≤ s.int.n.toNat
  cmd : s.regs.cmd = encode i
  noWerr : i.op.isRead = true → s.int.werr = false
  noTrunc : i.op.isRead = false → s.int.trunc = false
  tx32 : i.op = .encodeF32 → s.int.tx = pack .binary32 s.regs.opnd
  tx64 : i.op = .encodeF64 → s.int.tx = pack .binary64 s.regs.opnd

theorem InProgress.running {i : Instr} {s : State} (h : InProgress i s) : running i s = true :=
  running_of h.op h.order

theorem inv_iff (s : State) : Inv s ↔ busyOf s.regs.status = decide (s.int.phase = .xfer) ∧
    LegalStatus s.regs.status ∧ (s.int.phase = .xfer → ∃ i, InProgress i s) := by
  constructor
  · intro h
    refine ⟨h.busy, ⟨(reserved_iff _).1 h.reserved, h.classLegal, h.noctLegal, h.oneError⟩, fun hp => ?_⟩
    obtain ⟨i, hop, hord, hn, hk, hcmd, hw, ht, h32, h64⟩ := h.inProgress hp
    exact ⟨i, hop, hord, hn, hk, hcmd, hw, ht, h32, h64⟩
  · rintro ⟨hbusy, hst, hrun⟩
    refine ⟨hbusy, (reserved_iff _).2 hst.reserved, hst.classLegal, hst.noctLegal, hst.oneError, fun hp => ?_⟩
    obtain ⟨i, hi⟩ := hrun hp
    exact ⟨i, hi.op, hi.order, hi.octets, hi.slot, hi.cmd, hi.noWerr, hi.noTrunc, hi.tx32, hi.tx64⟩

section Inv

variable {s t : State} {i : Instr}

theorem Inv.legalStatus (h : Inv s) : LegalStatus s.regs.status := ((inv_iff s).1 h).2.1

theorem Inv.exists_inProgress (h : Inv s) (hp : s.int.phase = .xfer) : ∃ i, InProgress i s :=
  ((inv_iff s).1 h).2.2 hp

/-- The command in progress is the one of int.op and int.order. -/
theorem Inv.inProgress_of_running (h : Inv s) (hp : s.int.phase = .xfer) (hrun : running i s = true) :
    InProgress i s := by
  obtain ⟨j, hj⟩ := h.exists_inProgress hp
  rwa [running_unique hrun hj.running]

/-- BUSY is 1 exactly in XFER (10_state.md R19). -/
theorem Inv.busy_iff (h : Inv s) : busyOf s.regs.status = true ↔ s.int.phase = .xfer := by
  rw [h.busy, decide_eq_true_iff]

theorem Inv.busy_eq_false_iff (h : Inv s) : busyOf s.regs.status = false ↔ s.int.phase = .idle := by
  rw [h.busy]
  cases s.int.phase <;> simp

theorem inv_of_idle (hp : s.int.phase = .idle) (hbusy : busyOf s.regs.status = false)
    (hst : LegalStatus s.regs.status) : Inv s :=
  (inv_iff s).2 ⟨by rw [hbusy, hp]; rfl, hst, fun h => by rw [hp] at h; cases h⟩

theorem inv_of_inProgress (hp : s.int.phase = .xfer) (hbusy : busyOf s.regs.status = true)
    (hst : LegalStatus s.regs.status) (hi : InProgress i s) : Inv s :=
  (inv_iff s).2 ⟨by rw [hbusy, hp]; rfl, hst, fun _ => ⟨i, hi⟩⟩

/-- The invariant speaks of the registers and the internal state alone. -/
theorem Inv.congr (h : Inv s) (hregs : t.regs = s.regs) (hint : t.int = s.int) : Inv t := by
  obtain ⟨hbusy, hres, hclass, hnoct, herr, hrun⟩ := h
  rw [← hregs, ← hint] at hbusy hrun
  rw [← hregs] at hres hclass hnoct herr
  exact ⟨hbusy, hres, hclass, hnoct, herr, hrun⟩

theorem inv_resetCore (s : State) : Inv (resetCore s) :=
  inv_of_idle rfl (by decide : busyOf 0#64 = false) legalStatus_zero

theorem Inv.writeOpnd (h : Inv s) (v : Word) (hp : s.int.phase = .idle) : Inv (writeOpnd v s) := by
  rw [writeOpnd_idle s v hp]
  exact inv_of_idle hp (h.busy_eq_false_iff.2 hp) h.legalStatus

theorem Inv.acceptIllegal (h : Inv s) (v : Word) (hp : s.int.phase = .idle) : Inv (acceptIllegal v s) :=
  inv_of_idle hp (by simpa using h.busy_eq_false_iff.2 hp) h.legalStatus.illegalStatus

theorem inProgress_accept (i : Instr) (s : State) : InProgress i (accept i (acceptTx i s) s) where
  op := rfl
  order := rfl
  octets := toNat_octets i.op
  slot := Nat.zero_le _
  cmd := rfl
  noWerr := fun _ => rfl
  noTrunc := fun _ => rfl
  tx32 := fun h => by simp [acceptTx, targetFormat, h, Op.isRead]
  tx64 := fun h => by simp [acceptTx, targetFormat, h, Op.isRead]

theorem Inv.accept (h : Inv s) (i : Instr) : Inv (accept i (acceptTx i s) s) :=
  inv_of_inProgress rfl (by simp) (h.legalStatus.setBusy true) (inProgress_accept i s)

theorem Inv.storeSlot (h : Inv s) (hp : s.int.phase = .xfer) (hrun : running i s = true)
    (hr : i.op.isRead = true) (hk : s.int.k < s.int.n) (a : Slot) (rest : List Slot) :
    Inv (storeSlot a rest s) :=
  have hi := h.inProgress_of_running hp hrun
  inv_of_inProgress hp (h.busy_iff.2 hp) h.legalStatus
    { hi with
      slot := (toNat_add_one_of_lt s.int.k s.int.n hk).trans_le hk
      noTrunc := fun he => by rw [hr] at he; cases he }

theorem Inv.sendSlot (h : Inv s) (hp : s.int.phase = .xfer) (hrun : running i s = true)
    (hr : i.op.isRead = false) (hk : s.int.k < s.int.n) (ok : Bool) (rest : List Bool) :
    Inv (sendSlot ok rest s) :=
  have hi := h.inProgress_of_running hp hrun
  inv_of_inProgress hp (h.busy_iff.2 hp) h.legalStatus
    { hi with
      slot := (toNat_add_one_of_lt s.int.k s.int.n hk).trans_le hk
      noWerr := fun he => by rw [hr] at he; cases he }

theorem Inv.completion (h : Inv s) (hp : s.int.phase = .xfer) (hrun : running i s = true) :
    Inv (completion i s) := by
  have hi := h.inProgress_of_running hp hrun
  refine inv_of_idle (by simp) (by simp) ?_
  obtain ⟨_, _, c, hc⟩ := completion_eq_complete i s
  rw [hc, complete_status, hi.octets]
  exact h.legalStatus.completionStatus _ _ c i.op (by cases i.op.isRead <;> simp)

end Inv

/-- Settles O41: each of the effects `step_next` lists keeps the invariant. -/
theorem stepKeepsInvariant : Obligations.StepKeepsInvariant := by
  intro s t h hstep
  have hpop : Inv (popTurn s) := h.congr rfl rfl
  have hhost : Inv (advanceHost (popTurn s)) := h.congr rfl rfl
  obtain ⟨-, hregs, hint, -⟩ | ⟨-, hp, v, -, rfl⟩ | ⟨-, -, v, i, -, -, rfl⟩ | ⟨-, hp, v, e, -, -, rfl⟩ |
    ⟨-, hp, i, hrun, hr, hk, a, rest, -, -, rfl⟩ | ⟨-, hp, i, hrun, hr, hk, ok, rest, -, rfl⟩ |
    ⟨-, hp, i, hrun, -, rfl⟩ | ⟨-, rfl⟩ := step_next s t hstep
  · exact h.congr hregs hint
  · exact hhost.writeOpnd v hp
  · exact hhost.accept i
  · exact hhost.acceptIllegal v hp
  · exact hpop.storeSlot hp hrun hr hk a rest
  · exact hpop.sendSlot hp hrun hr hk ok rest
  · exact hpop.completion hp hrun
  · exact inv_resetCore _

end Sys2Proof.Machine

/-! ## The registers describe the last command -/

namespace Sys2Proof.Machine

section StatusInv

variable {s t : State} {i : Instr}

/-- In XFER the invariant of the last command says nothing. -/
theorem statusInv_of_xfer (hp : s.int.phase = .xfer) : StatusInv s where
  illegal := fun h => by rw [hp] at h; cases h
  last := fun h => by rw [hp] at h; cases h

/-- The invariant speaks of the phase and of every register but OPND. -/
theorem StatusInv.congr (h : StatusInv s) (hphase : t.int.phase = s.int.phase) (hcmd : t.regs.cmd = s.regs.cmd)
    (hresult : t.regs.result = s.regs.result) (hraw : t.regs.raw = s.regs.raw)
    (hstatus : t.regs.status = s.regs.status) : StatusInv t := by
  obtain ⟨hill, hlast⟩ := h
  rw [← hphase, ← hcmd, ← hstatus] at hill
  rw [← hphase, ← hcmd, ← hresult, ← hraw, ← hstatus] at hlast
  exact ⟨hill, hlast⟩

theorem statusInv_resetCore (s : State) : StatusInv (resetCore s) where
  illegal := fun _ h => absurd h (by decide : ¬ illegalOf 0#64 = true)
  last := fun _ h => absurd (by decide : noctOf 0#64 = 0) h

theorem StatusInv.writeOpnd (h : StatusInv s) (v : Word) (hp : s.int.phase = .idle) :
    StatusInv (writeOpnd v s) := by
  rw [writeOpnd_idle s v hp]
  exact h.congr rfl rfl rfl rfl rfl

/-- An illegal word clears NOCT, so that no completed command is reported (30_encoding.md R57). -/
theorem statusInv_acceptIllegal {v : Word} {e : IllegalWord} (hd : decode v = .error e) (s : State) :
    StatusInv (acceptIllegal v s) where
  illegal := fun _ _ => legalWord_eq_false_of_decode hd
  last := fun _ h => absurd (noctOf_illegalStatus _) h

/-- The command i completed last: what `StatusInv` says of the registers then, by name (10_state.md R16, R17, R21 to
R24). -/
structure LastCommand (i : Instr) (r : Regs) : Prop where
  cmd : r.cmd = encode i
  noct : noctOf r.status = i.op.octets
  trunc : truncOf r.status = true → i.op.isRead = true
  werr : werrOf r.status = true → i.op.isRead = false
  raw : r.raw.toNat < 2 ^ (8 * i.op.octets)
  intClass : i.op = .readInt16 ∨ i.op = .readInt32 → classFieldOf r.status = 0
  decoded32 : i.op = .decodeF32 → r.result = decodeWord .binary32 r.raw
  decoded64 : i.op = .decodeF64 → r.result = decodeWord .binary64 r.raw
  encoded : i.op = .encodeF32 ∨ i.op = .encodeF64 → r.result = r.raw
  class32 : i.op = .decodeF32 ∨ i.op = .encodeF32 →
    classFieldOf r.status = classCode (classOf .binary32 r.raw)
  class64 : i.op = .decodeF64 ∨ i.op = .encodeF64 →
    classFieldOf r.status = classCode (classOf .binary64 r.raw)

theorem statusInv_of_lastCommand (hill : illegalOf s.regs.status = false) (h : LastCommand i s.regs) :
    StatusInv s where
  illegal := fun _ htrue => by rw [hill] at htrue; cases htrue
  last := fun _ _ => ⟨i, h.cmd, h.noct, h.trunc, h.werr, h.raw, h.intClass, h.decoded32, h.decoded64, h.encoded,
    h.class32, h.class64⟩

theorem readValue_class_of_int (h : i.op = .readInt16 ∨ i.op = .readInt32) (buf : Vector Slot 8) :
    (readValue i buf).2 = .none := by
  obtain h | h := h <;> simp [readValue, h, intResult]

theorem readValue_of_decodeF32 (h : i.op = .decodeF32) (buf : Vector Slot 8) :
    readValue i buf = floatResult .binary32 i.order i.op.octets buf := by
  simp [readValue, h, Op.octets]

theorem readValue_of_decodeF64 (h : i.op = .decodeF64) (buf : Vector Slot 8) :
    readValue i buf = floatResult .binary64 i.order i.op.octets buf := by
  simp [readValue, h, Op.octets]

theorem op_ne_of_isRead {op op' : Op} (h : op.isRead = true) (h' : op'.isRead = false) : op ≠ op' := by
  rintro rfl
  rw [h] at h'
  cases h'

/-- NOCT after a completion is the octet count of the command in progress (10_state.md R24). -/
theorem InProgress.noctOf_completion (hi : InProgress i s) : noctOf (completion i s).regs.status = i.op.octets := by
  obtain ⟨_, _, _, hc⟩ := completion_eq_complete i s
  rw [hc, complete_status, hi.octets]
  exact noctOf_completionStatus _ _ _ _ _ (by have := octets_le i.op; omega)

/-- A completed read command: TRUNC is its only error bit, and RAW is the assembled word, of which a float decode takes
RESULT and CLASS. -/
theorem lastCommand_completion_read (hi : InProgress i s) (hr : i.op.isRead = true) :
    LastCommand i (completion i s).regs := by
  have hnoct := hi.noctOf_completion
  have h32 : i.op ≠ .encodeF32 := op_ne_of_isRead hr rfl
  have h64 : i.op ≠ .encodeF64 := op_ne_of_isRead hr rfl
  rw [completion_of_read hr] at hnoct ⊢
  exact {
    cmd := hi.cmd
    noct := hnoct
    trunc := fun _ => hr
    werr := by simp
    raw := assemble_lt _ _ _ _
    intClass := fun h => by simp [readValue_class_of_int h, classCode]
    decoded32 := fun h => by simp [readValue_of_decodeF32 h, floatResult]
    decoded64 := fun h => by simp [readValue_of_decodeF64 h, floatResult]
    encoded := fun h => (h.elim h32 h64).elim
    class32 := fun h => by simp [readValue_of_decodeF32 (h.resolve_right h32), floatResult]
    class64 := fun h => by simp [readValue_of_decodeF64 (h.resolve_right h64), floatResult] }

/-- A completed encode command: WERR is its only error bit, and RESULT and RAW are the word emitted. -/
theorem lastCommand_completion_encode (hi : InProgress i s) (hr : i.op.isRead = false) :
    LastCommand i (completion i s).regs := by
  have hnoct := hi.noctOf_completion
  have hne : ∀ {op : Op}, op.isRead = true → i.op ≠ op := fun h => (op_ne_of_isRead h hr).symm
  rw [completion_of_encode hr] at hnoct ⊢
  exact {
    cmd := hi.cmd
    noct := hnoct
    trunc := by simp
    werr := fun _ => hr
    raw := lowOctets_lt _ _
    intClass := fun h => (h.elim (hne rfl) (hne rfl)).elim
    decoded32 := fun h => (hne rfl h).elim
    decoded64 := fun h => (hne rfl h).elim
    encoded := fun _ => rfl
    class32 := fun h => by simp [targetFormat, h.resolve_left (hne rfl)]
    class64 := fun h => by simp [targetFormat, h.resolve_left (hne rfl)] }

theorem statusInv_completion (hi : InProgress i s) : StatusInv (completion i s) := by
  refine statusInv_of_lastCommand (i := i) (illegalOf_completion i s) ?_
  cases hr : i.op.isRead
  · exact lastCommand_completion_encode hi hr
  · exact lastCommand_completion_read hi hr

end StatusInv

/-- Settles O43: each of the effects `step_next` lists keeps the invariant of the last command. -/
theorem stepKeepsStatusInvariant : Obligations.StepKeepsStatusInvariant := by
  intro s t hinv h hstep
  have hhost : StatusInv (advanceHost (popTurn s)) := h.congr rfl rfl rfl rfl rfl
  obtain ⟨-, hregs, hint, -⟩ | ⟨-, hp, v, -, rfl⟩ | ⟨-, -, v, i, -, -, rfl⟩ | ⟨-, -, v, e, -, hd, rfl⟩ |
    ⟨-, hp, i, -, -, -, a, rest, -, -, rfl⟩ | ⟨-, hp, i, -, -, -, ok, rest, -, rfl⟩ |
    ⟨-, hp, i, hrun, -, rfl⟩ | ⟨-, rfl⟩ := step_next s t hstep
  · exact h.congr (by rw [hint]) (by rw [hregs]) (by rw [hregs]) (by rw [hregs]) (by rw [hregs])
  · exact hhost.writeOpnd v hp
  · exact statusInv_of_xfer rfl
  · exact statusInv_acceptIllegal hd _
  · exact statusInv_of_xfer hp
  · exact statusInv_of_xfer hp
  · have hpop : Inv (popTurn s) := hinv.congr rfl rfl
    exact statusInv_completion (hpop.inProgress_of_running hp hrun)
  · exact statusInv_resetCore _
end Sys2Proof.Machine

/-! ## Writes and reads of the register window, as steps -/

namespace Sys2Proof.Machine

section Window

variable {s : State} {v : Word} {a : BusAddr}

/-- A step in which the host writes inside the window (20_memory.md R46). -/
theorem step_write (hturn : nextTurn s = .host) (hinstr : s.host.prog[s.host.pc]? = some (.wr a v))
    (ha : a.wellFormed = true) : step s = writeReg (a.offset / 8) v (advanceHost (popTurn s)) := by
  rw [step_host s hturn, hostTurn, popTurn_host, hinstr]
  exact if_pos ha

/-- A step in which the host reads inside the window. -/
theorem step_read {t : Fin 8} (hturn : nextTurn s = .host) (hinstr : s.host.prog[s.host.pc]? = some (.rd t a))
    (ha : a.wellFormed = true) :
    step s = .next (setTemp t (readReg (a.offset / 8) s) (advanceHost (popTurn s))) := by
  rw [step_host s hturn, hostTurn, popTurn_host, hinstr]
  exact if_pos ha

theorem step_write_cmd (hturn : nextTurn s = .host)
    (hinstr : s.host.prog[s.host.pc]? = some (.wr BusAddr.cmd v)) :
    step s = writeCmd v (advanceHost (popTurn s)) :=
  step_write hturn hinstr rfl

theorem step_write_opnd (hturn : nextTurn s = .host)
    (hinstr : s.host.prog[s.host.pc]? = some (.wr BusAddr.opnd v)) :
    step s = .next (writeOpnd v (advanceHost (popTurn s))) :=
  step_write hturn hinstr rfl

/-- A write to CMD in XFER is ignored (10_state.md R14). -/
theorem writeCmd_xfer (hp : s.int.phase = .xfer) (v : Word) : writeCmd v s = .next s := by
  simp [writeCmd, hp]

theorem writeCmd_idle_legal (hp : s.int.phase = .idle) {i : Instr} (hd : decode v = .ok i) :
    writeCmd v s = exec i s := by
  simp [writeCmd, hp, hd]

theorem writeCmd_idle_illegal (hp : s.int.phase = .idle) {e : IllegalWord} (hd : decode v = .error e) :
    writeCmd v s = .next (acceptIllegal v s) := by
  simp [writeCmd, hp, hd]

/-- A legal word written to CMD when IDLE is the acceptance of its command (30_encoding.md R58). -/
theorem step_accepts (hturn : nextTurn s = .host) (hp : s.int.phase = .idle)
    (hinstr : s.host.prog[s.host.pc]? = some (.wr BusAddr.cmd v)) {i : Instr} (hd : decode v = .ok i) :
    step s = exec i (advanceHost (popTurn s)) ∧
      step s = .next (accept i (acceptTx i s) (advanceHost (popTurn s))) := by
  have hexec : step s = exec i (advanceHost (popTurn s)) := by
    rw [step_write_cmd hturn hinstr, writeCmd_idle_legal (s := advanceHost (popTurn s)) hp hd]
  exact ⟨hexec, hexec.trans (exec_idle i _ hp)⟩

/-- An illegal word written to CMD when IDLE is recorded, and nothing runs (30_encoding.md R57). -/
theorem step_records_illegal (hturn : nextTurn s = .host) (hp : s.int.phase = .idle)
    (hinstr : s.host.prog[s.host.pc]? = some (.wr BusAddr.cmd v)) {e : IllegalWord} (hd : decode v = .error e) :
    step s = .next (acceptIllegal v (advanceHost (popTurn s))) := by
  rw [step_write_cmd hturn hinstr, writeCmd_idle_illegal (s := advanceHost (popTurn s)) hp hd]

/-- A write to OPND touches no other register and nothing outside the registers (10_state.md R15). -/
theorem writeOpnd_eq (v : Word) (s : State) :
    writeOpnd v s = { s with regs := { s.regs with opnd := (writeOpnd v s).regs.opnd } } := by
  unfold writeOpnd
  split <;> rfl

@[simp] theorem writeOpnd_int : (writeOpnd v s).int = s.int := by rw [writeOpnd_eq]
@[simp] theorem writeOpnd_result : (writeOpnd v s).regs.result = s.regs.result := by rw [writeOpnd_eq]
@[simp] theorem writeOpnd_raw : (writeOpnd v s).regs.raw = s.regs.raw := by rw [writeOpnd_eq]
@[simp] theorem writeOpnd_source : (writeOpnd v s).source = s.source := by rw [writeOpnd_eq]
@[simp] theorem writeOpnd_sink : (writeOpnd v s).sink = s.sink := by rw [writeOpnd_eq]

/-- Register slots past OPND ignore writes (10_state.md R25, R26). -/
theorem writeReg_of_two_le {number : Nat} (h : 2 ≤ number) (v : Word) (s : State) :
    writeReg number v s = .next s := by
  unfold writeReg
  split
  · omega
  · omega
  · rfl

/-- The table of 10_state.md R12 and R26: the registers lie at the multiples of 8 in the window, and the offsets past
STATUS read 0. -/
theorem readReg_of_mem_window {offset : Nat} {value : Word} (s : State)
    (h : (offset, value) ∈ [(0x00, s.regs.cmd), (0x08, s.regs.opnd), (0x10, s.regs.result), (0x18, s.regs.raw),
      (0x20, s.regs.status), (0x28, 0#64), (0x30, 0#64), (0x38, 0#64)]) :
    BusAddr.wellFormed { offset := offset, bits := 64 } = true ∧ readReg (offset / 8) s = value := by
  simp only [List.mem_cons, Prod.mk.injEq, List.not_mem_nil, or_false] at h
  obtain ⟨rfl, rfl⟩ | ⟨rfl, rfl⟩ | ⟨rfl, rfl⟩ | ⟨rfl, rfl⟩ | ⟨rfl, rfl⟩ | ⟨rfl, rfl⟩ | ⟨rfl, rfl⟩ | ⟨rfl, rfl⟩ :=
    h <;> exact ⟨rfl, rfl⟩

/-- CORE's turn in XFER is the next step of the command in progress. -/
theorem coreTurn_running {i : Instr} (hp : s.int.phase = .xfer) (hrun : running i s = true) :
    coreTurn s = exec i s := by
  simp [coreTurn, hp, (currentCommand_eq_some s i).2 hrun]

/-- CORE's turn completes the command in progress when int.k = int.n (20_memory.md R41). -/
theorem step_completes {i : Instr} (hturn : nextTurn s = .core) (hp : s.int.phase = .xfer)
    (hrun : running i s = true) (hk : s.int.k = s.int.n) : step s = .next (completion i (popTurn s)) := by
  rw [step_core s hturn, coreTurn_running (s := popTurn s) hp hrun]
  exact exec_complete i _ hp hrun hk

end Window

/-- Settles O47: the write reaches `writeCmd`, whose two phases are R14's two cases. -/
theorem cmdWriteAcceptedOrIgnored : Obligations.CmdWriteAcceptedOrIgnored := by
  intro s v hturn hinstr
  constructor
  · intro hp
    cases hd : decode v with
    | ok i =>
      obtain ⟨hexec, hnext⟩ := step_accepts hturn hp hinstr hd
      refine ⟨_, hnext, encode_of_decode hd, fun j hj => ?_⟩
      cases hj
      exact ⟨hexec, rfl, by simp⟩
    | error e => exact ⟨_, step_records_illegal hturn hp hinstr hd, rfl, nofun⟩
  · intro hp
    rw [step_write_cmd hturn hinstr]
    exact writeCmd_xfer (s := advanceHost (popTurn s)) hp v

/-- Settles O48: the write reaches `writeOpnd`. -/
theorem opndWriteStoredOrIgnored : Obligations.OpndWriteStoredOrIgnored := by
  intro s v hturn hinstr
  refine ⟨_, step_write_opnd hturn hinstr, ?_, by simp, by simp, by simp⟩
  cases hp : s.int.phase
  · rw [writeOpnd_idle (advanceHost (popTurn s)) v hp]; rfl
  · rw [writeOpnd_xfer (advanceHost (popTurn s)) v hp]; rfl

/-- Settles O50: the offset is one of the window's, and `setTemp` touches one temporary alone. -/
theorem hostReadReturnsTheRegister : Obligations.HostReadReturnsTheRegister := by
  intro s t offset hturn hinstr value hmem
  obtain ⟨hwf, hvalue⟩ := readReg_of_mem_window s hmem
  have hstep := step_read hturn hinstr hwf
  rw [hvalue] at hstep
  exact ⟨_, hstep, temp_setTemp_self _ _ _, fun t' ht => temp_setTemp_of_ne _ _ _ ht, rfl, rfl, rfl, rfl, rfl, rfl⟩

/-- The slots that ignore writes are 2 to 7 (10_state.md R25, R26). -/
theorem readOnly_slots : ∀ offset ∈ [0x10, 0x18, 0x20, 0x28, 0x30, 0x38],
    BusAddr.wellFormed { offset := offset, bits := 64 } = true ∧ 2 ≤ offset / 8 := by decide

/-- The bits of STATUS that read 0 are bit 7 and bits 63:12 (10_state.md R18). -/
theorem reserved_of_mask : ∀ b < 64, (0xFFFFFFFFFFFFF080#64).getLsbD b = true → b = 7 ∨ 12 ≤ b := by decide

theorem LegalStatus.and_mask {w : Word} (h : LegalStatus w) : w &&& 0xFFFFFFFFFFFFF080#64 = 0#64 := by
  apply BitVec.eq_of_getLsbD_eq
  intro b hb
  rw [BitVec.getLsbD_and]
  cases hm : (0xFFFFFFFFFFFFF080#64).getLsbD b
  · simp
  · simp [h.reserved b hb (reserved_of_mask b hb hm)]

/-- Settles O51: slots 2 to 7 ignore writes, and the invariant holds the reserved bits of STATUS at 0. -/
theorem readOnlyRegistersIgnoreWrites : Obligations.ReadOnlyRegistersIgnoreWrites := by
  constructor
  · intro s offset v hturn hinstr hmem
    obtain ⟨hwf, hslot⟩ := readOnly_slots offset hmem
    rw [step_write hturn hinstr hwf]
    exact writeReg_of_two_le hslot _ _
  · intro s hinv
    exact hinv.legalStatus.and_mask

/-! ## BUSY, RESULT and RAW along a step -/

section Step

variable {s t : State}

/-- CORE leaves IDLE only when the host writes a legal word to CMD (30_encoding.md R58). -/
theorem step_enters_xfer (h : step s = .next t) (hs : s.int.phase = .idle) (ht : t.int.phase = .xfer) :
    nextTurn s = .host ∧ ∃ v i, s.host.prog[s.host.pc]? = some (.wr BusAddr.cmd v) ∧ decode v = .ok i := by
  obtain ⟨-, -, hint, -⟩ | ⟨-, -, v, -, rfl⟩ | ⟨hturn, -, v, i, hinstr, hd, -⟩ | ⟨-, -, v, e, -, -, rfl⟩ |
    ⟨-, hp, -⟩ | ⟨-, hp, -⟩ | ⟨-, hp, -⟩ | ⟨-, rfl⟩ := step_next s t h
  · simp [hint, hs] at ht
  · simp [hs] at ht
  · exact ⟨hturn, v, i, hinstr, hd⟩
  · simp [hs] at ht
  · simp [hs] at hp
  · simp [hs] at hp
  · simp [hs] at hp
  · cases ht

/-- CORE leaves XFER only at a completion or a reset (20_memory.md R41, 70_reset_and_hazards.md R111). -/
theorem step_leaves_xfer (h : step s = .next t) (hs : s.int.phase = .xfer) (ht : t.int.phase = .idle) :
    (nextTurn s = .core ∧ s.int.k = s.int.n) ∨ nextTurn s = .reset := by
  obtain ⟨-, -, hint, -⟩ | ⟨-, hp, -⟩ | ⟨-, hp, -⟩ | ⟨-, hp, -⟩ | ⟨-, -, i, -, -, -, a, rest, -, -, rfl⟩ |
    ⟨-, -, i, -, -, -, ok, rest, -, rfl⟩ | ⟨hturn, -, i, -, hk, -⟩ | ⟨hturn, -⟩ := step_next s t h
  · simp [hint, hs] at ht
  · simp [hs] at hp
  · simp [hs] at hp
  · simp [hs] at hp
  · simp [hs] at ht
  · simp [hs] at ht
  · exact .inl ⟨hturn, hk⟩
  · exact .inr hturn

end Step

/-- Settles O45: of the effects `step_next` lists, a completion and a reset alone write RESULT or RAW. -/
theorem resultsChangeOnlyAtCompletion : Obligations.ResultsChangeOnlyAtCompletion := by
  intro s t hstep hne
  obtain ⟨-, hregs, -⟩ | ⟨-, -, v, -, rfl⟩ | ⟨-, -, v, i, -, -, rfl⟩ | ⟨-, -, v, e, -, -, rfl⟩ |
    ⟨-, -, i, -, -, -, a, rest, -, -, rfl⟩ | ⟨-, -, i, -, -, -, ok, rest, -, rfl⟩ |
    ⟨hturn, hp, i, -, hk, rfl⟩ | ⟨hturn, rfl⟩ := step_next s t hstep
  · simp [hregs] at hne
  · simp at hne
  · simp at hne
  · simp at hne
  · simp at hne
  · simp at hne
  · exact .inr ⟨hturn, hp, hk, by simp, by simp⟩
  · exact .inl hturn

/-- Settles O46: the invariant ties BUSY to the phase on both sides of a step, and the phase changes as
`step_enters_xfer` and `step_leaves_xfer` say. -/
theorem busyFollowsThePhase : Obligations.BusyFollowsThePhase := by
  refine ⟨?changes, ?acceptance, ?completes, ?illegal⟩
  case changes =>
    intro s t hs hstep
    have ht : Inv t := stepKeepsInvariant s t hs hstep
    refine ⟨hs.busy_iff, ht.busy_iff, fun h0 h1 => ?_, fun h1 h0 => ?_⟩
    · exact step_enters_xfer hstep (hs.busy_eq_false_iff.1 h0) (ht.busy_iff.1 h1)
    · exact step_leaves_xfer hstep (hs.busy_iff.1 h1) (ht.busy_eq_false_iff.1 h0)
  case acceptance =>
    intro s v i hturn hp hinstr hd
    exact ⟨_, (step_accepts hturn hp hinstr hd).2, by simp, rfl⟩
  case completes =>
    intro s hs hturn hp hk
    obtain ⟨i, hi⟩ := hs.exists_inProgress hp
    exact ⟨_, step_completes hturn hp hi.running hk, by simp, by simp⟩
  case illegal =>
    intro s v hs hturn hp hinstr hillegal
    cases hd : decode v with
    | ok i => exact absurd hd (hillegal i)
    | error e =>
      exact ⟨_, step_records_illegal hturn hp hinstr hd, by simpa using hs.busy_eq_false_iff.2 hp⟩

/-- Settles O13: such a command is not the one `running`. -/
theorem otherCommandIsTurnedAway : Obligations.OtherCommandIsTurnedAway := by
  intro i s hp hne
  have hrun : running i s = false := by simpa [running] using hne
  exact exec_not_running i s hp hrun

/-- Settles O40: the state after reset is one that `resetCore` answers. -/
theorem invariantsHoldAtReset : Obligations.InvariantsHoldAtReset :=
  ⟨inv_resetCore State.reset, ⟨nofun, nofun⟩, statusInv_resetCore State.reset⟩

/-- Settles O54: the table of R32, entry by entry. -/
theorem resetState : Obligations.ResetState :=
  ⟨rfl, rfl, rfl, rfl, rfl, rfl, rfl, rfl, rfl, rfl, rfl, rfl, rfl, rfl, rfl, rfl, by decide, rfl, rfl, rfl, rfl⟩

/-! ## What a whole command depends on -/

/-- Two lists that agree in their first n elements split alike there. -/
theorem exists_take_append {α : Type} {n : Nat} {l l' : List α} (hlen : n ≤ l.length) (h : l.take n = l'.take n) :
    ∃ xs, xs.length = n ∧ l = xs ++ l.drop n ∧ l' = xs ++ l'.drop n :=
  ⟨l.take n, by simpa using hlen, (List.take_append_drop n l).symm, by rw [h, List.take_append_drop]⟩

/-- The whole command i ends from s and from s' with the same RESULT, RAW and STATUS (10_state.md R30). -/
def SameOutcome (i : Instr) (s s' : State) : Prop :=
  ∃ t t', runExec i (i.op.octets + 2) s = .next t ∧ runExec i (i.op.octets + 2) s' = .next t' ∧
    t.regs.result = t'.regs.result ∧ t.regs.raw = t'.regs.raw ∧ t.regs.status = t'.regs.status

section Command

variable {i : Instr} {s s' : State}

/-- STATUS after a completion does not depend on STATUS before it, where the reserved bits are 0. -/
theorem completionStatus_setBusy_congr (hs : Inv s) (hs' : Inv s') (trunc werr : Bool) (c : FClass) (n : Nat) :
    completionStatus trunc werr c n (setBusy true s.regs.status) =
      completionStatus trunc werr c n (setBusy true s'.regs.status) :=
  completionStatus_congr trunc werr c n fun b hb hr => by
    rw [(hs.legalStatus.setBusy true).reserved b hb hr, (hs'.legalStatus.setBusy true).reserved b hb hr]

/-- A read command reads int.buf in its own slots alone, which hold the answers of its transfers. -/
theorem sameOutcome_read (hr : i.op.isRead = true) (hs : Inv s) (hs' : Inv s') (hp : s.int.phase = .idle)
    (hp' : s'.int.phase = .idle) (octets : List Slot) (hlen : octets.length = i.op.octets) {rest rest' : List Slot}
    (hpend : s.source.pending = octets ++ rest) (hpend' : s'.source.pending = octets ++ rest') :
    SameOutcome i s s' := by
  obtain ⟨buf, k, hbuf, -, hrun⟩ := runExec_read i hr octets rest s hp hlen hpend
  obtain ⟨buf', k', hbuf', -, hrun'⟩ := runExec_read i hr octets rest' s' hp' hlen hpend'
  have hslots : ∀ j, j < i.op.octets → slotAt buf j = slotAt buf' j := fun j hj =>
    (hbuf j (hj.trans_eq hlen.symm)).trans (hbuf' j (hj.trans_eq hlen.symm)).symm
  refine ⟨_, _, hrun, hrun', ?_⟩
  rw [completion_of_read hr, completion_of_read hr]
  simp only [complete_result, complete_raw, complete_status, accept_status, accept_n, readValue_congr i hslots,
    assemble_congr _ _ _ hslots, completionStatus_setBusy_congr hs hs', and_self]

/-- An encode command reads int.tx alone, which is the packed OPND of its acceptance. -/
theorem sameOutcome_encode (hr : i.op.isRead = false) (hs : Inv s) (hs' : Inv s') (hp : s.int.phase = .idle)
    (hp' : s'.int.phase = .idle) (hopnd : s.regs.opnd = s'.regs.opnd) (oks : List Bool)
    (hlen : oks.length = i.op.octets) {rest rest' : List Bool}
    (hans : s.sink.answers = oks ++ rest) (hans' : s'.sink.answers = oks ++ rest') :
    SameOutcome i s s' := by
  obtain ⟨sent, k, -, -, -, hrun⟩ := runExec_encode i hr oks rest s hp hlen hans
  obtain ⟨sent', k', -, -, -, hrun'⟩ := runExec_encode i hr oks rest' s' hp' hlen hans'
  refine ⟨_, _, hrun, hrun', ?_⟩
  rw [completion_of_encode hr, completion_of_encode hr]
  simp only [complete_result, complete_raw, complete_status, accept_status, accept_n, accept_tx, hopnd,
    completionStatus_setBusy_congr hs hs', and_self]

end Command

/-- Settles O22: equal answers are one list that both runs take, so `sameOutcome_read` or `sameOutcome_encode` holds. -/
theorem commandDependsOnlyOnItsInputs : Obligations.CommandDependsOnlyOnItsInputs := by
  intro i s s' hs hs' hp hp' hread hencode
  cases hr : i.op.isRead with
  | true =>
    obtain ⟨hle, htake⟩ := hread hr
    obtain ⟨octets, hlen, hpend, hpend'⟩ := exists_take_append hle htake
    exact sameOutcome_read hr hs hs' hp hp' octets hlen hpend hpend'
  | false =>
    obtain ⟨hopnd, hle, htake⟩ := hencode hr
    obtain ⟨oks, hlen, hans, hans'⟩ := exists_take_append hle htake
    exact sameOutcome_encode hr hs hs' hp hp' hopnd oks hlen hans hans'

end Sys2Proof.Machine

/-! PROOFS. The statements of 20_memory.md: the transfer and completion steps, the octet sequences, waiting, byte order,
the order of events, and the register window on the bus. -/

/-! ## What a step leaves of the schedule -/

namespace Sys2Proof.Machine

section Schedule

variable {s t : State}

/-- A command's own step leaves the host and the schedule alone. -/
theorem exec_outside {i : Instr} (h : exec i s = .next t) : t.host = s.host ∧ t.sched = s.sched := by
  obtain ⟨-, rfl⟩ | ⟨-, rfl⟩ | ⟨-, -, -, -, a, rest, -, -, rfl⟩ | ⟨-, -, -, -, ok, rest, -, rfl⟩ |
    ⟨-, -, -, rfl⟩ := exec_next i s t h
  · exact ⟨rfl, rfl⟩
  · exact ⟨rfl, rfl⟩
  · exact ⟨rfl, rfl⟩
  · exact ⟨rfl, rfl⟩
  · obtain ⟨_, _, _, hc⟩ := completion_eq_complete i s
    rw [hc]
    exact ⟨rfl, rfl⟩

/-- A step takes its turn from the schedule and leaves the rest of it. -/
theorem step_sched (h : step s = .next t) : t.sched = s.sched.tail := by
  cases hturn : nextTurn s with
  | host =>
    rw [step_host s hturn] at h
    exact (hostTurn_prog _ _ h).2
  | core =>
    rw [step_core s hturn] at h
    obtain ⟨-, rfl⟩ | ⟨-, i, -, he⟩ := coreTurn_next _ _ h
    · rfl
    · exact (exec_outside he).2
  | reset =>
    rw [step_reset s hturn] at h
    cases h
    rfl

/-- Where the schedule holds no reset, none is next: an exhausted schedule is CORE's or the host's. -/
theorem nextTurn_ne_reset (h : Turn.reset ∉ s.sched) : nextTurn s ≠ .reset := by
  unfold nextTurn
  split
  · next hs => exact fun he => h (by simp [hs, he])
  · split <;> simp

end Schedule

/-! ## Waiting for a silent collaborator -/

/-- Which command is in progress is a matter of the internal state alone. -/
theorem running_congr {i : Instr} {s t : State} (h : t.int = s.int) : running i t = running i s := by
  rw [running, running, h]

/-- The command i has a transfer to make and its collaborator has no answer (20_memory.md R36). -/
structure Waiting (i : Instr) (s : State) : Prop where
  phase : s.int.phase = .xfer
  running : running i s = true
  slot : s.int.k < s.int.n
  source : i.op.isRead = true → s.source.pending = []
  sink : i.op.isRead = false → s.sink.answers = []

section Waiting

variable {i : Instr} {s t : State}

/-- Only a reset ends the wait: a transfer would take an answer, and a completion needs int.k = int.n. -/
theorem Waiting.step_frame (hw : Waiting i s) (hturn : nextTurn s ≠ .reset) (h : step s = .next t) :
    t.regs = s.regs ∧ t.int = s.int ∧ t.source = s.source ∧ t.sink = s.sink := by
  obtain ⟨hp, hrun, hk, hsource, hsink⟩ := hw
  obtain ⟨-, hframe⟩ | ⟨-, hidle, -⟩ | ⟨-, hidle, -⟩ | ⟨-, hidle, -⟩ |
    ⟨-, -, j, hj, hr, -, a, rest, hpend, -⟩ | ⟨-, -, j, hj, hr, -, ok, rest, hans, -⟩ |
    ⟨-, -, j, -, hkn, -⟩ | ⟨hreset, -⟩ := step_next s t h
  · exact hframe
  · simp [hp] at hidle
  · simp [hp] at hidle
  · simp [hp] at hidle
  · obtain rfl := running_unique hrun hj
    simp [hsource hr] at hpend
  · obtain rfl := running_unique hrun hj
    simp [hsink hr] at hans
  · simp [hkn] at hk
  · exact absurd hreset hturn

theorem Waiting.congr (hw : Waiting i s) (hint : t.int = s.int) (hsource : t.source = s.source)
    (hsink : t.sink = s.sink) : Waiting i t where
  phase := by rw [hint]; exact hw.phase
  running := by rw [running_congr hint]; exact hw.running
  slot := by rw [hint]; exact hw.slot
  source := by rw [hsource]; exact hw.source
  sink := by rw [hsink]; exact hw.sink

/-- Any number of steps short of a reset: CORE and the two streams stay as they are. -/
theorem Waiting.runSteps_frame (m : Nat) (hw : Waiting i s) (hsched : Turn.reset ∉ s.sched)
    (h : runSteps m s = .next t) :
    t.regs = s.regs ∧ t.int = s.int ∧ t.source = s.source ∧ t.sink = s.sink := by
  induction m generalizing s with
  | zero => cases h; exact ⟨rfl, rfl, rfl, rfl⟩
  | succ m ih =>
    unfold runSteps at h
    split at h
    · next u hu =>
      obtain ⟨hregs, hint, hsource, hsink⟩ := hw.step_frame (nextTurn_ne_reset hsched) hu
      have hsched' : Turn.reset ∉ u.sched := by
        rw [step_sched hu]
        exact fun hmem => hsched (List.mem_of_mem_tail hmem)
      obtain ⟨h1, h2, h3, h4⟩ := ih (hw.congr hint hsource hsink) hsched' h
      exact ⟨h1.trans hregs, h2.trans hint, h3.trans hsource, h4.trans hsink⟩
    · cases h
    · cases h

end Waiting

/-- Settles O9: waiting is kept by every step short of a reset, so by any number of them. -/
theorem silentCollaboratorKeepsCoreWaiting : Obligations.SilentCollaboratorKeepsCoreWaiting := by
  intro m i s t hinv hp hrun hk hsource hsink hsched h
  have hw : Waiting i s := ⟨hp, hrun, hk, hsource, hsink⟩
  obtain ⟨hregs, hint, hso, hsi⟩ := hw.runSteps_frame m hsched h
  exact ⟨hint, hregs, hso, hsi, by rw [hregs]; exact hinv.busy_iff.2 hp⟩

/-! ## The invariant of the octet sequences -/

section TraceInv

variable {s t : State} {i : Instr}

theorem traceInv_of_idle (hp : s.int.phase = .idle) : TraceInv s where
  read := fun h => by rw [hp] at h; cases h
  sent := fun h => by rw [hp] at h; cases h

theorem TraceInv.congr (h : TraceInv s) (hint : t.int = s.int) (hsource : t.source = s.source)
    (hsink : t.sink = s.sink) : TraceInv t where
  read := by simpa only [running_congr hint, hint, hsource] using h.read
  sent := by simpa only [running_congr hint, hint, hsink] using h.sent

/-- At its acceptance a command has taken and sent nothing. -/
theorem traceInv_accept (i : Instr) (tx : Word) (s : State) : TraceInv (accept i tx s) where
  read := fun _ _ _ _ => by simp
  sent := fun _ _ _ _ => by simp

/-- The last k + 1 entries of a list that has grown by one. -/
theorem drop_concat {α : Type} (k : Nat) (l : List α) (a : α) :
    (l ++ [a]).drop ((l ++ [a]).length - (k + 1)) = l.drop (l.length - k) ++ [a] :=
  List.rtake_concat_succ l k a

/-- The first k + 1 entries of int.buf once entry k is stored. -/
theorem take_setIfInBounds (buf : Vector Slot 8) {k : Nat} (hk : k < 8) (a : Slot) :
    (buf.setIfInBounds k a).toList.take (k + 1) = buf.toList.take k ++ [a] := by
  rw [List.take_add_one]
  simp [hk, List.take_set_of_le]

/-- A read transfer appends its answer to the octets consumed and to the slots filled (20_memory.md R38). -/
theorem TraceInv.storeSlot (h : TraceInv s) (hp : s.int.phase = .xfer) (hrun : running i s = true)
    (hr : i.op.isRead = true) (hk : s.int.k < s.int.n) (hk8 : s.int.k.toNat < 8) (a : Slot) (rest : List Slot) :
    TraceInv (storeSlot a rest s) := by
  obtain ⟨hle, hcons, htrunc⟩ := h.read hp i hrun hr
  have hk1 := toNat_add_one_of_lt s.int.k s.int.n hk
  constructor
  case read =>
    intro _ _ _ _
    simp only [storeSlot_int, storeSlot_consumed, hk1, take_setIfInBounds _ hk8, drop_concat, hcons, htrunc]
    simp [hle]
  case sent =>
    intro _ j hj hjr
    obtain rfl := running_unique (s := s) hrun hj
    simp [hr] at hjr

/-- A write transfer appends the octet of its slot to the octets sent (20_memory.md R39). -/
theorem TraceInv.sendSlot (h : TraceInv s) (hp : s.int.phase = .xfer) (hrun : running i s = true)
    (hr : i.op.isRead = false) (hk : s.int.k < s.int.n) (ok : Bool) (rest : List Bool) :
    TraceInv (sendSlot ok rest s) := by
  obtain ⟨hle, hsent, hwerr⟩ := h.sent hp i hrun hr
  have hk1 := toNat_add_one_of_lt s.int.k s.int.n hk
  constructor
  case read =>
    intro _ j hj hjr
    obtain rfl := running_unique (s := s) hrun hj
    simp [hr] at hjr
  case sent =>
    intro _ _ _ _
    simp only [sendSlot_int, sendSlot_sent, hk1, drop_concat, List.map_append, hsent, hwerr, List.range_succ]
    simp [hle, nextOctet]

end TraceInv

/-- Settles O42: a command starts with nothing taken or sent, each transfer appends one entry to both sides, and when
IDLE the invariant says nothing. -/
theorem stepKeepsTraceInvariant : Obligations.StepKeepsTraceInvariant := by
  intro s t _ h hstep
  have hpop : TraceInv (popTurn s) := h.congr rfl rfl rfl
  obtain ⟨-, -, hint, hsource, hsink⟩ | ⟨-, hp, v, -, rfl⟩ | ⟨-, -, v, i, -, -, rfl⟩ |
    ⟨-, hp, v, e, -, -, rfl⟩ | ⟨-, hp, i, hrun, hr, hk, a, rest, -, hk8, rfl⟩ |
    ⟨-, hp, i, hrun, hr, hk, ok, rest, -, rfl⟩ | ⟨-, hp, i, hrun, -, rfl⟩ | ⟨-, rfl⟩ := step_next s t hstep
  · exact h.congr hint hsource hsink
  · exact traceInv_of_idle (by simpa using hp)
  · exact traceInv_accept i _ _
  · exact traceInv_of_idle hp
  · exact hpop.storeSlot hp hrun hr hk hk8 a rest
  · exact hpop.sendSlot hp hrun hr hk ok rest
  · exact traceInv_of_idle (by simp)
  · exact traceInv_of_idle rfl

end Sys2Proof.Machine

namespace Sys2Proof.Machine

/-! ## A command in progress -/

/-- Settles O49: of the effects `step_next` lists, those of XFER are the two transfers and the completion. -/
theorem commandInProgressIsFixed : Obligations.CommandInProgressIsFixed := by
  intro s t _ hp hturn hstep
  obtain ⟨-, hregs, hint, -⟩ | ⟨-, hidle, -⟩ | ⟨-, hidle, -⟩ | ⟨-, hidle, -⟩ |
    ⟨hcore, -, i, -, -, hk, a, rest, -, -, rfl⟩ | ⟨hcore, -, i, -, -, hk, ok, rest, -, rfl⟩ |
    ⟨hcore, -, i, -, hk, rfl⟩ | ⟨hreset, -⟩ := step_next s t hstep
  · simp [hp, hregs, hint]
  · simp [hp] at hidle
  · simp [hp] at hidle
  · simp [hp] at hidle
  · exact .inr ⟨hp, rfl, rfl, rfl, rfl, rfl, .inr ⟨hcore, toNat_add_one_of_lt _ _ hk⟩⟩
  · exact .inr ⟨hp, rfl, rfl, rfl, rfl, rfl, .inr ⟨hcore, toNat_add_one_of_lt _ _ hk⟩⟩
  · exact .inl ⟨by simp, hk, hcore⟩
  · exact absurd hreset hturn

/-- The source answers: the command in progress takes the answer (20_memory.md R38). -/
theorem exec_takes_answer {i : Instr} {s : State} (hr : i.op.isRead = true) (hp : s.int.phase = .xfer)
    (hrun : running i s = true) (hk : s.int.k < s.int.n) (hk8 : s.int.k.toNat < 8) {a : Slot} {rest : List Slot}
    (hpend : s.source.pending = a :: rest) : exec i s = .next (storeSlot a rest s) := by
  rw [exec_read_transfer i s hr hp hrun hk, readTransfer, hpend]
  exact if_pos hk8

/-- The sink answers: the command in progress sends its octet (20_memory.md R39). -/
theorem exec_sends_octet {i : Instr} {s : State} (hr : i.op.isRead = false) (hp : s.int.phase = .xfer)
    (hrun : running i s = true) (hk : s.int.k < s.int.n) {ok : Bool} {rest : List Bool}
    (hans : s.sink.answers = ok :: rest) : exec i s = .next (sendSlot ok rest s) := by
  rw [exec_write_transfer i s hr hp hrun hk, writeTransfer, hans]

/-- Settles O7: the step is `storeSlot`, which writes one entry of int.buf. -/
theorem readTransferStep : Obligations.ReadTransferStep := by
  intro i s a rest hr hp hop hord hk hn hpend
  have hk8 : s.int.k.toNat < 8 := by omega
  exact ⟨_, exec_takes_answer hr hp (running_of hop hord) hk hk8 hpend, rfl, rfl,
    slotAt_setIfInBounds_self _ _ _ hk8, fun j hj => slotAt_setIfInBounds_of_ne _ _ _ _ hj, rfl,
    toNat_add_one_of_lt _ _ hk, hp, rfl, rfl, rfl, rfl, rfl, rfl, rfl, rfl, rfl⟩

/-- Settles O8: the step is `sendSlot`, and the octet it offers is that of the slot's significance. -/
theorem writeTransferStep : Obligations.WriteTransferStep := by
  intro i s ok rest hr hp hop hord hk hans
  refine ⟨_, exec_sends_octet hr hp (running_of hop hord) hk hans, rfl, ?_, rfl, toNat_add_one_of_lt _ _ hk, rfl, rfl,
    rfl, rfl⟩
  rw [sendSlot_sent, nextOctet, hord, sendOctet]
  cases i.order <;> rfl

/-! ## Accesses outside the window -/

theorem wellFormed_iff (a : BusAddr) :
    a.wellFormed = true ↔ a.bits = 64 ∧ a.offset % 8 = 0 ∧ a.offset ≤ 0x38 := by
  simp only [BusAddr.wellFormed, Bool.and_eq_true, decide_eq_true_eq]
  omega

theorem coreTurn_ne_refused (s : State) (r : Refusal) : coreTurn s ≠ .refused r := by
  unfold coreTurn
  split
  · nofun
  · split
    · exact exec_ne_refused _ _ _
    · nofun

theorem writeReg_ne_refused (number : Nat) (v : Word) (s : State) (r : Refusal) :
    writeReg number v s ≠ .refused r := by
  unfold writeReg writeCmd
  split
  · split
    · split
      · exact exec_ne_refused _ _ _
      · nofun
    · nofun
  · nofun
  · nofun

/-- A host instruction is refused exactly when its access is outside the interface (20_memory.md R46). -/
theorem runHostInstr_refused_iff (i : HostInstr) (s : State) (r : Refusal) :
    runHostInstr i s = .refused r ↔ r = .busBadAccess ∧ ∃ a : BusAddr,
      ((∃ v, i = .wr a v) ∨ ∃ t, i = .rd t a) ∧ a.wellFormed = false := by
  cases i with
  | wr a v =>
    cases ha : a.wellFormed <;> simp [runHostInstr, ha, writeReg_ne_refused, @eq_comm _ r]
  | rd t a => cases ha : a.wellFormed <;> simp [runHostInstr, ha, @eq_comm _ r]
  | andi td ts imm => simp [runHostInstr]
  | bnz t target => by_cases ht : temp t s = 0#64 <;> simp [runHostInstr, ht]
  | addi td ts imm => simp [runHostInstr]

theorem hostTurn_refused_iff (s : State) (r : Refusal) :
    hostTurn s = .refused r ↔ ∃ i, s.host.prog[s.host.pc]? = some i ∧ runHostInstr i s = .refused r := by
  unfold hostTurn
  split
  · next i hi => simp [hi]
  · next hnone => simp [hnone]

theorem step_refused_iff (s : State) (r : Refusal) :
    step s = .refused r ↔ nextTurn s = .host ∧ hostTurn (popTurn s) = .refused r := by
  cases hturn : nextTurn s with
  | host => simp [step_host s hturn]
  | core => simp [step_core s hturn, coreTurn_ne_refused]
  | reset => simp [step_reset s hturn]

/-- Settles O52: only the host's turn is ever refused, and only for its access. -/
theorem badBusAccessIsRefused : Obligations.BadBusAccessIsRefused := by
  intro s r
  simp only [step_refused_iff, hostTurn_refused_iff, runHostInstr_refused_iff, ← wellFormed_iff, popTurn_host]
  constructor
  · rintro ⟨hturn, i, hi, rfl, a, ha, hwf⟩
    refine ⟨rfl, hturn, a, ?_, by simp [hwf]⟩
    obtain ⟨v, rfl⟩ | ⟨t, rfl⟩ := ha
    · exact .inl ⟨v, hi⟩
    · exact .inr ⟨t, hi⟩
  · rintro ⟨rfl, hturn, a, ⟨v, hi⟩ | ⟨t, hi⟩, hwf⟩
    · exact ⟨hturn, _, hi, rfl, a, .inl ⟨v, rfl⟩, by simpa using hwf⟩
    · exact ⟨hturn, _, hi, rfl, a, .inr ⟨t, rfl⟩, by simpa using hwf⟩

/-! ## The place of the window -/

/-- Settles O59: the offset in the window is addr - base, a multiple of 8 below 0x40. -/
theorem windowHasEightSlots : Obligations.WindowHasEightSlots := by
  intro base addr
  constructor
  · rintro ⟨a, ha, hwf⟩
    have haccess := ha
    unfold windowAccess at ha
    split at ha
    · next hin =>
      cases ha
      obtain ⟨-, hmod, hle⟩ := (wellFormed_iff _).1 hwf
      dsimp only at hmod hle
      refine ⟨(addr - base) / 8, by omega, by omega, ?_⟩
      rw [haccess, BusAddr.ofReg, show 8 * ((addr - base) / 8) = addr - base by omega]
    · cases ha
  · rintro ⟨number, hnumber, -, haccess⟩
    refine ⟨_, haccess, (wellFormed_iff _).2 ⟨rfl, ?_, ?_⟩⟩ <;> simp only [BusAddr.ofReg] <;> omega

end Sys2Proof.Machine

namespace Sys2Proof.Machine

/-! ## Octets and words -/

theorem toNat_append_eq {m n : ℕ} (x : BitVec m) (y : BitVec n) :
    (x ++ y).toNat = x.toNat * 2 ^ n + y.toNat := by
  rw [BitVec.toNat_append, ← Nat.shiftLeft_add_eq_or_of_lt y.isLt, Nat.shiftLeft_eq]

/-- The octet of significance j of an assembled word (20_memory.md R42). -/
def wordOctet (fill : Byte) (order : Order) (n : Nat) (buf : Vector Slot 8) (j : Nat) : Byte :=
  fillOctet fill (slotAt buf (significance order n j))

theorem assemble_eq_digitSum (fill : Byte) (order : Order) (n : Nat) (buf : Vector Slot 8) :
    assemble fill order n buf =
      BitVec.ofNat 64 (∑ j ∈ Finset.range n, (wordOctet fill order n buf j).toNat * 256 ^ j) :=
  congrArg (BitVec.ofNat 64) (octetSum_eq_digitSum (fun k => (fillOctet fill (slotAt buf k)).toNat) order n)

/-- A word of at most eight octets is the sum itself. -/
theorem toNat_assemble (fill : Byte) (order : Order) {n : Nat} (buf : Vector Slot 8) (hn : n ≤ 8) :
    (assemble fill order n buf).toNat =
      ∑ j ∈ Finset.range n, (wordOctet fill order n buf j).toNat * 256 ^ j := by
  rw [assemble_eq_digitSum, BitVec.toNat_ofNat, Nat.mod_eq_of_lt]
  calc _ < 256 ^ n := digitSum_lt _ (fun _ => BitVec.isLt _) n
    _ ≤ 256 ^ 8 := Nat.pow_le_pow_right (by decide) hn

theorem toNat_sendOctet (order : Order) (n k : Nat) (w : Word) :
    (sendOctet order n k w).toNat = w.toNat / 256 ^ significance order n k % 256 := by
  rw [sendOctet, BitVec.extractLsb'_toNat, Nat.shiftRight_eq_div_pow, pow_mul]
  rfl

/-- Settles O27: the octets are the digits of a base-256 sum, and `significance` is its own inverse. -/
theorem sendUndoesAssemble : Obligations.SendUndoesAssemble := by
  intro fill order n buf hn
  rw [toNat_assemble fill order buf hn]
  refine ⟨digitSum_lt _ (fun _ => BitVec.isLt _) n, fun k hk => BitVec.eq_of_toNat_eq ?_⟩
  rw [toNat_sendOctet, toNat_assemble fill order buf hn,
    digitSum_digit _ (fun _ => BitVec.isLt _) n _ (significance_lt order hk), wordOctet,
    significance_significance order hk]

/-! The words of two, four and eight octets, written out. -/

theorem toNat_word2 (a b : Byte) : (word2 a b).toNat = b.toNat + a.toNat * 256 := by
  rw [word2, BitVec.toNat_setWidth, toNat_append_eq]
  omega

theorem toNat_word4 (a b c d : Byte) :
    (word4 a b c d).toNat = d.toNat + c.toNat * 256 + b.toNat * 256 ^ 2 + a.toNat * 256 ^ 3 := by
  simp only [word4, BitVec.toNat_setWidth, toNat_append_eq]
  omega

theorem toNat_word8 (a b c d e f g h : Byte) : (word8 a b c d e f g h).toNat =
    h.toNat + g.toNat * 256 + f.toNat * 256 ^ 2 + e.toNat * 256 ^ 3 + d.toNat * 256 ^ 4 + c.toNat * 256 ^ 5 +
      b.toNat * 256 ^ 6 + a.toNat * 256 ^ 7 := by
  simp only [word8, toNat_append_eq]
  omega

section Words

variable (fill : Byte) (order : Order) (buf : Vector Slot 8)

theorem assemble_two : assemble fill order 2 buf =
    word2 (wordOctet fill order 2 buf 1) (wordOctet fill order 2 buf 0) := by
  apply BitVec.eq_of_toNat_eq
  rw [toNat_assemble _ _ _ (by decide), toNat_word2]
  simp [Finset.sum_range_succ]

theorem assemble_four : assemble fill order 4 buf =
    word4 (wordOctet fill order 4 buf 3) (wordOctet fill order 4 buf 2) (wordOctet fill order 4 buf 1)
      (wordOctet fill order 4 buf 0) := by
  apply BitVec.eq_of_toNat_eq
  rw [toNat_assemble _ _ _ (by decide), toNat_word4]
  simp [Finset.sum_range_succ]

theorem assemble_eight : assemble fill order 8 buf =
    word8 (wordOctet fill order 8 buf 7) (wordOctet fill order 8 buf 6) (wordOctet fill order 8 buf 5)
      (wordOctet fill order 8 buf 4) (wordOctet fill order 8 buf 3) (wordOctet fill order 8 buf 2)
      (wordOctet fill order 8 buf 1) (wordOctet fill order 8 buf 0) := by
  apply BitVec.eq_of_toNat_eq
  rw [toNat_assemble _ _ _ (by decide), toNat_word8]
  simp [Finset.sum_range_succ]

end Words

/-! ## Integer values -/

/-- An octet as the most significant one is signed: 0x80 is flipped and subtracted (40_integer.md R62). -/
theorem topInt_toNat : ∀ d : Byte, topInt (d.toNat : Int) = d.toInt := by decide

theorem topInt_lowContribution (x : Slot) : topInt (lowContribution x) = topContribution x := by
  unfold lowContribution topContribution
  split
  · rfl
  · exact topInt_toNat x.d

theorem sigInt_eq (order : Order) (K : Nat) (buf : Vector Slot 8) (j : Nat) :
    sigInt order K buf j = lowContribution (slotAt buf (significance order K j)) := by
  cases order <;> rfl

/-- The value of K octets: the signed top one and the lower ones (40_integer.md R61 to R63). -/
theorem intValue_eq (order : Order) (K : Nat) (buf : Vector Slot 8) : intValue order K buf =
    topContribution (slotAt buf (significance order K (K - 1))) * 256 ^ (K - 1) +
      ∑ j ∈ Finset.range (K - 1), lowContribution (slotAt buf (significance order K j)) * 256 ^ j := by
  simp only [intValue, sigInt_eq, topInt_lowContribution, sum_map_range]

theorem intValue_two (order : Order) (buf : Vector Slot 8) : intValue order 2 buf =
    topContribution (slotAt buf (significance order 2 1)) * 256 +
      lowContribution (slotAt buf (significance order 2 0)) := by
  simp [intValue_eq]

theorem intValue_four (order : Order) (buf : Vector Slot 8) : intValue order 4 buf =
    topContribution (slotAt buf (significance order 4 3)) * 256 ^ 3 +
      lowContribution (slotAt buf (significance order 4 2)) * 256 ^ 2 +
      lowContribution (slotAt buf (significance order 4 1)) * 256 +
      lowContribution (slotAt buf (significance order 4 0)) := by
  simp only [intValue_eq, Nat.reduceSub, Finset.sum_range_succ, Finset.sum_range_zero]
  ring

theorem lowOctets_four (w : Word) : lowOctets 4 w = (w.extractLsb' 0 32).setWidth 64 := by
  apply BitVec.eq_of_toNat_eq
  rw [lowOctets_toNat, BitVec.toNat_setWidth, BitVec.extractLsb'_toNat]
  omega

theorem lowOctets_eight (w : Word) : lowOctets 8 w = w := by
  apply BitVec.eq_of_toNat_eq
  rw [lowOctets_toNat]
  exact Nat.mod_eq_of_lt w.isLt

/-! ## The completion step -/

/-- A completion writes every field of STATUS and keeps the reserved bits (20_memory.md R41). -/
theorem completedStatus_completionStatus (trunc werr : Bool) (c : FClass) (op : Op) (w : Word) :
    CompletedStatus w (completionStatus trunc werr c op.octets w) (classCode c) trunc werr op.octets :=
  ⟨by simp, by simp, by simp, by simp, by simp,
    noctOf_completionStatus _ _ _ _ _ (by have := octets_le op; omega),
    fun b hb hr => reserved_completionStatus _ _ _ _ w b hb hr⟩

section Completion

variable {i : Instr} {s : State}

theorem completesWith_complete (hn : s.int.n.toNat = i.op.octets) (result raw : Word) (c : FClass)
    (trunc werr : Bool) : CompletesWith s (complete result raw c trunc werr s) result raw (classCode c) trunc werr
      i.op.octets := by
  refine ⟨rfl, rfl, ?_, rfl, rfl, rfl, rfl, rfl, rfl, rfl⟩
  rw [complete_status, hn]
  exact completedStatus_completionStatus trunc werr c i.op s.regs.status

theorem exec_of_completing (h : Completing i s) : exec i s = .next (completion i s) := by
  obtain ⟨hp, hop, hord, -, hk⟩ := h
  exact exec_complete i s hp (running_of hop hord) hk

/-- The command i ends in one step with this RESULT, RAW, CLASS, TRUNC and WERR. -/
def EndsWith (i : Instr) (s : State) (result raw : Word) (c : Nat) (trunc werr : Bool) : Prop :=
  ∃ t, exec i s = .next t ∧ CompletesWith s t result raw c trunc werr i.op.octets

variable (h : Completing i s)
include h

theorem endsWith_read (hr : i.op.isRead = true) :
    EndsWith i s (readValue i s.int.buf).1 (assemble Config.eosFill i.order i.op.octets s.int.buf)
      (classCode (readValue i s.int.buf).2) s.int.trunc false := by
  refine ⟨_, exec_of_completing h, ?_⟩
  obtain ⟨-, -, -, hn, -⟩ := h
  rw [completion_of_read hr]
  exact completesWith_complete hn _ _ _ _ _

/-- An integer read: RESULT is its value z, RAW its word w. -/
theorem endsWith_integer (hr : i.op.isRead = true)
    (hvalue : readValue i s.int.buf = intResult i.order i.op.octets s.int.buf) {z : Int} {w : Word}
    (hz : intValue i.order i.op.octets s.int.buf = z)
    (hw : assemble Config.eosFill i.order i.op.octets s.int.buf = w) :
    EndsWith i s (BitVec.ofInt 64 z) w 0 s.int.trunc false := by
  have hend := endsWith_read h hr
  rw [hvalue, hw] at hend
  subst hz
  exact hend

/-- A float decode takes RESULT, RAW and CLASS of its word w. -/
theorem endsWith_decode (hr : i.op.isRead = true) {T : Format}
    (hvalue : readValue i s.int.buf = floatResult T i.order i.op.octets s.int.buf) {w : Word}
    (hw : assemble Config.eosFill i.order i.op.octets s.int.buf = w) :
    EndsWith i s (decodeWord T w) w (classCode (classOf T w)) s.int.trunc false := by
  have hend := endsWith_read h hr
  rw [hvalue] at hend
  subst hw
  exact hend

/-- A float encode takes RESULT, RAW and CLASS of the word w it has emitted. -/
theorem endsWith_encode (hr : i.op.isRead = false) {w : Word} (hw : lowOctets i.op.octets s.int.tx = w) :
    EndsWith i s w w (classCode (classOf (targetFormat i) w)) false s.int.werr := by
  refine ⟨_, exec_of_completing h, ?_⟩
  obtain ⟨-, -, -, hn, -⟩ := h
  rw [completion_of_encode hr, hw]
  exact completesWith_complete hn _ _ _ _ _

end Completion

/-- Settles O10: the value and the word of two and of four octets, in both orders. -/
theorem integerReadCompletion : Obligations.IntegerReadCompletion := by
  intro s
  exact ⟨fun h => endsWith_integer h rfl rfl (intValue_two _ _) (assemble_two _ _ _),
    fun h => endsWith_integer h rfl rfl (intValue_two _ _) (assemble_two _ _ _),
    fun h => endsWith_integer h rfl rfl (intValue_four _ _) (assemble_four _ _ _),
    fun h => endsWith_integer h rfl rfl (intValue_four _ _) (assemble_four _ _ _)⟩

/-- Settles O11: the word of four and of eight octets, in both orders. -/
theorem floatDecodeCompletion : Obligations.FloatDecodeCompletion := by
  intro s
  exact ⟨fun h => endsWith_decode h rfl rfl (assemble_four _ _ _),
    fun h => endsWith_decode h rfl rfl (assemble_four _ _ _),
    fun h => endsWith_decode h rfl rfl (assemble_eight _ _ _),
    fun h => endsWith_decode h rfl rfl (assemble_eight _ _ _)⟩

/-- Settles O12: the low four and the low eight octets of int.tx, in both orders. -/
theorem floatEncodeCompletion : Obligations.FloatEncodeCompletion := by
  intro s
  exact ⟨fun h => endsWith_encode h rfl (lowOctets_four _), fun h => endsWith_encode h rfl (lowOctets_four _),
    fun h => endsWith_encode h rfl (lowOctets_eight _), fun h => endsWith_encode h rfl (lowOctets_eight _)⟩

end Sys2Proof.Machine

namespace Sys2Proof.Machine

/-! ## Byte order -/

/-- The BE word of a buffer is the LE word of its mirror image (20_memory.md R44). -/
theorem assemble_be_eq_le (fill : Byte) {n : Nat} {buf buf' : Vector Slot 8}
    (h : ∀ k, k < n → slotAt buf' k = slotAt buf (n - 1 - k)) :
    assemble fill .be n buf = assemble fill .le n buf' := by
  rw [assemble_eq_digitSum, assemble_eq_digitSum]
  refine congrArg _ (Finset.sum_congr rfl fun j hj => ?_)
  simp only [wordOctet, significance, h j (Finset.mem_range.1 hj)]

theorem intValue_be_eq_le {K : Nat} (hK : 1 ≤ K) {buf buf' : Vector Slot 8}
    (h : ∀ k, k < K → slotAt buf' k = slotAt buf (K - 1 - k)) : intValue .be K buf = intValue .le K buf' := by
  rw [intValue_eq, intValue_eq]
  simp only [significance, h (K - 1) (by omega)]
  refine congrArg _ (Finset.sum_congr rfl fun j hj => ?_)
  rw [h j (by have := Finset.mem_range.1 hj; omega)]

/-- RESULT and CLASS of a read command, too, see only the significance of each octet. -/
theorem readValue_be_eq_le {op : Op} (hr : op.isRead = true) {buf buf' : Vector Slot 8}
    (h : ∀ k, k < op.octets → slotAt buf' k = slotAt buf (op.octets - 1 - k)) :
    readValue (Instr.ofParts op .be) buf = readValue (Instr.ofParts op .le) buf' := by
  cases op with
  | readInt16 => exact congrArg (fun z => (twos64 z, FClass.none)) (intValue_be_eq_le (by decide) h)
  | readInt32 => exact congrArg (fun z => (twos64 z, FClass.none)) (intValue_be_eq_le (by decide) h)
  | decodeF32 => exact congrArg (fun w => (decodeWord .binary32 w, classOf .binary32 w)) (assemble_be_eq_le _ h)
  | decodeF64 => exact congrArg (fun w => (decodeWord .binary64 w, classOf .binary64 w)) (assemble_be_eq_le _ h)
  | encodeF32 => cases hr
  | encodeF64 => cases hr

/-- Slots that hold a list and slots that hold its reversal are mirror images. -/
theorem slotAt_mirror {octets : List Slot} {buf buf' : Vector Slot 8}
    (hbuf : ∀ j, (h : j < octets.length) → slotAt buf j = octets[j])
    (hbuf' : ∀ j, (h : j < octets.reverse.length) → slotAt buf' j = octets.reverse[j]) {k : Nat}
    (hk : k < octets.length) : slotAt buf' k = slotAt buf (octets.length - 1 - k) := by
  rw [hbuf' k (by simpa using hk), hbuf _ (by omega), List.getElem_reverse]

/-- Settles O26: both runs end in the completion of mirrored buffers. -/
theorem byteOrderIsAPermutation : Obligations.ByteOrderIsAPermutation := by
  refine ⟨fun fill n buf buf' h => assemble_be_eq_le fill h, fun _ _ _ _ => rfl, ?_⟩
  intro op s s' octets rest rest' hr hs hs' hp hp' hlen hpend hpend'
  have hrBe : (Instr.ofParts op .be).op.isRead = true := by rw [op_ofParts, hr]
  have hrLe : (Instr.ofParts op .le).op.isRead = true := by rw [op_ofParts, hr]
  obtain ⟨buf, k, hbuf, -, hrun⟩ := runExec_read _ hrBe octets rest s hp (by rw [op_ofParts, hlen]) hpend
  obtain ⟨buf', k', hbuf', -, hrun'⟩ :=
    runExec_read _ hrLe octets.reverse rest' s' hp' (by rw [List.length_reverse, op_ofParts, hlen]) hpend'
  have hmirror : ∀ j, j < op.octets → slotAt buf' j = slotAt buf (op.octets - 1 - j) := by
    rw [← hlen]
    exact fun j hj => slotAt_mirror hbuf hbuf' hj
  rw [op_ofParts] at hrun hrun'
  refine ⟨_, _, hrun, hrun', ?_⟩
  rw [completion_of_read hrBe, completion_of_read hrLe]
  simp only [complete_result, complete_raw, complete_status, accept_status, accept_n, op_ofParts, order_ofParts,
    readValue_be_eq_le hr hmirror, assemble_be_eq_le _ hmirror, List.any_reverse,
    completionStatus_setBusy_congr hs hs', and_self]

end Sys2Proof.Machine

namespace Sys2Proof.Machine

/-! ## Exactly N transfers -/

@[simp] theorem completion_source (i : Instr) (s : State) : (completion i s).source = s.source := by
  obtain ⟨_, _, _, h⟩ := completion_eq_complete i s
  rw [h, complete_source]

@[simp] theorem completion_sink (i : Instr) (s : State) : (completion i s).sink = s.sink := by
  obtain ⟨_, _, _, h⟩ := completion_eq_complete i s
  rw [h, complete_sink]

/-- The command i is in progress and has made m of its transfers. -/
structure AfterTransfers (i : Instr) (m : Nat) (s : State) : Prop where
  phase : s.int.phase = .xfer
  running : running i s = true
  octets : s.int.n.toNat = i.op.octets
  slot : s.int.k.toNat = m

/-- After the N-th transfer the next step is the completion (20_memory.md R40, R41). -/
theorem AfterTransfers.exec_last {i : Instr} {s : State} (h : AfterTransfers i i.op.octets s) :
    exec i s = .next (completion i s) :=
  exec_complete i s h.phase h.running (BitVec.eq_of_toNat_eq (h.slot.trans h.octets.symm))

/-- What the source has given to a read command that has made m transfers. -/
def ReadFirst (m : Nat) (s u : State) : Prop :=
  u.source.pending = s.source.pending.drop m ∧
    u.source.consumed = s.source.consumed ++ s.source.pending.take m ∧ u.sink = s.sink

/-- What an encode command that has made m transfers has sent. -/
def SentFirst (i : Instr) (m : Nat) (s u : State) : Prop :=
  u.source = s.source ∧ u.sink.answers = s.sink.answers.drop m ∧
    u.sink.sent.map (fun x => x.d) = s.sink.sent.map (fun x => x.d) ++
      (List.range m).map (fun k => sendOctet i.order i.op.octets k u.int.tx) ∧
    u.sink.sent.map (fun x => x.ok) = s.sink.sent.map (fun x => x.ok) ++ s.sink.answers.take m

section Transfers

variable {i : Instr} {s : State}

theorem runExec_firstReads (hr : i.op.isRead = true) (hp : s.int.phase = .idle) {m : Nat}
    (hm : m ≤ i.op.octets) (hlen : i.op.octets ≤ s.source.pending.length) :
    ∃ u, runExec i (m + 1) s = .next u ∧ AfterTransfers i m u ∧ ReadFirst m s u := by
  have hmlen : (s.source.pending.take m).length = m := List.length_take_of_le (hm.trans hlen)
  obtain ⟨buf, k, hrun, hk, -⟩ := runExec_readTransfers i hr (s.source.pending.take m) (s.source.pending.drop m)
    (accept i (acceptTx i s) s) rfl (running_of rfl rfl) (by simpa [hmlen] using hm) (by simp [octets_le])
    (List.take_append_drop m _).symm
  rw [hmlen] at hrun hk
  rw [runExec_succ_of_next _ (exec_idle i s hp), hrun]
  exact ⟨_, rfl, ⟨rfl, running_of rfl rfl, toNat_octets i.op, by simpa using hk⟩, rfl, rfl, rfl⟩

theorem runExec_firstWrites (hr : i.op.isRead = false) (hp : s.int.phase = .idle) {m : Nat}
    (hm : m ≤ i.op.octets) (hlen : i.op.octets ≤ s.sink.answers.length) :
    ∃ u, runExec i (m + 1) s = .next u ∧ AfterTransfers i m u ∧ SentFirst i m s u := by
  have hmlen : (s.sink.answers.take m).length = m := List.length_take_of_le (hm.trans hlen)
  obtain ⟨sent, k, hrun, hk, hoks, hds⟩ := runExec_writeTransfers i hr (s.sink.answers.take m)
    (s.sink.answers.drop m) (accept i (acceptTx i s) s) rfl (running_of rfl rfl) (by simpa [hmlen] using hm)
    (List.take_append_drop m _).symm
  rw [hmlen] at hrun hk hds
  rw [runExec_succ_of_next _ (exec_idle i s hp), hrun]
  refine ⟨_, rfl, ⟨rfl, running_of rfl rfl, toNat_octets i.op, by simpa using hk⟩, rfl, rfl, ?_, ?_⟩
  · simp [hds]
  · simp [hoks]

end Transfers

/-- Settles O20: acceptance and m transfers, and after the N-th one the completion. -/
theorem commandMakesExactlyNTransfers : Obligations.CommandMakesExactlyNTransfers := by
  intro i s hp hsource hsink
  have hruns : ∀ m, m ≤ i.op.octets → ∃ u, runExec i (m + 1) s = .next u ∧ AfterTransfers i m u ∧
      (i.op.isRead = true → ReadFirst m s u) ∧ (i.op.isRead = false → SentFirst i m s u) := by
    intro m hm
    cases hr : i.op.isRead with
    | true =>
      obtain ⟨u, hrun, hafter, hread⟩ := runExec_firstReads hr hp hm (hsource hr)
      exact ⟨u, hrun, hafter, fun _ => hread, nofun⟩
    | false =>
      obtain ⟨u, hrun, hafter, hsent⟩ := runExec_firstWrites hr hp hm (hsink hr)
      exact ⟨u, hrun, hafter, nofun, fun _ => hsent⟩
  constructor
  · intro m hm
    obtain ⟨u, hrun, hafter, hstreams⟩ := hruns m hm
    exact ⟨u, hrun, hafter.phase, hafter.slot, hstreams⟩
  · obtain ⟨u, hrun, hafter, -⟩ := hruns i.op.octets le_rfl
    refine ⟨u, completion i u, hrun, ?_, by simp, by simp, by simp⟩
    rw [show i.op.octets + 2 = i.op.octets + 1 + 1 from rfl, runExec_add _ 1 hrun,
      runExec_succ_of_next 0 hafter.exec_last, runExec_zero]

end Sys2Proof.Machine

namespace Sys2Proof.Machine

/-! ## The order of events -/

/-- The state with another host and another schedule: what CORE's own steps neither read nor write. -/
def State.withOutside (h : HostAgent) (q : List Turn) (s : State) : State := { s with host := h, sched := q }

/-- The command i has `left` transfers to make, and its collaborator has an answer for each. -/
structure CanFinish (i : Instr) (left : Nat) (s : State) : Prop where
  phase : s.int.phase = .xfer
  running : running i s = true
  octets : s.int.n.toNat ≤ 8
  remaining : s.int.k.toNat + left = s.int.n.toNat
  source : i.op.isRead = true → left ≤ s.source.pending.length
  sink : i.op.isRead = false → left ≤ s.sink.answers.length

section CanFinish

variable {i : Instr} {left : Nat} {c : State}

/-- With a transfer left, the next step makes it, whatever stands outside. -/
theorem CanFinish.exec_transfer (hc : CanFinish i (left + 1) c) :
    ∃ c', CanFinish i left c' ∧ exec i c = .next c' ∧
      ∀ h q, exec i (c.withOutside h q) = .next (c'.withOutside h q) := by
  obtain ⟨hp, hrun, hn, hleft, hsource, hsink⟩ := hc
  have hk : c.int.k.toNat < c.int.n.toNat := by omega
  have hk1 := toNat_add_one_of_lt _ _ hk
  cases hr : i.op.isRead with
  | true =>
    obtain ⟨a, rest, hpend⟩ := List.exists_cons_of_length_pos (Nat.zero_lt_of_lt (hsource hr))
    refine ⟨storeSlot a rest c,
      ⟨hp, hrun, hn, by simp only [storeSlot_int, hk1]; omega, fun _ => ?_, fun h => ?_⟩,
      exec_takes_answer hr hp hrun hk (hk.trans_le hn) hpend,
      fun h q => exec_takes_answer (s := c.withOutside h q) hr hp hrun hk (hk.trans_le hn) hpend⟩
    · simpa [hpend] using hsource hr
    · simp [hr] at h
  | false =>
    obtain ⟨ok, rest, hans⟩ := List.exists_cons_of_length_pos (Nat.zero_lt_of_lt (hsink hr))
    refine ⟨sendSlot ok rest c,
      ⟨hp, hrun, hn, by simp only [sendSlot_int, hk1]; omega, fun h => ?_, fun _ => ?_⟩,
      exec_sends_octet hr hp hrun hk hans,
      fun h q => exec_sends_octet (s := c.withOutside h q) hr hp hrun hk hans⟩
    · simp [hr] at h
    · simpa [hans] using hsink hr

theorem completion_withOutside (i : Instr) (c : State) (h : HostAgent) (q : List Turn) :
    completion i (c.withOutside h q) = (completion i c).withOutside h q := by
  unfold completion
  split <;> rfl

/-- With no transfer left, the next step is the completion, whatever stands outside. -/
theorem CanFinish.exec_completion (hc : CanFinish i 0 c) : exec i c = .next (completion i c) ∧
    ∀ h q, exec i (c.withOutside h q) = .next ((completion i c).withOutside h q) := by
  have hk : c.int.k = c.int.n := BitVec.eq_of_toNat_eq hc.remaining
  refine ⟨exec_complete i c hc.phase hc.running hk, fun h q => ?_⟩
  rw [← completion_withOutside]
  exact exec_complete i _ hc.phase hc.running hk

end CanFinish

/-- In XFER every write in the window is ignored (10_state.md R14, R15, R25, R26). -/
theorem writeReg_xfer {s : State} (hp : s.int.phase = .xfer) (number : Nat) (v : Word) :
    writeReg number v s = .next s := by
  unfold writeReg
  split
  · exact writeCmd_xfer hp v
  · rw [writeOpnd_xfer s v hp]
  · rfl

/-- In XFER a well-formed host instruction moves the host alone. -/
theorem runHostInstr_xfer {s : State} (hp : s.int.phase = .xfer) {len : Nat} {j : HostInstr}
    (hwf : j.wellFormed len = true) :
    ∃ h, runHostInstr j s = .next (s.withOutside h s.sched) ∧ h.prog = s.host.prog := by
  cases j with
  | wr a v =>
    refine ⟨(advanceHost s).host, ?_, rfl⟩
    exact (if_pos hwf).trans (writeReg_xfer (s := advanceHost s) hp _ _)
  | rd t a => exact ⟨_, if_pos hwf, rfl⟩
  | andi td ts imm => exact ⟨_, rfl, rfl⟩
  | bnz t target =>
    by_cases ht : temp t s = 0#64
    · exact ⟨(advanceHost s).host, if_pos ht, rfl⟩
    · exact ⟨{ s.host with pc := target }, if_neg ht, rfl⟩
  | addi td ts imm => exact ⟨_, rfl, rfl⟩

/-- In XFER the turn of a host with a well-formed program moves the host alone. -/
theorem hostTurn_xfer {s : State} (hp : s.int.phase = .xfer) (hwf : hostProgramWellFormed s.host.prog = true) :
    ∃ h, hostTurn s = .next (s.withOutside h s.sched) ∧ h.prog = s.host.prog := by
  unfold hostTurn
  split
  · next j hj => exact runHostInstr_xfer hp (List.all_eq_true.1 hwf j (List.mem_of_getElem? hj))
  · exact ⟨s.host, rfl, rfl⟩

theorem runSteps_succ_of_next {s t : State} (m : Nat) (h : step s = .next t) :
    runSteps (m + 1) s = runSteps m t := by
  simp [runSteps, h]

/-- A schedule without a reset whose last turn is CORE's, with one turn of CORE for each transfer left and one for the
completion, runs the command to its end: the host's turns between them are not seen. -/
theorem CanFinish.runSteps {i : Instr} {left : Nat} {c : State} {h : HostAgent} (turns rest : List Turn)
    (hc : CanFinish i left c) (hwf : hostProgramWellFormed h.prog = true) (hreset : Turn.reset ∉ turns)
    (hcount : turns.count .core = left + 1) (hlast : turns.getLast? = some .core) :
    ∃ u h', runExec i (left + 1) c = .next u ∧ u.int.phase = .idle ∧
      runSteps turns.length (c.withOutside h (turns ++ rest)) = .next (u.withOutside h' rest) := by
  induction turns generalizing left c h with
  | nil => cases hlast
  | cons turn turns ih =>
    have hreset' : Turn.reset ∉ turns := fun hmem => hreset (List.mem_cons_of_mem _ hmem)
    have hlast' : turns ≠ [] → turns.getLast? = some .core := fun hne => by
      rwa [List.getLast?_cons_of_ne_nil hne] at hlast
    have hne_of_count : 0 < turns.count .core → turns ≠ [] := by rintro hpos rfl; cases hpos
    rw [List.length_cons, List.cons_append]
    cases turn with
    | reset => exact absurd List.mem_cons_self hreset
    | host =>
      have hcount' : turns.count .core = left + 1 := by simpa using hcount
      have hstep : step (c.withOutside h (.host :: (turns ++ rest))) = hostTurn (c.withOutside h (turns ++ rest)) :=
        rfl
      obtain ⟨h', hturn, hprog⟩ := hostTurn_xfer (s := c.withOutside h (turns ++ rest)) hc.phase hwf
      obtain ⟨u, h'', hexec, hidle, hruns⟩ := ih hc (h := h') (by rwa [hprog]) hreset' hcount'
        (hlast' (hne_of_count (by omega)))
      refine ⟨u, h'', hexec, hidle, ?_⟩
      exact (runSteps_succ_of_next _ (hstep.trans hturn)).trans hruns
    | core =>
      have hcount' : turns.count .core = left := by simpa using hcount
      have hstep : step (c.withOutside h (.core :: (turns ++ rest))) = exec i (c.withOutside h (turns ++ rest)) :=
        coreTurn_running (s := c.withOutside h (turns ++ rest)) hc.phase hc.running
      cases left with
      | zero =>
        have hnil : turns = [] := by
          by_contra hne
          exact List.count_eq_zero.1 hcount' (List.mem_of_getLast? (hlast' hne))
        subst hnil
        obtain ⟨halone, hexec⟩ := hc.exec_completion
        exact ⟨completion i c, h, runExec_succ_of_next 0 halone, by simp,
          runSteps_succ_of_next 0 (hstep.trans (hexec h _))⟩
      | succ left =>
        obtain ⟨c', hc', halone, hexec⟩ := hc.exec_transfer
        obtain ⟨u, h', hruns', hidle, hruns⟩ := ih hc' hwf hreset' hcount' (hlast' (hne_of_count (by omega)))
        exact ⟨u, h', (runExec_succ_of_next _ halone).trans hruns', hidle,
          (runSteps_succ_of_next _ (hstep.trans (hexec h _))).trans hruns⟩

/-- Settles O21: such a schedule and the command alone end in states that differ in the host and the schedule only. -/
theorem everyInterleavingGivesTheSameResult : Obligations.EveryInterleavingGivesTheSameResult := by
  intro i s turns rest hinv hp hrun hwf hsource hsink hsched hreset hcount hlast
  have hi := hinv.inProgress_of_running hp hrun
  have hc : CanFinish i (s.int.n.toNat - s.int.k.toNat) s :=
    ⟨hp, hrun, by rw [hi.octets]; exact octets_le i.op, by have := hi.slot; omega, hsource, hsink⟩
  obtain ⟨u, h, hexec, hidle, hruns⟩ := hc.runSteps turns rest hwf hreset hcount hlast
  rw [← hsched] at hruns
  exact ⟨_, u, hruns, hexec, hidle, rfl, rfl, rfl, rfl⟩

end Sys2Proof.Machine

/-! PROOFS. The statements of 30_encoding.md: the command words, legal and illegal CMD values, the acceptance of a
command, the host's own instructions, and the assembler. -/

/-! ## The command words -/

namespace Sys2Proof

/-- The RSVD field of a command's word is 0. -/
@[simp] theorem encode_rsvd (i : Instr) : (encode i).extractLsb' 4 60 = 0#60 := by cases i <;> rfl

/-- The ORDER bit of a command's word. -/
@[simp] theorem encode_order (i : Instr) : (encode i).getLsbD 3 = i.order.bit := by cases i <;> rfl

/-- The OP field of a command's word. -/
@[simp] theorem encode_op (i : Instr) : (encode i).extractLsb' 0 3 = i.op.code := by cases i <;> rfl

@[simp] theorem ofBit_bit (o : Order) : Order.ofBit o.bit = o := by cases o <;> rfl

/-- A command's word decodes to the command: each of its three fields reads back. -/
@[simp] theorem decode_encode (i : Instr) : decode (encode i) = .ok i := by
  simp only [decode, encode_rsvd, encode_op, encode_order, Machine.ofCode_code, ofBit_bit,
    Machine.ofParts_op_order, if_true]

theorem decode_eq_ok_iff (i : Instr) (v : Word) : decode v = .ok i ↔ v = encode i :=
  ⟨fun h => (encode_of_decode h).symm, by rintro rfl; exact decode_encode i⟩

end Sys2Proof

/-- Settles O1: the twelve rows are computed, and decode and encode are inverse to each other, field by field. -/
theorem commandWordsAreExact : Obligations.CommandWordsAreExact :=
  ⟨by decide, Sys2Proof.decode_eq_ok_iff⟩

/-- Settles O2: each word is the one its command encodes to. -/
theorem familyWordsDecode : Obligations.FamilyWordsDecode :=
  ⟨Sys2Proof.decode_encode .readInt16Be, Sys2Proof.decode_encode .readInt32Le, Sys2Proof.decode_encode .decodeF32Le,
    Sys2Proof.decode_encode .decodeF64Be, Sys2Proof.decode_encode .encodeF32Be, Sys2Proof.decode_encode .encodeF64Le⟩

/-! ## Legal and illegal CMD values -/

namespace Sys2Proof

/-- RSVD is 0 exactly for the values below 16. -/
theorem rsvd_eq_zero_iff (v : Word) : v.extractLsb' 4 60 = 0#60 ↔ v.toNat < 16 := by
  rw [← BitVec.toNat_inj, BitVec.extractLsb'_toNat, Nat.shiftRight_eq_div_pow, BitVec.toNat_ofNat]
  have := v.isLt
  omega

/-- Legality, read off the fields of the value (30_encoding.md R57). -/
theorem legalWord_iff_fields (v : Word) : legalWord v = true ↔
    v.extractLsb' 4 60 = 0#60 ∧ 1 ≤ (v.extractLsb' 0 3).toNat ∧ (v.extractLsb' 0 3).toNat ≤ 6 := by
  have hop : (v.extractLsb' 0 3).toNat = v.toNat % 8 := by simp
  simp only [legalWord, rsvd_eq_zero_iff, hop, Bool.and_eq_true, decide_eq_true_eq, and_assoc]

/-- The command words are legal: RSVD is 0, and no operation has a reserved code (30_encoding.md R54). -/
theorem legalWord_encode (i : Instr) : legalWord (encode i) = true := by
  rw [legalWord_iff_fields, encode_rsvd, encode_op]
  cases i.op <;> decide

/-- The legal values are those that decode. -/
theorem legalWord_iff_decode (v : Word) : legalWord v = true ↔ ∃ i, decode v = .ok i := by
  constructor
  · exact exists_decode_of_legalWord
  · rintro ⟨i, hi⟩
    rw [← encode_of_decode hi]
    exact legalWord_encode i

theorem exists_decode_error {v : Word} (h : legalWord v = false) : ∃ e, decode v = .error e := by
  cases hd : decode v with
  | ok i => exact absurd ((legalWord_iff_decode v).2 ⟨i, hd⟩) (by simp [h])
  | error e => exact ⟨e, rfl⟩

end Sys2Proof

namespace Sys2Proof.Machine

/-- Settles O3: an illegal value does not decode, so its write is `acceptIllegal`. -/
theorem illegalWordIsRecorded : Obligations.IllegalWordIsRecorded := by
  refine ⟨fun v => ⟨legalWord_iff_fields v, legalWord_iff_decode v⟩, ?_⟩
  intro s v hturn hp hinstr hillegal
  obtain ⟨e, hd⟩ := exists_decode_error hillegal
  refine ⟨_, step_records_illegal hturn hp hinstr hd, rfl, ?_⟩
  simpa using reserved_illegalStatus s.regs.status

/-! ## The acceptance of a command -/

/-- Settles O4: the host's write reaches `exec` through `writeCmd`, CORE's turn through `currentCommand`. -/
theorem stepRunsTheDecodedCommand : Obligations.StepRunsTheDecodedCommand := by
  constructor
  · intro s v i hturn hp hinstr hd
    exact (step_accepts hturn hp hinstr hd).1
  · intro s i hturn hp hop horder
    rw [step_core s hturn]
    exact coreTurn_running (s := popTurn s) hp (running_of hop horder)

/-- The host's next instruction after `placeCommand` is the write of the word it places. -/
theorem placeCommand_instr (s : State) (nbits w : Nat) :
    (placeCommand s nbits w).host.prog[(placeCommand s nbits w).host.pc]? =
      some (.wr BusAddr.cmd (BitVec.ofNat 64 (w % 2 ^ nbits))) := by
  have hlen : (s.host.prog.take s.host.pc).length = min s.host.pc s.host.prog.length := List.length_take
  exact (List.getElem?_append_right hlen.le).trans (by simp [hlen])

/-- Settles O5: the word placed is the host's next write, and it decodes to its command. -/
theorem fetchedWordRuns : Obligations.FetchedWordRuns := by
  intro s i
  have hinstr := placeCommand_instr s 64 (encode i).toNat
  rw [Nat.mod_eq_of_lt (encode i).isLt, BitVec.ofNat_toNat, BitVec.setWidth_eq] at hinstr
  obtain ⟨hexec, hnext⟩ := step_accepts (s := placeCommand s 64 (encode i).toNat) rfl rfl hinstr (decode_encode i)
  exact ⟨advanceHost (popTurn (placeCommand s 64 (encode i).toNat)), _, rfl, rfl, rfl, rfl, hexec,
    hexec.symm.trans hnext, rfl, rfl⟩

/-- The word an encode command emits is fixed when it is accepted; a read command leaves int.tx (30_encoding.md R58). -/
theorem acceptTx_spec (i : Instr) (s : State) :
    (i.op = .encodeF32 → acceptTx i s = pack .binary32 s.regs.opnd) ∧
    (i.op = .encodeF64 → acceptTx i s = pack .binary64 s.regs.opnd) ∧
    (i.op.isRead = true → acceptTx i s = s.int.tx) := by
  refine ⟨fun h => ?_, fun h => ?_, fun h => ?_⟩
  · simp [acceptTx, targetFormat, h, Op.isRead]
  · simp [acceptTx, targetFormat, h, Op.isRead]
  · simp [acceptTx, h]

/-- Settles O6: in IDLE every command's step is `accept`. -/
theorem legalCommandIsAccepted : Obligations.LegalCommandIsAccepted := by
  intro i s hp
  obtain ⟨htx32, htx64, htxRead⟩ := acceptTx_spec i s
  have horder : i.order = if (encode i).getLsbD 3 then .le else .be := by
    rw [encode_order]; exact (ofBit_bit i.order).symm
  exact ⟨_, exec_idle i s hp, rfl, (encode_op i).symm, horder, toNat_octets i.op, rfl, rfl, rfl, htx32, htx64,
    htxRead, rfl, busyOf_setBusy _ _, getLsbD_setBusy_of_ne s.regs.status true, rfl, rfl, rfl, rfl, rfl, rfl, rfl, rfl⟩

/-! ## The host's own instructions -/

/-- A host step is the step of its next host instruction. -/
theorem step_eq_runHostInstr {s : State} {i : HostInstr} (hturn : nextTurn s = .host)
    (hinstr : s.host.prog[s.host.pc]? = some i) : step s = runHostInstr i (popTurn s) := by
  rw [step_host s hturn, hostTurn, popTurn_host, hinstr]

/-- A step that writes one temporary and moves the host on leaves the other temporaries and CORE alone. -/
theorem exists_step_of_setTemp {s : State} {td : Fin 8} {v : Word}
    (h : step s = .next (setTemp td v (advanceHost (popTurn s)))) :
    ∃ u, step s = .next u ∧ temp td u = v ∧ (∀ t' : Fin 8, t' ≠ td → temp t' u = temp t' s) ∧
      u.host.pc = s.host.pc + 1 ∧ u.regs = s.regs ∧ u.int = s.int ∧ u.source = s.source ∧ u.sink = s.sink :=
  ⟨_, h, temp_setTemp_self _ _ _, fun _ ht => temp_setTemp_of_ne _ _ _ ht, rfl, rfl, rfl, rfl, rfl⟩

/-- Settles O55: ANDI and ADDI write one temporary, and BNZ moves the host's position alone. -/
theorem hostLocalInstructions : Obligations.HostLocalInstructions := by
  intro s i hturn hinstr
  refine ⟨?andi, ?addi, ?bnz⟩
  case andi =>
    rintro td ts imm rfl
    exact exists_step_of_setTemp (step_eq_runHostInstr hturn hinstr)
  case addi =>
    rintro td ts imm rfl
    exact exists_step_of_setTemp (step_eq_runHostInstr hturn hinstr)
  case bnz =>
    rintro t target rfl
    have hstep := step_eq_runHostInstr hturn hinstr
    by_cases ht : temp t s = 0#64
    · exact ⟨_, hstep.trans (if_pos ht), rfl, by simp [ht], rfl, rfl, rfl, rfl⟩
    · exact ⟨_, hstep.trans (if_neg ht), rfl, by simp [ht], rfl, rfl, rfl, rfl⟩

/-! ## The assembler -/

section Assembler

variable {lines rest : List HostLine} {line : HostLine} {pos l : Nat} {code : List HostInstr}

/-- How many host instructions a list of lines expands to. -/
def linesSize (lines : List HostLine) : Nat := (lines.map HostLine.size).sum

@[simp] theorem linesSize_nil : linesSize [] = 0 := rfl
@[simp] theorem linesSize_cons : linesSize (line :: rest) = line.size + linesSize rest := by simp [linesSize]

/-- A label names a host instruction of the program, or its end. -/
theorem labelIndex_le {target : Nat} (h : labelIndex l pos lines = some target) : target ≤ pos + linesSize lines := by
  fun_induction labelIndex l pos lines with
  | case1 => cases h
  | case2 pos rest => cases h; exact Nat.le_add_right _ _
  | case3 pos m rest hne ih => simpa [HostLine.size] using ih h
  | case4 pos line rest hlabel ih => simpa [Nat.add_assoc] using ih h

/-- ENC expands to a write of OPND, a write of CMD and WAITIDLE (30_encoding.md R60). -/
theorem expandLine_enc {prog : List HostLine} {i : Instr} {v : Word}
    (h : expandLine prog pos (.enc i v) = some code) :
    code = .wr BusAddr.opnd v :: .wr BusAddr.cmd (encode i) :: waitIdleAt (pos + 2) := by
  rw [expandLine] at h
  split at h
  · cases h
  · cases h; rfl

/-- A line expands to as many host instructions as its size says. -/
theorem length_expandLine {prog : List HostLine} (h : expandLine prog pos line = some code) :
    code.length = line.size := by
  cases line with
  | bnz t l =>
    obtain ⟨target, -, rfl⟩ := Option.map_eq_some_iff.1 h
    rfl
  | enc i v => rw [expandLine_enc h]; rfl
  | _ => cases h; rfl

/-- The bus accesses a line writes out are inside the interface (20_memory.md R46). -/
def GoodAccesses (line : HostLine) : Prop :=
  ∀ a, (∃ v, line = .wr a v) ∨ (∃ i, line = .wrCmd a i) ∨ (∃ t, line = .rd t a) → a.wellFormed = true

/-- WAITIDLE is well formed in every program that holds its first host instruction. -/
theorem waitIdleAt_wellFormed {len : Nat} (h : pos ≤ len) : ∀ j ∈ waitIdleAt pos, j.wellFormed len = true := by
  simpa [waitIdleAt, HostInstr.wellFormed, h] using (by decide : BusAddr.status.wellFormed = true)

/-- A line of the program expands to well-formed host instructions. -/
theorem expandLine_wellFormed (hacc : GoodAccesses line) (hpos : pos + line.size ≤ linesSize lines)
    (h : expandLine lines pos line = some code) : ∀ j ∈ code, j.wellFormed (linesSize lines) = true := by
  cases line with
  | label l => cases h; simp
  | wr a v => cases h; exact List.forall_mem_singleton.2 (hacc a (.inl ⟨v, rfl⟩))
  | wrCmd a i => cases h; exact List.forall_mem_singleton.2 (hacc a (.inr (.inl ⟨i, rfl⟩)))
  | rd t a => cases h; exact List.forall_mem_singleton.2 (hacc a (.inr (.inr ⟨t, rfl⟩)))
  | andi td ts imm => cases h; simp [HostInstr.wellFormed]
  | bnz t l =>
    obtain ⟨target, htarget, rfl⟩ := Option.map_eq_some_iff.1 h
    simpa [HostInstr.wellFormed] using labelIndex_le htarget
  | addi td ts imm => cases h; simp [HostInstr.wellFormed]
  | waitIdle => cases h; exact waitIdleAt_wellFormed (by omega)
  | doCmd i =>
    cases h
    exact List.forall_mem_cons.2 ⟨rfl, waitIdleAt_wellFormed (by simp only [HostLine.size] at hpos; omega)⟩
  | enc i v =>
    rw [expandLine_enc h]
    exact List.forall_mem_cons.2 ⟨rfl, List.forall_mem_cons.2
      ⟨rfl, waitIdleAt_wellFormed (by simp only [HostLine.size] at hpos; omega)⟩⟩

/-- The expansion of a line and the lines after it is that of the line, then that of the others. -/
theorem exists_of_expandFrom_cons {prog : List HostLine} (h : expandFrom prog pos (line :: rest) = some code) :
    ∃ a b, expandLine prog pos line = some a ∧ expandFrom prog (pos + line.size) rest = some b ∧ code = a ++ b := by
  unfold expandFrom at h
  split at h
  · next a b ha hb => cases h; exact ⟨a, b, ha, hb, rfl⟩
  · cases h

theorem length_expandFrom {prog : List HostLine} (h : expandFrom prog pos lines = some code) :
    code.length = linesSize lines := by
  induction lines generalizing pos code with
  | nil => cases h; rfl
  | cons line rest ih =>
    obtain ⟨a, b, ha, hb, rfl⟩ := exists_of_expandFrom_cons h
    simp [length_expandLine ha, ih hb]

theorem expandFrom_wellFormed (hacc : ∀ line ∈ rest, GoodAccesses line)
    (hpos : pos + linesSize rest ≤ linesSize lines) (h : expandFrom lines pos rest = some code) :
    ∀ j ∈ code, j.wellFormed (linesSize lines) = true := by
  induction rest generalizing pos code with
  | nil => cases h; simp
  | cons line rest ih =>
    rw [linesSize_cons] at hpos
    obtain ⟨a, b, ha, hb, rfl⟩ := exists_of_expandFrom_cons h
    obtain ⟨hline, hrest⟩ := List.forall_mem_cons.1 hacc
    exact List.forall_mem_append.2 ⟨expandLine_wellFormed hline (by omega) ha, ih hrest (by omega) hb⟩

end Assembler

/-- Settles O57: the assembled program has one host instruction for each unit of size of its lines, so every index that
a label or WAITIDLE gives lies in it. -/
theorem assembledProgramIsWellFormed : Obligations.AssembledProgramIsWellFormed := by
  intro lines prog h hacc
  rw [hostProgramWellFormed, length_expandFrom h, List.all_eq_true]
  exact expandFrom_wellFormed hacc (by omega) h

end Sys2Proof.Machine

/-! PROOFS. The statements of 40_integer.md: the integer value function, its ranges, and the two integer reads. -/

/-! ## The contributions of the octets -/

namespace Sys2Proof.Machine

/-- Settles O23: the flipped octet is the signed one, read off its top bit. -/
theorem topOctetContribution : Obligations.TopOctetContribution := by
  refine ⟨fun d => ?_, rfl⟩
  rw [topInt_toNat]
  refine ⟨rfl, fun h => ?_, fun h => ?_⟩
  · rw [BitVec.toInt_eq_toNat_cond, if_pos (by omega)]
  · rw [BitVec.toInt_eq_toNat_cond, if_neg (by omega)]
    rfl

theorem topContribution_of_missing {x : Slot} (h : x.eos = true) : topContribution x = -257 := if_pos h

theorem lowContribution_of_missing {x : Slot} (h : x.eos = true) : lowContribution x = -1 := if_pos h

/-- The top octet contributes -257 where it is missing, and at least -128 otherwise (40_integer.md R62). -/
theorem topContribution_range (x : Slot) : -257 ≤ topContribution x ∧ topContribution x ≤ 127 := by
  unfold topContribution
  split
  · omega
  · have hle := x.d.le_toInt
    have hlt := x.d.toInt_lt
    omega

/-- A lower octet contributes -1 where it is missing, and at least 0 otherwise (40_integer.md R63). -/
theorem lowContribution_range (x : Slot) : -1 ≤ lowContribution x ∧ lowContribution x ≤ 255 := by
  unfold lowContribution
  split
  · omega
  · have hlt := x.d.isLt
    omega

/-! ## Integers with no slot missing -/

section Present

variable {order : Order} {n : Nat} {buf : Vector Slot 8} (hpresent : ∀ k, k < n + 1 → (slotAt buf k).eos = false)
include hpresent

theorem wordOctet_of_present (fill : Byte) {j : Nat} (hj : j < n + 1) :
    wordOctet fill order (n + 1) buf j = (slotAt buf (significance order (n + 1) j)).d := by
  simp [wordOctet, fillOctet, hpresent _ (significance_lt order hj)]

/-- The value is the word's sum of octets, with the top octet signed. -/
theorem intValue_of_present (fill : Byte) : intValue order (n + 1) buf =
    (wordOctet fill order (n + 1) buf n).toInt * 256 ^ n +
      ((∑ j ∈ Finset.range n, (wordOctet fill order (n + 1) buf j).toNat * 256 ^ j : ℕ) : ℤ) := by
  have htop : topContribution (slotAt buf (significance order (n + 1) n)) =
      (wordOctet fill order (n + 1) buf n).toInt := by
    rw [wordOctet_of_present hpresent fill (by omega)]
    simp [topContribution, hpresent _ (significance_lt order (Nat.lt_succ_self n))]
  have hlow : ∀ j ∈ Finset.range n, lowContribution (slotAt buf (significance order (n + 1) j)) * 256 ^ j =
      (((wordOctet fill order (n + 1) buf j).toNat * 256 ^ j : ℕ) : ℤ) := by
    intro j hj
    have hj' : j < n + 1 := by have := Finset.mem_range.1 hj; omega
    rw [wordOctet_of_present hpresent fill hj']
    simp [lowContribution, hpresent _ (significance_lt order hj')]
  rw [intValue_eq, Nat.add_sub_cancel, htop, Finset.sum_congr rfl hlow, Nat.cast_sum]

/-- The signed range of n + 1 octets: the top octet is in -128 .. 127 and the lower ones stay below 256^n. -/
theorem intValue_range_of_present :
    -(128 * 256 ^ n) ≤ intValue order (n + 1) buf ∧ intValue order (n + 1) buf < 128 * 256 ^ n := by
  rw [intValue_of_present hpresent 0#8]
  have hlow : ((∑ j ∈ Finset.range n, (wordOctet 0#8 order (n + 1) buf j).toNat * 256 ^ j : ℕ) : ℤ) < 256 ^ n :=
    mod_cast digitSum_lt _ (fun _ => BitVec.isLt _) n
  have hmin : -128 * 256 ^ n ≤ (wordOctet 0#8 order (n + 1) buf n).toInt * 256 ^ n :=
    mul_le_mul_of_nonneg_right (BitVec.le_toInt _) (by positivity)
  have hmax : (wordOctet 0#8 order (n + 1) buf n).toInt * 256 ^ n ≤ 127 * 256 ^ n :=
    mul_le_mul_of_nonneg_right (Int.le_of_lt_add_one BitVec.toInt_lt) (by positivity)
  constructor <;> omega

/-- The value and the word differ by a multiple of 2^(8(n + 1)), because the signed and the unsigned top octet differ
by a multiple of 256. -/
theorem intValue_sub_word_dvd (fill : Byte) (hn : n + 1 ≤ 8) : (256 ^ (n + 1) : ℤ) ∣
    intValue order (n + 1) buf - ((assemble fill order (n + 1) buf).toNat : ℤ) := by
  have htop : ∀ d : Byte, (256 : ℤ) ∣ d.toInt - d.toNat := fun d => by
    rw [BitVec.toInt_eq_toNat_bmod]
    exact Int.dvd_bmod_sub_self
  have hdiff : intValue order (n + 1) buf - ((assemble fill order (n + 1) buf).toNat : ℤ) =
      ((wordOctet fill order (n + 1) buf n).toInt - (wordOctet fill order (n + 1) buf n).toNat) * 256 ^ n := by
    rw [intValue_of_present hpresent fill, toNat_assemble fill order buf hn, Finset.sum_range_succ]
    push_cast
    ring
  rw [hdiff, pow_succ']
  exact mul_dvd_mul_right (htop _) _

/-- The value is the sign extension of the word (40_integer.md R64). -/
theorem intValue_eq_toInt_assemble (fill : Byte) (hn : n + 1 ≤ 8) :
    intValue order (n + 1) buf = ((assemble fill order (n + 1) buf).setWidth (8 * (n + 1))).toInt := by
  obtain ⟨hle, hlt⟩ := intValue_range_of_present hpresent (order := order)
  have hdvd := intValue_sub_word_dvd hpresent fill hn (order := order)
  have hmod : ((2 ^ (8 * (n + 1)) : ℕ) : ℤ) = 256 * 256 ^ n := by
    rw [pow_mul, pow_succ']
    norm_num
  rw [BitVec.toInt_setWidth, eq_comm, Int.bmod_eq_iff (by positivity), hmod]
  exact ⟨by omega, by omega, by rwa [← pow_succ']⟩

end Present

/-- Settles O24: two and four octets of `intValue_eq_toInt_assemble`. -/
theorem completeIntegerIsTheSignExtension : Obligations.CompleteIntegerIsTheSignExtension := by
  rintro order K fill buf (rfl | rfl) hpresent
  · have hrange : -(128 * 256 ^ 1) ≤ intValue order 2 buf ∧ intValue order 2 buf < 128 * 256 ^ 1 :=
      intValue_range_of_present hpresent
    exact ⟨intValue_eq_toInt_assemble hpresent fill (by decide), fun _ => by omega, nofun⟩
  · have hrange : -(128 * 256 ^ 3) ≤ intValue order 4 buf ∧ intValue order 4 buf < 128 * 256 ^ 3 :=
      intValue_range_of_present hpresent
    exact ⟨intValue_eq_toInt_assemble hpresent fill (by decide), nofun, fun _ => by omega⟩

/-! ## Integers with missing slots -/

/-- The range of two octets, each present or missing (40_integer.md R65). -/
theorem intValue_two_range (order : Order) (buf : Vector Slot 8) :
    -65793 ≤ intValue order 2 buf ∧ intValue order 2 buf ≤ 32767 := by
  have h1 := topContribution_range (slotAt buf (significance order 2 1))
  have h0 := lowContribution_range (slotAt buf (significance order 2 0))
  rw [intValue_two]
  omega

/-- The range of four octets, each present or missing (40_integer.md R65). -/
theorem intValue_four_range (order : Order) (buf : Vector Slot 8) :
    -4311810305 ≤ intValue order 4 buf ∧ intValue order 4 buf ≤ 2147483647 := by
  have h3 := topContribution_range (slotAt buf (significance order 4 3))
  have h2 := lowContribution_range (slotAt buf (significance order 4 2))
  have h1 := lowContribution_range (slotAt buf (significance order 4 1))
  have h0 := lowContribution_range (slotAt buf (significance order 4 0))
  rw [intValue_four]
  omega

/-- RESULT holds a value of 64 bits exactly (40_integer.md R65). -/
theorem toInt_twos64 {z : Int} (hle : -2 ^ 63 ≤ z) (hlt : z < 2 ^ 63) : (twos64 z).toInt = z :=
  BitVec.toInt_ofInt_eq_self (by decide) hle hlt

/-- The least value of two octets: both are missing. -/
theorem intValue_two_of_missing (order : Order) {buf : Vector Slot 8}
    (h : ∀ k, k < 2 → (slotAt buf k).eos = true) : intValue order 2 buf = -65793 := by
  have hmissing : ∀ j, j < 2 → (slotAt buf (significance order 2 j)).eos = true :=
    fun j hj => h _ (significance_lt order hj)
  rw [intValue_two, topContribution_of_missing (hmissing 1 (by decide)),
    lowContribution_of_missing (hmissing 0 (by decide))]
  rfl

/-- The least value of four octets: all are missing. -/
theorem intValue_four_of_missing (order : Order) {buf : Vector Slot 8}
    (h : ∀ k, k < 4 → (slotAt buf k).eos = true) : intValue order 4 buf = -4311810305 := by
  have hmissing : ∀ j, j < 4 → (slotAt buf (significance order 4 j)).eos = true :=
    fun j hj => h _ (significance_lt order hj)
  rw [intValue_four, topContribution_of_missing (hmissing 3 (by decide)),
    lowContribution_of_missing (hmissing 2 (by decide)), lowContribution_of_missing (hmissing 1 (by decide)),
    lowContribution_of_missing (hmissing 0 (by decide))]
  rfl

/-- Settles O25: the ranges of the octets' contributions, summed, lie inside 64 bits. -/
theorem truncatedIntegerRange : Obligations.TruncatedIntegerRange := by
  refine ⟨fun order buf => ?_, fun order buf => ⟨intValue_two_of_missing order, intValue_four_of_missing order⟩⟩
  obtain ⟨hle2, hlt2⟩ := intValue_two_range order buf
  obtain ⟨hle4, hlt4⟩ := intValue_four_range order buf
  exact ⟨hle2, hlt2, toInt_twos64 (by omega) (by omega), hle4, hlt4, toInt_twos64 (by omega) (by omega)⟩

end Sys2Proof.Machine

/-! ## Whole read commands -/

namespace Sys2Proof.Machine

/-- The buffer holds the octets of a command, the first answer of the source in slot 0 (20_memory.md R38). -/
def HoldsOctets (buf : Vector Slot 8) (octets : List Slot) : Prop :=
  ∀ j x, octets[j]? = some x → slotAt buf j = x

/-- The whole command i takes `octets` from the source, leaves the sink alone, and ends with this RESULT, RAW, CLASS and
TRUNC. -/
def ReadsOctets (i : Instr) (s : State) (octets rest : List Slot) (result raw : Word) (c : Nat) (trunc : Bool) :
    Prop :=
  ∃ t, runExec i (i.op.octets + 2) s = .next t ∧ RanCommand i s t result raw c trunc false ∧
    t.source = { pending := rest, consumed := s.source.consumed ++ octets } ∧ t.sink = s.sink

/-- STATUS after a whole command: acceptance sets BUSY alone, and completion writes every field. -/
theorem completedStatus_of_accepted (trunc werr : Bool) (c : FClass) (op : Op) (w : Word) :
    CompletedStatus w (completionStatus trunc werr c op.octets (setBusy true w)) (classCode c) trunc werr
      op.octets := by
  obtain ⟨hbusy, hillegal, htrunc, hwerr, hclass, hnoct, hreserved⟩ :=
    completedStatus_completionStatus trunc werr c op (setBusy true w)
  refine ⟨hbusy, hillegal, htrunc, hwerr, hclass, hnoct, fun b hb hr => ?_⟩
  rw [hreserved b hb hr, getLsbD_setBusy_of_ne w true b hb (by omega)]

section ReadCommand

variable {i : Instr} {octets rest : List Slot} {s : State}

/-- A whole read command ends with the value and the word of the octets it has read. -/
theorem readsOctets_of_read (hr : i.op.isRead = true) (hp : s.int.phase = .idle)
    (hlen : octets.length = i.op.octets) (hpend : s.source.pending = octets ++ rest) :
    ∃ buf, HoldsOctets buf octets ∧ ReadsOctets i s octets rest (readValue i buf).1
      (assemble Config.eosFill i.order i.op.octets buf) (classCode (readValue i buf).2)
      (octets.any fun x => x.eos) := by
  obtain ⟨buf, k, hbuf, -, hrun⟩ := runExec_read i hr octets rest s hp hlen hpend
  refine ⟨buf, fun j x hx => ?_, _, hrun, ?_, by simp, by simp⟩
  · obtain ⟨hj, rfl⟩ := List.getElem?_eq_some_iff.1 hx
    exact hbuf j hj
  · rw [completion_of_read hr]
    refine ⟨rfl, rfl, ?_, rfl, rfl, rfl, rfl, rfl⟩
    simp only [complete_status, accept_n, toNat_octets, accept_status]
    exact completedStatus_of_accepted _ _ _ _ _

/-- An integer read: RESULT is the value z of the octets, RAW their word w. -/
theorem readsOctets_of_integer (hr : i.op.isRead = true)
    (hvalue : ∀ buf, readValue i buf = intResult i.order i.op.octets buf) (hp : s.int.phase = .idle)
    (hlen : octets.length = i.op.octets) (hpend : s.source.pending = octets ++ rest) {z : Int} {w : Word}
    (hoctets : ∀ buf, HoldsOctets buf octets →
      intValue i.order i.op.octets buf = z ∧ assemble Config.eosFill i.order i.op.octets buf = w) :
    ReadsOctets i s octets rest (BitVec.ofInt 64 z) w 0 (octets.any fun x => x.eos) := by
  obtain ⟨buf, hbuf, hreads⟩ := readsOctets_of_read hr hp hlen hpend
  obtain ⟨hz, hw⟩ := hoctets buf hbuf
  rw [hvalue, hw] at hreads
  subst hz
  exact hreads

end ReadCommand

/-! ## READ_INT16 and READ_INT32 -/

/-- The value and the word of two octets, x the more significant one. -/
theorem integer_two {order : Order} {octets : List Slot} {x y : Slot} (hx : octets[significance order 2 1]? = some x)
    (hy : octets[significance order 2 0]? = some y) {buf : Vector Slot 8} (hbuf : HoldsOctets buf octets) :
    intValue order 2 buf = topContribution x * 256 + lowContribution y ∧
      assemble Config.eosFill order 2 buf = word2 (shownOctet x) (shownOctet y) := by
  rw [← hbuf _ _ hx, ← hbuf _ _ hy]
  exact ⟨intValue_two order buf, assemble_two Config.eosFill order buf⟩

/-- The value and the word of four octets, x the most significant one. -/
theorem integer_four {order : Order} {octets : List Slot} {x y z w : Slot}
    (hx : octets[significance order 4 3]? = some x) (hy : octets[significance order 4 2]? = some y)
    (hz : octets[significance order 4 1]? = some z) (hw : octets[significance order 4 0]? = some w)
    {buf : Vector Slot 8} (hbuf : HoldsOctets buf octets) :
    intValue order 4 buf = topContribution x * 256 ^ 3 + lowContribution y * 256 ^ 2 + lowContribution z * 256 +
        lowContribution w ∧
      assemble Config.eosFill order 4 buf = word4 (shownOctet x) (shownOctet y) (shownOctet z) (shownOctet w) := by
  rw [← hbuf _ _ hx, ← hbuf _ _ hy, ← hbuf _ _ hz, ← hbuf _ _ hw]
  exact ⟨intValue_four order buf, assemble_four Config.eosFill order buf⟩

theorem any_eos_two (a b : Slot) : ([a, b].any fun x => x.eos) = (a.eos || b.eos) := by simp

theorem any_eos_four (a b c d : Slot) :
    ([a, b, c, d].any fun x => x.eos) = (a.eos || b.eos || c.eos || d.eos) := by simp [Bool.or_assoc]

/-- Settles O14: under BE the first octet is the top one, under LE the second. -/
theorem readInt16Command : Obligations.ReadInt16Command := by
  refine ⟨rfl, rfl, fun s a b rest hp hpend => ?_, by decide⟩
  rw [← any_eos_two]
  exact ⟨readsOctets_of_integer (i := .readInt16Be) rfl (fun _ => rfl) hp rfl hpend fun _ => integer_two rfl rfl,
    readsOctets_of_integer (i := .readInt16Le) rfl (fun _ => rfl) hp rfl hpend fun _ => integer_two rfl rfl⟩

/-- Settles O15: under BE the first octet is the top one, under LE the fourth. -/
theorem readInt32Command : Obligations.ReadInt32Command := by
  refine ⟨rfl, rfl, fun s a b c d rest hp hpend => ?_, by decide⟩
  rw [← any_eos_four]
  exact ⟨readsOctets_of_integer (i := .readInt32Be) rfl (fun _ => rfl) hp rfl hpend fun _ =>
      integer_four rfl rfl rfl rfl,
    readsOctets_of_integer (i := .readInt32Le) rfl (fun _ => rfl) hp rfl hpend fun _ =>
      integer_four rfl rfl rfl rfl⟩

end Sys2Proof.Machine

/-! PROOFS. The statements of 41_float_decode.md: the classes and the values of float words, the decoder, the doubling
loop, and the two float decodes. -/

/-! ## The classes of float words -/

namespace Sys2Proof.Machine

theorem expMax_ne_zero (T : Format) : T.expMax ≠ 0 := by cases T <;> decide

theorem classOf_eq_zero_iff (T : Format) (w : Word) :
    classOf T w = .zero ↔ expField T w = 0 ∧ fracField T w = 0 := by
  unfold classOf
  split_ifs <;> simp_all

theorem classOf_eq_subnormal_iff (T : Format) (w : Word) :
    classOf T w = .subnormal ↔ expField T w = 0 ∧ fracField T w ≠ 0 := by
  unfold classOf
  split_ifs <;> simp_all

theorem classOf_eq_inf_iff (T : Format) (w : Word) :
    classOf T w = .inf ↔ expField T w = T.expMax ∧ fracField T w = 0 := by
  have hmax := expMax_ne_zero T
  unfold classOf
  split_ifs <;> simp_all [eq_comm]

theorem classOf_eq_nan_iff (T : Format) (w : Word) :
    classOf T w = .nan ↔ expField T w = T.expMax ∧ fracField T w ≠ 0 := by
  have hmax := expMax_ne_zero T
  unfold classOf
  split_ifs <;> simp_all [eq_comm]

theorem classOf_eq_normal_iff (T : Format) (w : Word) :
    classOf T w = .normal ↔ 1 ≤ expField T w ∧ expField T w ≠ T.expMax := by
  rw [Nat.one_le_iff_ne_zero]
  unfold classOf
  split_ifs <;> simp_all

@[simp] theorem classOf_zero (T : Format) : classOf T 0#64 = .zero := by cases T <;> decide

@[simp] theorem classOf_decNan (T : Format) : classOf T (Config.decNan T) = .nan := by cases T <;> decide

/-! ## The decoder by class (41_float_decode.md R74) -/

theorem decodeFloat_of_zero {T : Format} {w : Word} (nan : Word) (h : classOf T w = .zero) :
    decodeFloat T nan w = 0#64 := if_pos ((classOf_eq_zero_iff T w).1 h)

theorem decodeFloat_of_nan {T : Format} {w : Word} (nan : Word) (h : classOf T w = .nan) :
    decodeFloat T nan w = nan := by
  obtain ⟨hexp, hfrac⟩ := (classOf_eq_nan_iff T w).1 h
  rw [decodeFloat, if_neg (by simp [hfrac]), if_pos ⟨hexp, hfrac⟩]

/-- The decoder is the identity but for zeros and NaNs. -/
theorem decodeFloat_of_other {T : Format} {w : Word} (nan : Word) (hzero : classOf T w ≠ .zero)
    (hnan : classOf T w ≠ .nan) : decodeFloat T nan w = w := by
  rw [Ne, classOf_eq_zero_iff] at hzero
  rw [Ne, classOf_eq_nan_iff] at hnan
  rw [decodeFloat, if_neg hzero, if_neg hnan, ite_self, ite_self]

/-- Decoding keeps the class, whatever NaN is taken for the NaN result. -/
theorem classOf_decodeFloat {T : Format} {nan : Word} (hnan : classOf T nan = .nan) (w : Word) :
    classOf T (decodeFloat T nan w) = classOf T w := by
  by_cases hz : classOf T w = .zero
  · rw [decodeFloat_of_zero nan hz, classOf_zero, hz]
  by_cases hn : classOf T w = .nan
  · rw [decodeFloat_of_nan nan hn, hnan, hn]
  · rw [decodeFloat_of_other nan hz hn]

/-- Settles O29: the NaN result is this hardware's, and decoding keeps the class. -/
theorem everyNanDecodesToOnePattern : Obligations.EveryNanDecodesToOnePattern := by
  refine ⟨fun w h => decodeFloat_of_nan _ h, fun w h => decodeFloat_of_nan _ h, fun T nan w hexp hfrac => ?_⟩
  have hnan : classOf T nan = .nan := (classOf_eq_nan_iff T nan).2 ⟨hexp, hfrac⟩
  exact ⟨decodeFloat_of_nan nan, by rw [classOf_decodeFloat hnan]⟩

end Sys2Proof.Machine

/-! ## Words and their values -/

namespace Sys2Proof.Machine

/-- A word of the format is its three fields side by side (41_float_decode.md R69). -/
theorem toNat_eq_fields {T : Format} {w : Word} (hw : w.toNat < 2 ^ T.width) :
    w.toNat = ((signField T w).toNat * 2 ^ T.eb + expField T w) * 2 ^ T.fb + fracField T w := by
  have hwidth : T.width = T.fb + T.eb + 1 := by rw [Format.width]; omega
  rw [hwidth] at hw
  have htop : w.toNat / 2 ^ T.fb / 2 ^ T.eb < 2 := by
    rw [Nat.div_div_eq_div_mul, ← pow_add, Nat.div_lt_iff_lt_mul (by positivity), ← pow_succ']
    exact hw
  have hsign : (signField T w).toNat = w.toNat / 2 ^ T.fb / 2 ^ T.eb := by
    rw [signField, BitVec.getLsbD, hwidth, Nat.add_sub_cancel, Nat.toNat_testBit, pow_add, ← Nat.div_div_eq_div_mul,
      Nat.mod_eq_of_lt htop]
  rw [hsign, expField, fracField, Nat.div_add_mod', Nat.div_add_mod']

theorem eq_of_fields {T : Format} {w w' : Word} (hw : w.toNat < 2 ^ T.width) (hw' : w'.toNat < 2 ^ T.width)
    (hsign : signField T w = signField T w') (hexp : expField T w = expField T w')
    (hfrac : fracField T w = fracField T w') : w = w' := by
  apply BitVec.eq_of_toNat_eq
  rw [toNat_eq_fields hw, toNat_eq_fields hw', hsign, hexp, hfrac]

/-- The magnitude of a finite word in units of the least subnormal, 2^(1 - bias - fb). -/
def magnitude (T : Format) (w : Word) : ℕ :=
  if expField T w = 0 then fracField T w else (2 ^ T.fb + fracField T w) * 2 ^ (expField T w - 1)

theorem finiteValue_eq_magnitude (T : Format) (w : Word) : finiteValue T w =
    signFactor (signField T w) * magnitude T w * (2 : ℚ) ^ (1 - (T.bias : ℤ) - (T.fb : ℤ)) := by
  unfold finiteValue magnitude fracValue
  split
  · rw [zpow_sub₀ two_ne_zero _ (T.fb : ℤ), zpow_natCast]
    ring
  · next hexp =>
    have hshift : (expField T w : ℤ) - T.bias = ((expField T w - 1 : ℕ) : ℤ) + (1 - T.bias) := by omega
    rw [hshift, zpow_add₀ two_ne_zero, zpow_sub₀ two_ne_zero _ (T.fb : ℤ), zpow_natCast, zpow_natCast]
    push_cast
    field_simp

theorem magnitude_lt (T : Format) (w : Word) : magnitude T w < 2 ^ (T.fb + expField T w) := by
  have hfrac := fracField_lt T w
  unfold magnitude
  split
  · next hexp => rwa [hexp]
  · next hexp =>
    calc (2 ^ T.fb + fracField T w) * 2 ^ (expField T w - 1)
        < 2 ^ (T.fb + 1) * 2 ^ (expField T w - 1) := by
          rw [pow_succ]
          exact Nat.mul_lt_mul_of_pos_right (by omega) (by positivity)
      _ = 2 ^ (T.fb + expField T w) := by rw [← pow_add]; congr 1; omega

theorem le_magnitude {T : Format} {w : Word} (hexp : expField T w ≠ 0) :
    2 ^ (T.fb + (expField T w - 1)) ≤ magnitude T w := by
  rw [magnitude, if_neg hexp, pow_add]
  exact Nat.mul_le_mul_right _ (Nat.le_add_right _ _)

/-- A larger exponent field gives a larger magnitude: the binades do not overlap. -/
theorem magnitude_lt_of_expField_lt {T : Format} {w w' : Word} (h : expField T w < expField T w') :
    magnitude T w < magnitude T w' :=
  calc magnitude T w < 2 ^ (T.fb + expField T w) := magnitude_lt T w
    _ ≤ 2 ^ (T.fb + (expField T w' - 1)) := Nat.pow_le_pow_right (by decide) (by omega)
    _ ≤ magnitude T w' := le_magnitude (by omega)

theorem fields_eq_of_magnitude_eq {T : Format} {w w' : Word} (h : magnitude T w = magnitude T w') :
    expField T w = expField T w' ∧ fracField T w = fracField T w' := by
  have hexp : expField T w = expField T w' := by
    obtain hlt | heq | hgt := Nat.lt_trichotomy (expField T w) (expField T w')
    · exact absurd h (magnitude_lt_of_expField_lt hlt).ne
    · exact heq
    · exact absurd h (magnitude_lt_of_expField_lt hgt).ne'
  refine ⟨hexp, ?_⟩
  unfold magnitude at h
  rw [hexp] at h
  split at h
  · exact h
  · exact Nat.add_left_cancel (Nat.eq_of_mul_eq_mul_right (by positivity) h)

theorem magnitude_eq_zero_iff (T : Format) (w : Word) : magnitude T w = 0 ↔ classOf T w = .zero := by
  rw [classOf_eq_zero_iff]
  unfold magnitude
  split
  · next hexp => simp [hexp]
  · next hexp => simp [hexp]

/-- A sign and a nonzero magnitude can be read off their product. -/
theorem signFactor_mul_injective {s s' : Bool} {m m' : ℕ} (hm : m ≠ 0)
    (h : signFactor s * m = signFactor s' * m') : s = s' ∧ m = m' := by
  have hpos : (0 : ℚ) < m := mod_cast Nat.pos_of_ne_zero hm
  have hnonneg : (0 : ℚ) ≤ m' := m'.cast_nonneg
  cases s <;> cases s' <;> simp only [signFactor, if_true, Bool.false_eq_true, if_false] at h
  · exact ⟨rfl, Nat.cast_injective (R := ℚ) (by linarith)⟩
  · linarith
  · linarith
  · exact ⟨rfl, Nat.cast_injective (R := ℚ) (by linarith)⟩

/-- Equal nonzero finite values have equal fields. -/
theorem fields_eq_of_finiteValue_eq {T : Format} {w w' : Word} (hzero : classOf T w ≠ .zero)
    (h : finiteValue T w = finiteValue T w') :
    signField T w = signField T w' ∧ expField T w = expField T w' ∧ fracField T w = fracField T w' := by
  rw [finiteValue_eq_magnitude, finiteValue_eq_magnitude] at h
  obtain ⟨hsign, hmag⟩ := signFactor_mul_injective (mt (magnitude_eq_zero_iff T w).1 hzero)
    (mul_right_cancel₀ (zpow_ne_zero _ two_ne_zero) h)
  exact ⟨hsign, fields_eq_of_magnitude_eq hmag⟩

/-! ## The value by class (41_float_decode.md R72) -/

theorem floatValue_of_finite {T : Format} {w : Word} (hinf : classOf T w ≠ .inf) (hnan : classOf T w ≠ .nan) :
    floatValue T w = .finite (finiteValue T w) := by
  unfold floatValue
  split
  · next h => exact absurd h hnan
  · next h => exact absurd h hinf
  · rfl

theorem floatValue_eq_nan_iff (T : Format) (w : Word) : floatValue T w = .nan ↔ classOf T w = .nan := by
  unfold floatValue
  split
  · next h => simp [h]
  · next h => simp [h]
  · next hnan _ => exact ⟨nofun, fun h => (hnan h).elim⟩

theorem floatValue_eq_inf_iff (T : Format) (w : Word) (s : Bool) :
    floatValue T w = .inf s ↔ classOf T w = .inf ∧ signField T w = s := by
  unfold floatValue
  split
  · next h => simp [h]
  · next h => simp [h]
  · next hinf => exact ⟨nofun, fun h => (hinf h.1).elim⟩

/-- Both zeros denote 0. -/
theorem floatValue_of_zero {T : Format} {w : Word} (h : classOf T w = .zero) : floatValue T w = .finite 0 := by
  rw [floatValue_of_finite (by simp [h]) (by simp [h]), finiteValue_eq_magnitude, (magnitude_eq_zero_iff T w).2 h]
  simp

/-- A word of the format that denotes a nonzero value or an infinity is the only one that does. -/
theorem eq_of_floatValue_eq {T : Format} {w w' : Word} (hw : w.toNat < 2 ^ T.width) (hw' : w'.toNat < 2 ^ T.width)
    (hzero : classOf T w ≠ .zero) (hnan : classOf T w ≠ .nan) (h : floatValue T w = floatValue T w') : w = w' := by
  have hnan' : classOf T w' ≠ .nan := by rwa [Ne, ← floatValue_eq_nan_iff, ← h, floatValue_eq_nan_iff]
  by_cases hinf : classOf T w = .inf
  · have hvalue := (floatValue_eq_inf_iff T w _).2 ⟨hinf, rfl⟩
    obtain ⟨hinf', hsign⟩ := (floatValue_eq_inf_iff T w' _).1 (h.symm.trans hvalue)
    obtain ⟨hexp, hfrac⟩ := (classOf_eq_inf_iff T w).1 hinf
    obtain ⟨hexp', hfrac'⟩ := (classOf_eq_inf_iff T w').1 hinf'
    exact eq_of_fields hw hw' hsign.symm (hexp.trans hexp'.symm) (hfrac.trans hfrac'.symm)
  · have hinf' : classOf T w' ≠ .inf := fun hc =>
      hinf ((floatValue_eq_inf_iff T w _).1 (h.trans ((floatValue_eq_inf_iff T w' _).2 ⟨hc, rfl⟩))).1
    rw [floatValue_of_finite hinf hnan, floatValue_of_finite hinf' hnan', FValue.finite.injEq] at h
    obtain ⟨hsign, hexp, hfrac⟩ := fields_eq_of_finiteValue_eq hzero h
    exact eq_of_fields hw hw' hsign hexp hfrac

/-- An infinity, a normal and a subnormal word decode to themselves. -/
theorem decodeWord_of_class {T : Format} {w : Word} {c : FClass} (h : classOf T w = c) (hzero : c ≠ .zero)
    (hnan : c ≠ .nan) : decodeWord T w = w ∧ classOf T w = c := by
  subst h
  exact ⟨decodeFloat_of_other _ hzero hnan, rfl⟩

/-- Settles O28: the five conditions are those of the five classes, and all but two of the classes are left alone. -/
theorem decoderCases : Obligations.DecoderCases := by
  refine ⟨fun T w => ⟨fun h => ?_, fun h => ?_, fun h => ?_, fun h => ?_, fun h => ?_⟩,
    fun T w w' => eq_of_floatValue_eq⟩
  · have hclass := (classOf_eq_zero_iff T w).2 h
    exact ⟨decodeFloat_of_zero _ hclass, hclass⟩
  · have hclass := (classOf_eq_nan_iff T w).2 h
    exact ⟨decodeFloat_of_nan _ hclass, hclass⟩
  · exact decodeWord_of_class ((classOf_eq_inf_iff T w).2 h) nofun nofun
  · exact decodeWord_of_class ((classOf_eq_normal_iff T w).2 h) nofun nofun
  · exact decodeWord_of_class ((classOf_eq_subnormal_iff T w).2 h) nofun nofun

/-- Settles O30: a zero becomes a zero, a NaN a NaN, and every other word itself. -/
theorem decodedValueIsExact : Obligations.DecodedValueIsExact := by
  intro T w
  by_cases hzero : classOf T w = .zero
  · rw [decodeWord, decodeFloat_of_zero _ hzero, floatValue_of_zero hzero, floatValue_of_zero (classOf_zero T)]
  by_cases hnan : classOf T w = .nan
  · rw [decodeWord, decodeFloat_of_nan _ hnan, (floatValue_eq_nan_iff T w).2 hnan,
      (floatValue_eq_nan_iff T _).2 (classOf_decNan T)]
  · rw [decodeWord, decodeFloat_of_other _ hzero hnan]

end Sys2Proof.Machine

/-! ## The fraction value -/

namespace Sys2Proof.Machine

theorem fracValue_nonneg (T : Format) (w : Word) : 0 ≤ fracValue T w := by
  unfold fracValue
  positivity

theorem fracValue_lt_one (T : Format) (w : Word) : fracValue T w < 1 := by
  rw [fracValue, div_lt_one (by positivity)]
  exact mod_cast fracField_lt T w

/-- The low n bits of a number as a binary fraction: the top one of them is worth 1/2, and each further one half of the
one before it. -/
theorem lowBits_div_two_pow (x n : ℕ) : ((x % 2 ^ n : ℕ) : ℚ) / 2 ^ n =
    ∑ i ∈ Finset.range n, if x.testBit (n - 1 - i) then (1 : ℚ) / 2 ^ (i + 1) else 0 := by
  induction n with
  | zero => simp [Nat.mod_one]
  | succ n ih =>
    have hhalf : ∀ i ∈ Finset.range n,
        (if x.testBit (n + 1 - 1 - (i + 1)) then (1 : ℚ) / 2 ^ (i + 1 + 1) else 0) =
          (if x.testBit (n - 1 - i) then (1 : ℚ) / 2 ^ (i + 1) else 0) * (1 / 2) := by
      intro i _
      rw [show n + 1 - 1 - (i + 1) = n - 1 - i by omega, ite_mul, zero_mul, pow_succ _ (i + 1)]
      congr 1
      ring
    have htop : (if x.testBit (n + 1 - 1 - 0) then (1 : ℚ) / 2 ^ (0 + 1) else 0) =
        ((x.testBit n).toNat : ℚ) / 2 := by
      cases hbit : x.testBit n <;> simp [hbit]
    rw [Finset.sum_range_succ', Finset.sum_congr rfl hhalf, ← Finset.sum_mul, ← ih, htop, Nat.toNat_testBit,
      Nat.mod_pow_succ]
    push_cast
    field_simp
    ring

/-- Settles O31: F is the low fb bits of the word. -/
theorem fractionIsTheBitSum : Obligations.FractionIsTheBitSum := by
  intro T w
  refine ⟨fracValue_nonneg T w, fracValue_lt_one T w, ?_⟩
  rw [sum_map_range]
  exact lowBits_div_two_pow w.toNat T.fb

/-! ## The doubling loop (41_float_decode.md R73) -/

/-- The loop stops after m doublings when they bring f into [1, 2). -/
theorem doubleUntilOne_eq {m fuel : ℕ} {f : ℚ} (e : ℤ) (hfuel : m ≤ fuel) (hle : 1 ≤ f * 2 ^ m)
    (hlt : f * 2 ^ m < 2) : doubleUntilOne fuel f e = (f * 2 ^ m, e - m) := by
  induction m generalizing fuel f e with
  | zero =>
    rw [pow_zero, mul_one] at hle
    cases fuel with
    | zero => simp [doubleUntilOne]
    | succ fuel => simp [doubleUntilOne, hle]
  | succ m ih =>
    obtain ⟨fuel, rfl⟩ := Nat.exists_eq_succ_of_ne_zero (show fuel ≠ 0 by omega)
    have hdouble : 2 * f * 2 ^ m = f * 2 ^ (m + 1) := by ring
    have hbelow : ¬ 1 ≤ f := by
      intro hf
      have hpow : (1 : ℚ) ≤ 2 ^ m := one_le_pow₀ (by norm_num)
      rw [← hdouble] at hlt
      nlinarith
    rw [doubleUntilOne, if_neg hbelow, ih _ (by omega) (by rwa [hdouble]) (by rwa [hdouble]), hdouble]
    push_cast
    rw [sub_sub, add_comm (1 : ℤ)]

/-- The number of doublings that bring a nonzero fraction value into [1, 2). -/
def doublings (T : Format) (w : Word) : ℕ := T.fb - (fracField T w).log2

section Doublings

variable {T : Format} {w : Word} (hfrac : fracField T w ≠ 0)
include hfrac

theorem doublings_add_log2 : doublings T w + (fracField T w).log2 = T.fb ∧ 1 ≤ doublings T w := by
  have hlog : (fracField T w).log2 < T.fb := (Nat.log2_lt hfrac).2 (fracField_lt T w)
  unfold doublings
  omega

theorem fracValue_mul_two_pow_doublings :
    fracValue T w * 2 ^ doublings T w = (fracField T w : ℚ) / 2 ^ (fracField T w).log2 := by
  obtain ⟨hsum, -⟩ := doublings_add_log2 hfrac
  rw [fracValue, ← hsum, pow_add]
  field_simp

theorem fracValue_doubled_mem :
    1 ≤ fracValue T w * 2 ^ doublings T w ∧ fracValue T w * 2 ^ doublings T w < 2 := by
  have hle : 2 ^ (fracField T w).log2 ≤ fracField T w := Nat.log2_self_le hfrac
  have hlt : fracField T w < 2 ^ ((fracField T w).log2 + 1) := Nat.lt_log2_self
  rw [fracValue_mul_two_pow_doublings hfrac, le_div_iff₀ (by positivity), div_lt_iff₀ (by positivity), one_mul,
    ← pow_succ']
  exact ⟨mod_cast hle, mod_cast hlt⟩

end Doublings

/-- A fraction value and its exponent, doubled m times: the scaled value stays. -/
theorem doubled_mul_zpow (f : ℚ) (m : ℕ) (e : ℤ) : f * 2 ^ m * (2 : ℚ) ^ (e - m) = f * (2 : ℚ) ^ e := by
  rw [zpow_sub₀ two_ne_zero, zpow_natCast]
  field_simp

theorem floatValue_decodeWord_of_expField_zero {T : Format} {w : Word} (hexp : expField T w = 0) :
    floatValue T (decodeWord T w) = .finite (finiteValue T w) := by
  have hmax : expField T w ≠ T.expMax := by rw [hexp]; exact (expMax_ne_zero T).symm
  rw [decodedValueIsExact, floatValue_of_finite]
  · simp [classOf_eq_inf_iff, hmax]
  · simp [classOf_eq_nan_iff, hmax]

/-- Settles O32: m is `doublings`, and each doubling leaves the scaled value as it is. -/
theorem subnormalLoopIsTheClosedForm : Obligations.SubnormalLoopIsTheClosedForm := by
  intro T w hfrac
  obtain ⟨hsum, hone⟩ := doublings_add_log2 hfrac
  obtain ⟨hle, hlt⟩ := fracValue_doubled_mem hfrac
  refine ⟨doublings T w, hone, by omega, ?_, ?_, fun fuel hfuel => ?_⟩
  · rwa [div_le_iff₀ (by positivity)]
  · rw [lt_div_iff₀ (by positivity)]
    rw [← Nat.sub_add_cancel hone, pow_succ, ← mul_assoc] at hlt
    linarith
  · simp only [doubleUntilOne_eq _ hfuel hle hlt, doubled_mul_zpow, true_and]
    intro hexp
    have hvalue : signFactor (signField T w) * (fracValue T w * (2 : ℚ) ^ (1 - (T.bias : ℤ))) = finiteValue T w := by
      rw [finiteValue, if_pos hexp, mul_assoc]
    exact ⟨hvalue, by rw [hvalue, floatValue_decodeWord_of_expField_zero hexp]⟩

end Sys2Proof.Machine

/-! ## DECODE_F32 and DECODE_F64 -/

namespace Sys2Proof.Machine

/-- A float decode takes RESULT, RAW and CLASS of the word w of its octets. -/
theorem readsOctets_of_decode {i : Instr} {octets rest : List Slot} {s : State} {T : Format}
    (hr : i.op.isRead = true) (hvalue : ∀ buf, readValue i buf = floatResult T i.order i.op.octets buf)
    (hp : s.int.phase = .idle) (hlen : octets.length = i.op.octets) (hpend : s.source.pending = octets ++ rest)
    {w : Word} (hoctets : ∀ buf, HoldsOctets buf octets → assemble Config.eosFill i.order i.op.octets buf = w) :
    ReadsOctets i s octets rest (decodeWord T w) w (classCode (classOf T w)) (octets.any fun x => x.eos) := by
  obtain ⟨buf, hbuf, hreads⟩ := readsOctets_of_read hr hp hlen hpend
  rw [hvalue] at hreads
  rw [← hoctets buf hbuf]
  exact hreads

/-- Settles O16: under BE the first octet is the top one, under LE the fourth. -/
theorem decodeF32Command : Obligations.DecodeF32Command := by
  refine ⟨rfl, rfl, fun s a b c d rest hp hpend => ?_, by decide⟩
  rw [← any_eos_four]
  exact ⟨readsOctets_of_decode (i := .decodeF32Be) rfl (fun _ => rfl) hp rfl hpend fun _ hbuf =>
      (integer_four rfl rfl rfl rfl hbuf).2,
    readsOctets_of_decode (i := .decodeF32Le) rfl (fun _ => rfl) hp rfl hpend fun _ hbuf =>
      (integer_four rfl rfl rfl rfl hbuf).2⟩

theorem any_eos_eight (a b c d e f g h : Slot) : ([a, b, c, d, e, f, g, h].any fun x => x.eos) =
    (a.eos || b.eos || c.eos || d.eos || e.eos || f.eos || g.eos || h.eos) := by simp [Bool.or_assoc]

/-- The word of eight octets, x7 the most significant one. -/
theorem assemble_eight_of_holdsOctets {order : Order} {octets : List Slot} {x0 x1 x2 x3 x4 x5 x6 x7 : Slot}
    (h7 : octets[significance order 8 7]? = some x7) (h6 : octets[significance order 8 6]? = some x6)
    (h5 : octets[significance order 8 5]? = some x5) (h4 : octets[significance order 8 4]? = some x4)
    (h3 : octets[significance order 8 3]? = some x3) (h2 : octets[significance order 8 2]? = some x2)
    (h1 : octets[significance order 8 1]? = some x1) (h0 : octets[significance order 8 0]? = some x0)
    {buf : Vector Slot 8} (hbuf : HoldsOctets buf octets) :
    assemble Config.eosFill order 8 buf = word8 (shownOctet x7) (shownOctet x6) (shownOctet x5) (shownOctet x4)
      (shownOctet x3) (shownOctet x2) (shownOctet x1) (shownOctet x0) := by
  rw [← hbuf _ _ h7, ← hbuf _ _ h6, ← hbuf _ _ h5, ← hbuf _ _ h4, ← hbuf _ _ h3, ← hbuf _ _ h2, ← hbuf _ _ h1,
    ← hbuf _ _ h0]
  exact assemble_eight Config.eosFill order buf

/-- Settles O17: under BE the first octet is the top one, under LE the eighth. -/
theorem decodeF64Command : Obligations.DecodeF64Command := by
  refine ⟨rfl, rfl, fun s a b c d e f g h rest hp hpend => ?_, by decide⟩
  rw [← any_eos_eight]
  exact ⟨readsOctets_of_decode (i := .decodeF64Be) rfl (fun _ => rfl) hp rfl hpend fun _ =>
      assemble_eight_of_holdsOctets rfl rfl rfl rfl rfl rfl rfl rfl,
    readsOctets_of_decode (i := .decodeF64Le) rfl (fun _ => rfl) hp rfl hpend fun _ =>
      assemble_eight_of_holdsOctets rfl rfl rfl rfl rfl rfl rfl rfl⟩

end Sys2Proof.Machine

/-! PROOFS. The statements of 42_float_encode.md: the special cases, the normalization, the packing and its rounding,
and the two float encodes. -/

/-! ## Rounding to nearest -/

namespace Sys2Proof.Machine

/-- RNE meets the statements' own definition of rounding (00_scope.md section 5). -/
theorem roundsTo_roundNearestEven (num : ℕ) {den : ℕ} (hden : 0 < den) :
    RoundsTo ((num : ℚ) / den) (roundNearestEven num den) := by
  have hpos : (0 : ℚ) < den := mod_cast hden
  have hmod : ((num % den : ℕ) : ℚ) < den := mod_cast Nat.mod_lt num hden
  have hsplit : (num : ℚ) / den = (num / den : ℕ) + (num % den : ℕ) / den := by
    have hdiv : (den : ℚ) * (num / den : ℕ) + (num % den : ℕ) = num := mod_cast Nat.div_add_mod num den
    rw [← hdiv, add_div, mul_div_cancel_left₀ _ hpos.ne']
  have hdown : |((num / den : ℕ) : ℚ) - num / den| = (num % den : ℕ) / den := by
    rw [hsplit, sub_add_cancel_left, abs_neg, abs_of_nonneg (by positivity)]
  have hup : |((num / den + 1 : ℕ) : ℚ) - num / den| = 1 - (num % den : ℕ) / den := by
    have hle : ((num % den : ℕ) : ℚ) / den ≤ 1 := (div_le_one hpos).2 hmod.le
    rw [hsplit, Nat.cast_succ, add_sub_add_left_eq_sub, abs_of_nonneg (sub_nonneg.2 hle)]
  have htie (hlow : ¬ 2 * (num % den) < den) (hhigh : ¬ den < 2 * (num % den)) :
      ((num % den : ℕ) : ℚ) / den = 1 / 2 := by
    rw [div_eq_div_iff hpos.ne' two_ne_zero]
    exact_mod_cast (by omega : num % den * 2 = 1 * den)
  unfold RoundsTo roundNearestEven
  dsimp only
  split_ifs with hlow hhigh heven
  · have hlt : ((num % den : ℕ) : ℚ) / den < 1 / 2 := by
      rw [div_lt_div_iff₀ hpos two_pos]
      exact_mod_cast (by omega : num % den * 2 < 1 * den)
    rw [hdown]
    exact ⟨hlt.le, fun h => absurd h hlt.ne⟩
  · have hgt : 1 / 2 < ((num % den : ℕ) : ℚ) / den := by
      rw [div_lt_div_iff₀ two_pos hpos]
      exact_mod_cast (by omega : 1 * den < num % den * 2)
    rw [hup]
    exact ⟨by linarith, fun h => by linarith⟩
  · rw [hdown, htie hlow hhigh]
    exact ⟨le_rfl, fun _ => heven⟩
  · rw [hup, htie hlow hhigh]
    exact ⟨by norm_num, fun _ => by omega⟩

namespace RoundsTo

variable {r : ℚ} {q : ℕ} (h : RoundsTo r q)
include h

theorem le_of_le_natCast {n : ℕ} (hr : r ≤ n) : q ≤ n := by
  obtain ⟨-, hhigh⟩ := abs_le.1 h.1
  have hlt : (q : ℚ) < n + 1 := by linarith
  exact Nat.lt_succ_iff.1 (mod_cast hlt)

theorem le_of_natCast_le {n : ℕ} (hr : n ≤ r) : n ≤ q := by
  obtain ⟨hlow, -⟩ := abs_le.1 h.1
  have hlt : (n : ℚ) < q + 1 := by linarith
  exact Nat.lt_succ_iff.1 (mod_cast hlt)

/-- A half and all below it round to 0, the even neighbour. -/
theorem eq_zero (hr : r ≤ 1 / 2) : q = 0 := by
  obtain ⟨hle, htie⟩ := h
  obtain ⟨-, hhigh⟩ := abs_le.1 hle
  have hlt : (q : ℚ) < 2 := by linarith
  have hq : q < 2 := mod_cast hlt
  by_contra hne
  obtain rfl : q = 1 := by omega
  have hhalf : |((1 : ℕ) : ℚ) - r| = 1 / 2 := by
    refine le_antisymm hle ?_
    rw [Nat.cast_one]
    exact le_trans (by linarith) (le_abs_self _)
  exact absurd (htie hhalf) (by decide)

/-- Rounding commutes with the addition of an even integer. -/
theorem add_even {n : ℕ} (hn : n % 2 = 0) : RoundsTo (n + r) (n + q) := by
  obtain ⟨hle, htie⟩ := h
  have hdist : ((n + q : ℕ) : ℚ) - (n + r) = q - r := by push_cast; ring
  rw [RoundsTo, hdist]
  exact ⟨hle, fun hhalf => by have := htie hhalf; omega⟩

/-- No integer is nearer, and one that is as near leaves q the even of the two. -/
theorem nearest (n : ℕ) :
    |(q : ℚ) - r| ≤ |(n : ℚ) - r| ∧ (|(q : ℚ) - r| = |(n : ℚ) - r| → n = q ∨ q % 2 = 0) := by
  obtain ⟨hle, htie⟩ := h
  by_cases hn : n = q
  · simp [hn]
  have hgap : (1 : ℚ) ≤ |(n : ℚ) - q| := by
    exact_mod_cast Int.one_le_abs (show (n : ℤ) - q ≠ 0 by omega)
  have htri : |(n : ℚ) - q| ≤ |(n : ℚ) - r| + |(q : ℚ) - r| := by
    rw [abs_sub_comm (q : ℚ) r]
    exact abs_sub_le _ _ _
  exact ⟨by linarith, fun heq => .inr (htie (by linarith))⟩

end RoundsTo

end Sys2Proof.Machine

/-! ## The operand in units of 2^-1074 -/

namespace Sys2Proof.Machine

/-- The least subnormal of T is 2^(unitShift T) units of 2^-1074. -/
def unitShift (T : Format) : ℕ := 1075 - T.bias - T.fb

theorem unitShift_add (T : Format) : T.fb + unitShift T + T.bias = 1075 := by cases T <;> decide

theorem expMax_eq (T : Format) : T.expMax = 2 * T.bias + 1 := by cases T <;> decide

theorem fb_lt_bias (T : Format) : T.fb < T.bias := by cases T <;> decide

theorem scaledMag_eq_magnitude (x : Word) : scaledMag x = magnitude .binary64 x := rfl

/-- Every finite value of either format, over 2^1074 (42_float_encode.md R82, entry 14). -/
theorem finiteValue_eq_scaled (T : Format) (w : Word) : finiteValue T w =
    signFactor (signField T w) * (magnitude T w * 2 ^ unitShift T) / 2 ^ 1074 := by
  have hunit : (1 : ℤ) - T.bias - T.fb = (unitShift T : ℤ) - (1074 : ℕ) := by
    have := unitShift_add T
    omega
  rw [finiteValue_eq_magnitude, hunit, zpow_sub₀ two_ne_zero, zpow_natCast, zpow_natCast,
    ← mul_div_assoc, mul_assoc]

theorem abs_signFactor (s : Bool) : |signFactor s| = 1 := by cases s <;> simp [signFactor]

theorem abs_finiteValue (T : Format) (w : Word) :
    |finiteValue T w| = magnitude T w * 2 ^ unitShift T / 2 ^ 1074 := by
  rw [finiteValue_eq_scaled, abs_div, abs_mul, abs_signFactor, one_mul, abs_of_nonneg (by positivity),
    abs_of_nonneg (by positivity)]

theorem abs_finiteValue_binary64 (x : Word) : |finiteValue .binary64 x| = (scaledMag x : ℚ) / 2 ^ 1074 := by
  rw [abs_finiteValue, scaledMag_eq_magnitude, show unitShift .binary64 = 0 from rfl, pow_zero, mul_one]

theorem finiteValue_binary64 (x : Word) :
    finiteValue .binary64 x = signFactor (signField .binary64 x) * |finiteValue .binary64 x| := by
  rw [abs_finiteValue, finiteValue_eq_scaled, mul_div_assoc]

theorem maxValue_eq_scaled (T : Format) : maxValue T = (scaledMax T : ℚ) / 2 ^ 1074 := by
  have hexp : 1074 + T.bias = 1074 + T.bias - T.fb + T.fb := by have := fb_lt_bias T; omega
  have hpow : (2 : ℚ) ^ 1074 * 2 ^ T.bias = 2 ^ (1074 + T.bias - T.fb) * 2 ^ T.fb := by
    rw [← pow_add, ← pow_add, ← hexp]
  rw [maxValue, scaledMax, eq_div_iff (by positivity), mul_assoc, mul_comm _ ((2 : ℚ) ^ 1074), hpow,
    Nat.cast_mul, Nat.cast_sub Nat.one_le_two_pow]
  push_cast
  rw [pow_succ]
  field_simp

theorem abs_finiteValue_le_maxValue_iff (T : Format) (x : Word) :
    |finiteValue .binary64 x| ≤ maxValue T ↔ scaledMag x ≤ scaledMax T := by
  rw [abs_finiteValue_binary64, maxValue_eq_scaled, div_le_div_iff_of_pos_right (by positivity), Nat.cast_le]

/-- MAX_T in units of 2^-1074: the largest significand in the largest binade (00_scope.md R8). -/
theorem scaledMax_eq (T : Format) :
    scaledMax T = (2 ^ (T.fb + 1) - 1) * 2 ^ (unitShift T + (T.expMax - 2)) := by
  have hunit := unitShift_add T
  have hmax := expMax_eq T
  have hfb := fb_lt_bias T
  have hexp : 1074 + T.bias - T.fb = unitShift T + (T.expMax - 2) := by omega
  rw [scaledMax, hexp]

/-- No finite value of a format exceeds MAX_T (00_scope.md R8). -/
theorem abs_finiteValue_le_maxValue {T : Format} {w : Word} (hfin : isFinite T w) :
    |finiteValue T w| ≤ maxValue T := by
  have hexp : expField T w ≤ T.expMax - 1 := by
    have hlt := expField_lt T w
    have hmax : T.expMax = 2 ^ T.eb - 1 := rfl
    unfold isFinite at hfin
    omega
  have hmag : magnitude T w ≤ (2 ^ (T.fb + 1) - 1) * 2 ^ (T.expMax - 2) := by
    have hfrac := fracField_lt T w
    have hpow : 2 ^ (T.fb + 1) = 2 * 2 ^ T.fb := pow_succ' 2 T.fb
    unfold magnitude
    split
    · exact (show fracField T w ≤ 2 ^ (T.fb + 1) - 1 by omega).trans (Nat.le_mul_of_pos_right _ (by positivity))
    · exact Nat.mul_le_mul (by omega) (Nat.pow_le_pow_right (by decide) (by omega))
  rw [abs_finiteValue, maxValue_eq_scaled, div_le_div_iff_of_pos_right (by positivity), scaledMax_eq,
    pow_add _ (unitShift T), mul_comm (2 ^ unitShift T), ← mul_assoc]
  exact_mod_cast Nat.mul_le_mul_right _ hmag

end Sys2Proof.Machine

/-! ## The special-case dispatch (42_float_encode.md R81) -/

namespace Sys2Proof.Machine

theorem isFinite_iff (T : Format) (w : Word) : isFinite T w ↔ classOf T w ≠ .inf ∧ classOf T w ≠ .nan := by
  rw [isFinite, Ne, Ne, Ne, classOf_eq_inf_iff, classOf_eq_nan_iff]
  tauto

theorem scaledMag_eq_zero_iff (x : Word) : scaledMag x = 0 ↔ classOf .binary64 x = .zero :=
  magnitude_eq_zero_iff .binary64 x

/-- The operand saturates: it is an infinity, or finite and beyond ±MAX_T (42_float_encode.md R81). -/
def Saturates (T : Format) (x : Word) : Prop :=
  classOf .binary64 x = .inf ∨ isFinite .binary64 x ∧ maxValue T < |finiteValue .binary64 x|

theorem encodesZero_iff (x : Word) : encodesZero x = true ↔ classOf .binary64 x = .zero := by
  simp [encodesZero, classOf_eq_zero_iff]

theorem encodesNan_iff (x : Word) : encodesNan x = true ↔ classOf .binary64 x = .nan := by
  rw [classOf_eq_nan_iff]
  simp [encodesNan, show Format.binary64.expMax = 2047 from rfl]

theorem encodesInf_or_exceedsMax_iff (T : Format) (x : Word) :
    (encodesInf x || exceedsMax T x) = true ↔ Saturates T x := by
  rw [Saturates, classOf_eq_inf_iff, isFinite, ← not_le, abs_finiteValue_le_maxValue_iff, not_le]
  simp [encodesInf, exceedsMax, show Format.binary64.expMax = 2047 from rfl]

theorem Saturates.ne_zero {T : Format} {x : Word} (h : Saturates T x) : classOf .binary64 x ≠ .zero := by
  obtain hinf | ⟨-, hmax⟩ := h
  · simp [hinf]
  · rw [← not_le, abs_finiteValue_le_maxValue_iff, not_le] at hmax
    exact fun hzero => absurd ((scaledMag_eq_zero_iff x).2 hzero) (Nat.ne_zero_of_lt hmax)

theorem Saturates.ne_nan {T : Format} {x : Word} (h : Saturates T x) : classOf .binary64 x ≠ .nan := by
  obtain hinf | ⟨hfin, -⟩ := h
  · simp [hinf]
  · exact ((isFinite_iff _ _).1 hfin).2

section PackFloat

variable {T : Format} {x : Word} (nan : Word) (round : Nat → Nat → Nat)

theorem packFloat_of_zero (h : classOf .binary64 x = .zero) : packFloat T nan round x = 0#64 :=
  if_pos ((encodesZero_iff x).2 h)

theorem packFloat_of_saturates (h : Saturates T x) :
    packFloat T nan round x = infWord T (signField .binary64 x) := by
  have hzero := mt (encodesZero_iff x).1 h.ne_zero
  have hsat := (encodesInf_or_exceedsMax_iff T x).2 h
  unfold packFloat
  rw [if_neg hzero, hsat]
  cases signField .binary64 x <;> rfl

theorem packFloat_of_not_saturates (hzero : classOf .binary64 x ≠ .zero) (hsat : ¬ Saturates T x) :
    packFloat T nan round x = if classOf .binary64 x = .nan then nan
      else packFinite T round (signField .binary64 x) (scaledMag x) := by
  rw [Ne, ← encodesZero_iff] at hzero
  rw [← encodesInf_or_exceedsMax_iff, Bool.not_eq_true] at hsat
  simp only [packFloat, if_neg hzero, hsat, Bool.and_false, Bool.false_eq_true, if_false, encodesNan_iff]

theorem packFloat_of_nan (h : classOf .binary64 x = .nan) : packFloat T nan round x = nan := by
  rw [packFloat_of_not_saturates nan round (by simp [h]) (fun hsat => hsat.ne_nan h), if_pos h]

theorem packFloat_of_finite (hfin : isFinite .binary64 x) (hzero : classOf .binary64 x ≠ .zero)
    (hmax : |finiteValue .binary64 x| ≤ maxValue T) :
    packFloat T nan round x = packFinite T round (signField .binary64 x) (scaledMag x) := by
  obtain ⟨hinf, hnan⟩ := (isFinite_iff _ _).1 hfin
  have hsat : ¬ Saturates T x := by rintro (h | ⟨-, h⟩); exacts [hinf h, hmax.not_gt h]
  rw [packFloat_of_not_saturates nan round hzero hsat, if_neg hnan]

theorem pack_of_zero (T : Format) (h : classOf .binary64 x = .zero) : pack T x = 0#64 := packFloat_of_zero _ _ h

theorem pack_of_nan (T : Format) (h : classOf .binary64 x = .nan) : pack T x = Config.encNan T :=
  packFloat_of_nan _ _ h

theorem pack_of_saturates (h : Saturates T x) : pack T x = infWord T (signField .binary64 x) :=
  packFloat_of_saturates _ _ h

theorem pack_of_finite (hfin : isFinite .binary64 x) (hzero : classOf .binary64 x ≠ .zero)
    (hmax : |finiteValue .binary64 x| ≤ maxValue T) :
    pack T x = packFinite T roundNearestEven (signField .binary64 x) (scaledMag x) :=
  packFloat_of_finite _ _ hfin hzero hmax

end PackFloat

/-- The four cases of the dispatch, each with its own lemma above. -/
theorem operand_cases (T : Format) (x : Word) : classOf .binary64 x = .zero ∨ classOf .binary64 x = .nan ∨
    Saturates T x ∨
    isFinite .binary64 x ∧ classOf .binary64 x ≠ .zero ∧ |finiteValue .binary64 x| ≤ maxValue T := by
  rw [Saturates, isFinite_iff, ← not_le]
  tauto

/-- A finite operand beyond MAX_T on the side of the sign s saturates, and s is its sign. -/
theorem saturates_of_lt {T : Format} {x : Word} {s : Bool} (hfin : isFinite .binary64 x)
    (hmax : maxValue T < signFactor s * finiteValue .binary64 x) :
    Saturates T x ∧ signField .binary64 x = s := by
  have hpos : 0 ≤ maxValue T := by rw [maxValue_eq_scaled]; positivity
  have habs : |signFactor s * finiteValue .binary64 x| = |finiteValue .binary64 x| := by
    rw [abs_mul, abs_signFactor, one_mul]
  refine ⟨.inr ⟨hfin, hmax.trans_le (habs ▸ le_abs_self _)⟩, ?_⟩
  have hnonneg := abs_nonneg (finiteValue .binary64 x)
  rw [finiteValue_binary64] at hmax
  by_contra hne
  rw [Bool.eq_not_of_ne hne] at hmax
  cases s <;> simp only [signFactor, Bool.not_true, Bool.not_false, if_true, Bool.false_eq_true, if_false] at hmax <;>
    linarith

/-- The two saturating tests of the dispatch, as one: s is the sign of the infinity. -/
theorem packFloat_of_inf_or_lt {T : Format} {x : Word} {s : Bool} (nan : Word) (round : Nat → Nat → Nat)
    (h : floatValue .binary64 x = .inf s ∨
      isFinite .binary64 x ∧ maxValue T < signFactor s * finiteValue .binary64 x) :
    packFloat T nan round x = infWord T s := by
  obtain hinf | ⟨hfin, hmax⟩ := h
  · obtain ⟨hclass, hsign⟩ := (floatValue_eq_inf_iff _ _ _).1 hinf
    rw [packFloat_of_saturates nan round (.inl hclass), hsign]
  · obtain ⟨hsat, hsign⟩ := saturates_of_lt hfin hmax
    rw [packFloat_of_saturates nan round hsat, hsign]

/-- Settles O33: an operand beyond ±MAX_T saturates, and its sign is that of its value. -/
theorem encoderSpecialCases : Obligations.EncoderSpecialCases := by
  refine ⟨fun T nan round x => ⟨packFloat_of_zero nan round, fun h => ?_, fun h => ?_, packFloat_of_nan nan round⟩,
    by decide⟩
  · refine packFloat_of_inf_or_lt (s := false) nan round (h.imp_right fun ⟨hfin, hmax⟩ => ⟨hfin, ?_⟩)
    rwa [signFactor, if_neg Bool.false_ne_true, one_mul]
  · refine packFloat_of_inf_or_lt (s := true) nan round (h.imp_right fun ⟨hfin, hmax⟩ => ⟨hfin, ?_⟩)
    rw [signFactor, if_pos rfl]
    linarith

end Sys2Proof.Machine

/-! ## Normalization (42_float_encode.md R82) -/

namespace Sys2Proof.Machine

/-- The loop tracks e: it ends after |e| steps with the value in [1, 2). -/
theorem normalizeLoop_eq {fuel : ℕ} {a : ℚ} {e : ℤ} (shift : ℤ) (hfuel : e.natAbs ≤ fuel)
    (hle : (2 : ℚ) ^ e ≤ a) (hlt : a < (2 : ℚ) ^ (e + 1)) :
    normalizeLoop fuel a shift = (a / (2 : ℚ) ^ e, shift + e) := by
  have hmono {i j : ℤ} (h : i ≤ j) : (2 : ℚ) ^ i ≤ (2 : ℚ) ^ j := zpow_le_zpow_right₀ one_le_two h
  have hsucc (i : ℤ) : (2 : ℚ) ^ (i + 1) = (2 : ℚ) ^ i * 2 := zpow_add_one₀ two_ne_zero i
  induction fuel generalizing a e shift with
  | zero =>
    obtain rfl : e = 0 := by omega
    simp [normalizeLoop]
  | succ fuel ih =>
    unfold normalizeLoop
    obtain hneg | rfl | hpos := lt_trichotomy e 0
    · have hbelow : a < 1 := hlt.trans_le (hmono (j := 0) (by omega))
      rw [hsucc] at hlt
      rw [if_pos hbelow, ih (e := e + 1) _ (by omega) (by rw [hsucc]; linarith) (by rw [hsucc, hsucc]; linarith),
        hsucc, mul_comm 2 a, mul_div_mul_right _ _ two_ne_zero]
      congr 1
      ring
    · rw [zpow_zero] at hle
      rw [zero_add, zpow_one] at hlt
      rw [if_neg hle.not_gt, if_neg hlt.not_ge, zpow_zero, div_one, add_zero]
    · have habove : 2 ≤ a := (hmono (i := 1) (by omega)).trans hle
      obtain ⟨i, rfl⟩ : ∃ i, e = i + 1 := ⟨e - 1, by ring⟩
      rw [hsucc] at hle hlt
      rw [if_neg (by linarith), if_pos habove, ih (e := i) _ (by omega) (by linarith) (by linarith), hsucc, div_div,
        mul_comm 2]
      congr 1
      ring

/-- A positive number lies in one binade. -/
theorem zpow_binade_unique {a : ℚ} {e e' : ℤ} (hle : (2 : ℚ) ^ e ≤ a) (hlt : a < (2 : ℚ) ^ (e + 1))
    (hle' : (2 : ℚ) ^ e' ≤ a) (hlt' : a < (2 : ℚ) ^ (e' + 1)) : e = e' := by
  have h := (zpow_lt_zpow_iff_right₀ one_lt_two).1 (hle.trans_lt hlt')
  have h' := (zpow_lt_zpow_iff_right₀ one_lt_two).1 (hle'.trans_lt hlt)
  omega

/-- The exponent e of the operand, with 2^e ≤ |x| < 2^(e+1) (42_float_encode.md R82). -/
def exponent (x : Word) : ℤ := ((scaledMag x).log2 : ℤ) - 1074

theorem two_zpow_exponent (x : Word) : (2 : ℚ) ^ exponent x = 2 ^ (scaledMag x).log2 / 2 ^ 1074 := by
  rw [exponent, zpow_sub₀ two_ne_zero, zpow_natCast, zpow_ofNat]

theorem abs_finiteValue_div_two_zpow_exponent (x : Word) :
    |finiteValue .binary64 x| / (2 : ℚ) ^ exponent x = (scaledMag x : ℚ) / 2 ^ (scaledMag x).log2 := by
  rw [two_zpow_exponent, abs_finiteValue_binary64, div_div_div_cancel_right₀ (by positivity)]

theorem lt_two_zpow_exponent_succ (x : Word) : |finiteValue .binary64 x| < (2 : ℚ) ^ (exponent x + 1) := by
  rw [zpow_add_one₀ two_ne_zero, two_zpow_exponent, abs_finiteValue_binary64, ← mul_div_right_comm, ← pow_succ,
    div_lt_div_iff_of_pos_right (by positivity)]
  exact_mod_cast Nat.lt_log2_self

section Exponent

variable {x : Word} (hzero : classOf .binary64 x ≠ .zero)
include hzero

theorem scaledMag_ne_zero : scaledMag x ≠ 0 := mt (scaledMag_eq_zero_iff x).1 hzero

theorem two_zpow_exponent_le : (2 : ℚ) ^ exponent x ≤ |finiteValue .binary64 x| := by
  rw [two_zpow_exponent, abs_finiteValue_binary64, div_le_div_iff_of_pos_right (by positivity)]
  exact_mod_cast Nat.log2_self_le (scaledMag_ne_zero hzero)

theorem natAbs_exponent_le (hfin : isFinite .binary64 x) : (exponent x).natAbs ≤ 1100 := by
  have hlog : (scaledMag x).log2 < 52 + expField .binary64 x :=
    (Nat.log2_lt (scaledMag_ne_zero hzero)).2 (magnitude_lt .binary64 x)
  have hwidth : expField .binary64 x < 2048 := expField_lt .binary64 x
  have hmax : expField .binary64 x ≠ 2047 := hfin
  unfold exponent
  omega

end Exponent

/-- Settles O34: e is the operand's exponent, and the loop takes |e| steps. -/
theorem normalizationReachesTheExponent : Obligations.NormalizationReachesTheExponent := by
  intro x hfin hzero
  have hle := two_zpow_exponent_le hzero
  have hlt := lt_two_zpow_exponent_succ x
  have hpos : (0 : ℚ) < (2 : ℚ) ^ exponent x := by positivity
  refine ⟨abs_finiteValue_binary64 x, (one_le_div hpos).2 hle, (div_lt_iff₀ hpos).2 ?_, hle, hlt,
    fun fuel hfuel => ?_⟩
  · rwa [zpow_add_one₀ two_ne_zero, mul_comm] at hlt
  · rw [normalizeLoop_eq 0 ((natAbs_exponent_le hzero hfin).trans hfuel) hle hlt, zero_add]
    rfl

end Sys2Proof.Machine

/-! ## The two cases of the packing (42_float_encode.md R83 to R86) -/

namespace Sys2Proof.Machine

section PackFinite

variable {T : Format} {A : ℕ}

/-- The exponent of a magnitude up to MAX_T is at most emax (42_float_encode.md R84). -/
theorem log2_le_of_le_scaledMax (h : A ≤ scaledMax T) : A.log2 ≤ 1074 + T.bias := by
  obtain rfl | hne := Nat.eq_zero_or_pos A
  · simp
  have hexp : T.fb + 1 + (1074 + T.bias - T.fb) = 1074 + T.bias + 1 := by have := fb_lt_bias T; omega
  have hlt : scaledMax T < 2 ^ (1074 + T.bias + 1) := by
    rw [← hexp, pow_add]
    exact Nat.mul_lt_mul_of_pos_right (Nat.sub_lt (by positivity) one_pos) (by positivity)
  exact Nat.lt_succ_iff.1 ((Nat.log2_lt hne.ne').2 (h.trans_lt hlt))

variable (round : Nat → Nat → Nat) (s : Bool)

/-- R83: below emin the stored exponent is 0 and the leading 1 is not subtracted. -/
theorem packFinite_of_subnormal (hlog : A.log2 < T.fb + unitShift T) :
    packFinite T round s A = packFields T s 0 (round (A * 2 ^ T.fb) (2 ^ (T.fb + unitShift T))) := by
  have hunit := unitShift_add T
  have hshift : A.log2 + (T.emin - ((A.log2 : ℤ) - 1074)).toNat = T.fb + unitShift T := by
    unfold Format.emin; omega
  unfold packFinite
  dsimp only
  rw [if_pos (by unfold Format.emin; omega), ← pow_add, hshift]

/-- R85: from emin on the stored exponent is e + bias and the leading 1 is subtracted. -/
theorem packFinite_of_normal (hlog : T.fb + unitShift T ≤ A.log2) (hmax : A ≤ scaledMax T) :
    packFinite T round s A = packFields T s (A.log2 - (T.fb + unitShift T) + 1)
      (round ((A - 2 ^ A.log2) * 2 ^ T.fb) (2 ^ A.log2)) := by
  have hunit := unitShift_add T
  have hemax := log2_le_of_le_scaledMax hmax
  have hexp : ((A.log2 : ℤ) - 1074 + T.bias).toNat = A.log2 - (T.fb + unitShift T) + 1 := by omega
  unfold packFinite
  dsimp only
  rw [if_neg (by unfold Format.emin; omega), if_neg (by unfold Format.emax; omega), hexp]

end PackFinite

/-! ## The rounded fraction as an exact rational -/

section Fraction

variable (T : Format) (x : Word)

theorem subnormalFraction_eq (e : ℤ) :
    |finiteValue .binary64 x| / (2 : ℚ) ^ e * (2 : ℚ) ^ (e - T.emin) * 2 ^ T.fb =
      ((scaledMag x * 2 ^ T.fb : ℕ) : ℚ) / (2 ^ (T.fb + unitShift T) : ℕ) := by
  have hunit := unitShift_add T
  have hpow : (2 : ℚ) ^ (1074 : ℕ) * (2 : ℚ) ^ T.emin = 2 ^ (T.fb + unitShift T) := by
    rw [← zpow_natCast, ← zpow_add₀ two_ne_zero, ← zpow_natCast]
    congr 1
    unfold Format.emin
    omega
  rw [zpow_sub₀ two_ne_zero, abs_finiteValue_binary64]
  push_cast
  rw [← hpow]
  field_simp

variable {x}

theorem normalFraction_eq (hzero : classOf .binary64 x ≠ .zero) :
    (|finiteValue .binary64 x| / (2 : ℚ) ^ exponent x - 1) * 2 ^ T.fb =
      (((scaledMag x - 2 ^ (scaledMag x).log2) * 2 ^ T.fb : ℕ) : ℚ) / (2 ^ (scaledMag x).log2 : ℕ) := by
  rw [abs_finiteValue_div_two_zpow_exponent, Nat.cast_mul,
    Nat.cast_sub (Nat.log2_self_le (scaledMag_ne_zero hzero))]
  push_cast
  field_simp

theorem exponent_lt_emin_iff : exponent x < T.emin ↔ (scaledMag x).log2 < T.fb + unitShift T := by
  have hunit := unitShift_add T
  unfold exponent Format.emin
  omega

end Fraction

/-- Settles O35: e is the operand's exponent, and RNE of the numerator and the denominator is RNE of the fraction. -/
theorem packRoundsTheExactFraction : Obligations.PackRoundsTheExactFraction := by
  intro T x e hfin hzero hmax hle hlt
  obtain rfl : e = exponent x :=
    zpow_binade_unique hle hlt (two_zpow_exponent_le hzero) (lt_two_zpow_exponent_succ x)
  have hscaled := (abs_finiteValue_le_maxValue_iff T x).1 hmax
  have hlog := log2_le_of_le_scaledMax hscaled
  have hpack := pack_of_finite hfin hzero hmax
  have hunit := unitShift_add T
  refine ⟨by unfold exponent Format.emax; omega,
    fun hsub => ⟨roundNearestEven (scaledMag x * 2 ^ T.fb) (2 ^ (T.fb + unitShift T)), ?_, ?_⟩,
    fun hnorm => ⟨roundNearestEven ((scaledMag x - 2 ^ (scaledMag x).log2) * 2 ^ T.fb) (2 ^ (scaledMag x).log2),
      ?_, ?_⟩⟩
  · rw [subnormalFraction_eq]
    exact roundsTo_roundNearestEven _ (by positivity)
  · rw [hpack, packFinite_of_subnormal _ _ ((exponent_lt_emin_iff T).1 hsub)]
  · rw [normalFraction_eq T hzero]
    exact roundsTo_roundNearestEven _ (by positivity)
  · have hnormal : T.fb + unitShift T ≤ (scaledMag x).log2 := by
      rwa [← not_lt, ← exponent_lt_emin_iff, not_lt]
    rw [hpack, packFinite_of_normal _ _ hnormal hscaled]
    congr 1
    unfold exponent
    omega

end Sys2Proof.Machine

/-! ## The packed word (42_float_encode.md R86) -/

namespace Sys2Proof.Machine

theorem packFields_eq (T : Format) (s : Bool) (eout q : ℕ) :
    packFields T s eout q = packFields T s 0 (eout * 2 ^ T.fb + q) := by
  simp [packFields]

theorem packFields_zero (T : Format) (s : Bool) : packFields T s 0 0 = 0#64 := by simp [packFields]

section Fields

variable {T : Format} {s : Bool} {mag : ℕ} (hmag : mag < T.expMax * 2 ^ T.fb)
include hmag

theorem lt_signBit_of_lt : mag < 2 ^ (T.width - 1) :=
  hmag.trans (by cases T <;> decide)

/-- The magnitude stands below the sign bit, and a zero has no sign. -/
theorem toNat_packFields : ∃ b : Bool, (mag ≠ 0 → b = s) ∧
    (packFields T s 0 mag).toNat = mag + b.toNat * 2 ^ (T.width - 1) := by
  have hlt := lt_signBit_of_lt hmag
  have hwidth : 2 ^ (T.width - 1) * 2 ≤ 2 ^ 64 := by cases T <;> decide
  obtain rfl | hne := Nat.eq_zero_or_pos mag
  · exact ⟨false, by simp, by simp [packFields]⟩
  · refine ⟨s, fun _ => rfl, ?_⟩
    simp only [packFields, zero_mul, zero_add, if_neg hne.ne', BitVec.toNat_ofNat]
    cases s <;> simp only [Bool.false_eq_true, if_false, if_true, Bool.toNat_false, Bool.toNat_true] <;> omega

theorem packFields_lt : (packFields T s 0 mag).toNat < 2 ^ T.width := by
  obtain ⟨b, -, h⟩ := toNat_packFields (s := s) hmag
  have hlt := lt_signBit_of_lt hmag
  have hwidth : 2 ^ T.width = 2 ^ (T.width - 1) * 2 := by cases T <;> rfl
  have hb := Nat.mul_le_mul_right (2 ^ (T.width - 1)) b.toNat_le
  omega

theorem toNat_packFields_mod : (packFields T s 0 mag).toNat % 2 ^ (T.width - 1) = mag := by
  obtain ⟨b, -, h⟩ := toNat_packFields (s := s) hmag
  rw [h, Nat.add_mul_mod_self_right, Nat.mod_eq_of_lt (lt_signBit_of_lt hmag)]

theorem expField_packFields : expField T (packFields T s 0 mag) = mag / 2 ^ T.fb := by
  have hwidth : T.fb + T.eb = T.width - 1 := by rw [Format.width]; omega
  rw [expField, ← Nat.mod_mul_right_div_self, ← pow_add, hwidth, toNat_packFields_mod hmag]

theorem fracField_packFields : fracField T (packFields T s 0 mag) = mag % 2 ^ T.fb := by
  have hdvd : 2 ^ T.fb ∣ 2 ^ (T.width - 1) := pow_dvd_pow _ (by rw [Format.width]; omega)
  rw [fracField, ← Nat.mod_mod_of_dvd _ hdvd, toNat_packFields_mod hmag]

theorem signField_packFields (hne : mag ≠ 0) : signField T (packFields T s 0 mag) = s := by
  obtain ⟨b, hb, h⟩ := toNat_packFields (s := s) hmag
  rw [signField, BitVec.getLsbD, h, ← hb hne, Nat.testBit_eq_decide_div_mod_eq,
    Nat.add_mul_div_right _ _ (by positivity), Nat.div_eq_of_lt (lt_signBit_of_lt hmag)]
  cases b <;> rfl

theorem isFinite_packFields : isFinite T (packFields T s 0 mag) := by
  rw [isFinite, expField_packFields hmag]
  exact ((Nat.div_lt_iff_lt_mul (by positivity)).2 hmag).ne

end Fields

/-- A significand q up to 2^(fb+1) in binade k: the carry out of the fraction is the next binade (R86). -/
theorem magnitude_packFields {T : Format} (s : Bool) {k q : ℕ} (hmag : k * 2 ^ T.fb + q < T.expMax * 2 ^ T.fb)
    (hlow : k = 0 ∨ 2 ^ T.fb ≤ q) (hhigh : q ≤ 2 ^ (T.fb + 1)) :
    magnitude T (packFields T s 0 (k * 2 ^ T.fb + q)) = q * 2 ^ k := by
  have hpow : 2 ^ (T.fb + 1) = 2 ^ T.fb * 2 := pow_succ 2 T.fb
  have hpos : 0 < 2 ^ T.fb := by positivity
  rw [magnitude, expField_packFields hmag, fracField_packFields hmag, add_comm, Nat.add_mul_div_right _ _ hpos,
    Nat.add_mul_mod_self_right]
  obtain hsub | hnorm := Nat.lt_or_ge q (2 ^ T.fb)
  · obtain rfl : k = 0 := by omega
    rw [Nat.div_eq_of_lt hsub, Nat.mod_eq_of_lt hsub, if_pos rfl, pow_zero, mul_one]
  obtain hlt | hcarry := hhigh.lt_or_eq
  · have hdiv : q / 2 ^ T.fb = 1 := Nat.div_eq_of_lt_le (by omega) (by omega)
    have hmod : 2 ^ T.fb + q % 2 ^ T.fb = q := by
      have := Nat.div_add_mod q (2 ^ T.fb)
      rwa [hdiv, mul_one] at this
    rw [hdiv, hmod, if_neg (by omega), Nat.add_sub_cancel_left]
  · rw [hcarry, hpow, Nat.mul_div_cancel_left _ hpos, Nat.mul_mod_right, if_neg (by omega), add_zero,
      mul_assoc, ← pow_succ']
    congr 2
    omega

end Sys2Proof.Machine

/-! ## The operand and its packed word -/

namespace Sys2Proof.Machine

/-- The magnitude of the operand in units of the least subnormal of T. -/
def ulps (T : Format) (x : Word) : ℚ := (scaledMag x : ℚ) / 2 ^ unitShift T

/-- The packed word of the operand: its magnitude lies in binade k (k = 0 also for all below), q is its rounded
significand there, and the word is `k * 2 ^ fb + q` with the operand's sign (42_float_encode.md R83 to R86). -/
structure Packed (T : Format) (x : Word) (k q : ℕ) : Prop where
  low : k = 0 ∨ (2 : ℚ) ^ (T.fb + k) ≤ ulps T x
  high : ulps T x < (2 : ℚ) ^ (T.fb + 1 + k)
  rounds : RoundsTo (ulps T x / 2 ^ k) q
  word : pack T x = packFields T (signField .binary64 x) 0 (k * 2 ^ T.fb + q)

/-- A zero is packed as 0. -/
theorem packed_of_zero (T : Format) {x : Word} (hzero : classOf .binary64 x = .zero) : Packed T x 0 0 := by
  have hulps : ulps T x = 0 := by rw [ulps, (scaledMag_eq_zero_iff x).2 hzero, Nat.cast_zero, zero_div]
  refine ⟨.inl rfl, by rw [hulps]; positivity, by simp [RoundsTo, hulps], ?_⟩
  rw [pack_of_zero T hzero, zero_mul, packFields_zero]

section Packed

variable {T : Format} {x : Word}

theorem two_pow_fb_mod_two (T : Format) : 2 ^ T.fb % 2 = 0 := by cases T <;> decide

theorem packed_of_subnormal (hsub : (scaledMag x).log2 < T.fb + unitShift T)
    (hpack : pack T x = packFinite T roundNearestEven (signField .binary64 x) (scaledMag x)) :
    Packed T x 0 (roundNearestEven (scaledMag x * 2 ^ T.fb) (2 ^ (T.fb + unitShift T))) := by
  have hulps : ulps T x / 2 ^ 0 = ((scaledMag x * 2 ^ T.fb : ℕ) : ℚ) / (2 ^ (T.fb + unitShift T) : ℕ) := by
    rw [ulps, pow_zero, div_one, pow_add]
    push_cast
    rw [mul_comm, mul_div_mul_left _ _ (by positivity)]
  refine ⟨.inl rfl, ?_, hulps ▸ roundsTo_roundNearestEven _ (by positivity), ?_⟩
  · rw [ulps, div_lt_iff₀ (by positivity), ← pow_add]
    have hlt : scaledMag x < 2 ^ (T.fb + 1 + 0 + unitShift T) :=
      Nat.lt_log2_self.trans_le (Nat.pow_le_pow_right (by decide) (by omega))
    exact_mod_cast hlt
  · rw [hpack, packFinite_of_subnormal _ _ hsub, zero_mul, zero_add]

theorem packed_of_normal (hnorm : T.fb + unitShift T ≤ (scaledMag x).log2) (hmax : scaledMag x ≤ scaledMax T)
    (hzero : scaledMag x ≠ 0)
    (hpack : pack T x = packFinite T roundNearestEven (signField .binary64 x) (scaledMag x)) :
    Packed T x ((scaledMag x).log2 - (T.fb + unitShift T))
      (2 ^ T.fb + roundNearestEven ((scaledMag x - 2 ^ (scaledMag x).log2) * 2 ^ T.fb) (2 ^ (scaledMag x).log2)) := by
  have hword := packFinite_of_normal roundNearestEven (signField .binary64 x) hnorm hmax
  have hle := Nat.log2_self_le hzero
  have hlt := Nat.lt_log2_self (n := scaledMag x)
  obtain ⟨k, hk⟩ := Nat.exists_eq_add_of_le hnorm
  rw [show (scaledMag x).log2 - (T.fb + unitShift T) = k by omega] at hword ⊢
  have hulps : ulps T x / 2 ^ k = (2 ^ T.fb : ℕ) +
      (((scaledMag x - 2 ^ (scaledMag x).log2) * 2 ^ T.fb : ℕ) : ℚ) / (2 ^ (scaledMag x).log2 : ℕ) := by
    rw [Nat.cast_mul, Nat.cast_sub hle, hk, ulps]
    push_cast
    rw [pow_add, pow_add]
    field_simp
    ring
  refine ⟨.inr ?_, ?_, hulps ▸ (roundsTo_roundNearestEven _ (by positivity)).add_even (two_pow_fb_mod_two T), ?_⟩
  · rw [ulps, le_div_iff₀ (by positivity), ← pow_add, show T.fb + k + unitShift T = (scaledMag x).log2 by omega]
    exact_mod_cast hle
  · rw [ulps, div_lt_iff₀ (by positivity), ← pow_add,
      show T.fb + 1 + k + unitShift T = (scaledMag x).log2 + 1 by omega]
    exact_mod_cast hlt
  · rw [hpack, hword, packFields_eq, add_mul, one_mul, add_assoc]

/-- Every finite operand up to MAX_T has a packed word. -/
theorem exists_packed (hfin : isFinite .binary64 x) (hmax : |finiteValue .binary64 x| ≤ maxValue T) :
    ∃ k q, Packed T x k q := by
  by_cases hzero : classOf .binary64 x = .zero
  · exact ⟨0, 0, packed_of_zero T hzero⟩
  have hpack := pack_of_finite hfin hzero hmax
  obtain hsub | hnorm := Nat.lt_or_ge (scaledMag x).log2 (T.fb + unitShift T)
  · exact ⟨0, _, packed_of_subnormal hsub hpack⟩
  · have hscaled := (abs_finiteValue_le_maxValue_iff T x).1 hmax
    exact ⟨_, _, packed_of_normal hnorm hscaled (scaledMag_ne_zero hzero) hpack⟩

theorem ulps_le (hmax : |finiteValue .binary64 x| ≤ maxValue T) :
    ulps T x ≤ ((2 ^ (T.fb + 1) - 1 : ℕ) : ℚ) * 2 ^ (T.expMax - 2) := by
  have hscaled := (abs_finiteValue_le_maxValue_iff T x).1 hmax
  rw [scaledMax_eq, pow_add _ (unitShift T), mul_comm (2 ^ unitShift T), ← mul_assoc] at hscaled
  rw [ulps, div_le_iff₀ (by positivity)]
  exact_mod_cast hscaled

end Packed

namespace Packed

variable {T : Format} {x : Word} {k q : ℕ} (h : Packed T x k q)
include h

theorem le_q : k = 0 ∨ 2 ^ T.fb ≤ q := by
  refine h.low.imp_right fun hlow => h.rounds.le_of_natCast_le ?_
  rw [le_div_iff₀ (by positivity), Nat.cast_pow, Nat.cast_two, ← pow_add]
  exact hlow

theorem q_le : q ≤ 2 ^ (T.fb + 1) := by
  refine h.rounds.le_of_le_natCast ?_
  rw [div_le_iff₀ (by positivity), Nat.cast_pow, Nat.cast_two, ← pow_add]
  exact h.high.le

variable (hmax : |finiteValue .binary64 x| ≤ maxValue T)
include hmax

/-- The binade is at most that of emax (42_float_encode.md R84). -/
theorem binade_le : k ≤ T.expMax - 2 := by
  obtain rfl | hlow := h.low
  · exact Nat.zero_le _
  have hsig : ((2 ^ (T.fb + 1) - 1 : ℕ) : ℚ) < 2 ^ (T.fb + 1) := by
    exact_mod_cast Nat.sub_lt (Nat.two_pow_pos (T.fb + 1)) one_pos
  have hbelow : (2 : ℚ) ^ (T.fb + k) < 2 ^ (T.fb + 1 + (T.expMax - 2)) :=
    calc _ ≤ ulps T x := hlow
      _ ≤ _ := ulps_le hmax
      _ < 2 ^ (T.fb + 1) * 2 ^ (T.expMax - 2) := mul_lt_mul_of_pos_right hsig (by positivity)
      _ = _ := (pow_add _ _ _).symm
  have := (pow_lt_pow_iff_right₀ one_lt_two).1 hbelow
  omega

/-- No carry leaves the top binade: there the significand is at most 2^(fb+1) - 1 before it is rounded
(42_float_encode.md R87). -/
theorem mag_lt : k * 2 ^ T.fb + q < T.expMax * 2 ^ T.fb := by
  have hq := h.q_le
  have hk := h.binade_le hmax
  have hpow : 2 ^ (T.fb + 1) = 2 ^ T.fb * 2 := pow_succ 2 T.fb
  have hpos : 0 < 2 ^ T.fb := by positivity
  have hexp : 2 < T.expMax := by cases T <;> decide
  obtain hlt | rfl := hk.lt_or_eq
  · have hnext := Nat.mul_le_mul_right (2 ^ T.fb) (show k + 3 ≤ T.expMax by omega)
    linarith
  · have hq' : q ≤ 2 ^ (T.fb + 1) - 1 := h.rounds.le_of_le_natCast ((div_le_iff₀ (by positivity)).2 (ulps_le hmax))
    have hnext : (T.expMax - 2) * 2 ^ T.fb + 2 ^ (T.fb + 1) = T.expMax * 2 ^ T.fb := by
      rw [hpow, mul_comm (2 ^ T.fb), ← add_mul, Nat.sub_add_cancel hexp.le]
    omega

end Packed

/-- The least subnormal value of the format. -/
def leastSubnormal (T : Format) : ℚ := 2 ^ unitShift T / 2 ^ 1074

theorem leastSubnormal_pos (T : Format) : 0 < leastSubnormal T := by
  unfold leastSubnormal
  positivity

theorem finiteValue_eq_ulps (T : Format) (w : Word) :
    finiteValue T w = signFactor (signField T w) * (magnitude T w * leastSubnormal T) := by
  rw [finiteValue_eq_scaled, leastSubnormal, mul_div_assoc, mul_div_assoc]

theorem abs_finiteValue_eq_ulps (T : Format) (w : Word) :
    |finiteValue T w| = magnitude T w * leastSubnormal T := by
  rw [abs_finiteValue, leastSubnormal, mul_div_assoc]

theorem abs_finiteValue_binary64_eq_ulps (T : Format) (x : Word) :
    |finiteValue .binary64 x| = ulps T x * leastSubnormal T := by
  rw [abs_finiteValue_binary64, ulps, leastSubnormal, div_mul_div_cancel₀ (by positivity)]

theorem finiteValue_binary64_eq_ulps (T : Format) (x : Word) :
    finiteValue .binary64 x = signFactor (signField .binary64 x) * (ulps T x * leastSubnormal T) := by
  rw [finiteValue_binary64, abs_finiteValue_binary64_eq_ulps T]

/-- Two values are at least as far apart as their magnitudes. -/
theorem dist_magnitude_le (T : Format) (w x : Word) : |(magnitude T w : ℚ) - ulps T x| * leastSubnormal T ≤
    |finiteValue T w - finiteValue .binary64 x| := by
  refine le_trans (le_of_eq ?_) (abs_abs_sub_abs_le _ _)
  rw [abs_finiteValue_eq_ulps, abs_finiteValue_binary64_eq_ulps T, ← sub_mul, abs_mul,
    abs_of_pos (leastSubnormal_pos T)]

/-! ## The packed word is the nearest (42_float_encode.md R90) -/

/-- A magnitude of the format is a multiple of the spacing 2^k of binade k, or lies below that binade. -/
theorem dvd_magnitude_or_lt (T : Format) (w : Word) (k : ℕ) :
    2 ^ k ∣ magnitude T w ∨ magnitude T w < 2 ^ (T.fb + k) := by
  obtain hle | hlt := Nat.lt_or_ge k (expField T w)
  · refine .inl ?_
    rw [magnitude, if_neg (by omega)]
    exact Dvd.dvd.mul_left (pow_dvd_pow 2 (by omega)) _
  · exact .inr ((magnitude_lt T w).trans_le (Nat.pow_le_pow_right (by decide) (by omega)))

namespace Packed

variable {T : Format} {x : Word} {k q : ℕ} (h : Packed T x k q)
include h

/-- The distance to a multiple of the spacing is that of the significands. -/
theorem nearest_mul (n : ℕ) :
    |((q * 2 ^ k : ℕ) : ℚ) - ulps T x| ≤ |((n * 2 ^ k : ℕ) : ℚ) - ulps T x| ∧
      (|((q * 2 ^ k : ℕ) : ℚ) - ulps T x| = |((n * 2 ^ k : ℕ) : ℚ) - ulps T x| → n = q ∨ q % 2 = 0) := by
  have hpos : (0 : ℚ) < 2 ^ k := by positivity
  have hdist (m : ℕ) : |((m * 2 ^ k : ℕ) : ℚ) - ulps T x| = |(m : ℚ) - ulps T x / 2 ^ k| * 2 ^ k := by
    rw [← abs_of_pos hpos, ← abs_mul, abs_of_pos hpos, sub_mul, div_mul_cancel₀ _ hpos.ne']
    push_cast
    rfl
  obtain ⟨hle, htie⟩ := h.rounds.nearest n
  rw [hdist, hdist]
  exact ⟨mul_le_mul_of_nonneg_right hle hpos.le, fun heq => htie (mul_right_cancel₀ hpos.ne' heq)⟩

/-- No magnitude of the format is nearer to the operand's, and one as near leaves q the even of the two. -/
theorem nearest_magnitude (w : Word) :
    |((q * 2 ^ k : ℕ) : ℚ) - ulps T x| ≤ |(magnitude T w : ℚ) - ulps T x| ∧
      (|((q * 2 ^ k : ℕ) : ℚ) - ulps T x| = |(magnitude T w : ℚ) - ulps T x| →
        magnitude T w = q * 2 ^ k ∨ q % 2 = 0) := by
  by_cases hdvd : 2 ^ k ∣ magnitude T w
  · obtain ⟨n, hn⟩ := hdvd
    obtain ⟨hle, htie⟩ := h.nearest_mul n
    rw [hn, mul_comm (2 ^ k) n]
    exact ⟨hle, fun heq => (htie heq).imp_left fun hq => by rw [hq]⟩
  have hlt := (dvd_magnitude_or_lt T w k).resolve_left hdvd
  have hlow := h.low.resolve_left fun hk => hdvd (by simp [hk])
  obtain ⟨hle, -⟩ := h.nearest_mul (2 ^ T.fb)
  have hbelow : (magnitude T w : ℚ) < 2 ^ (T.fb + k) := mod_cast hlt
  have hcast : ((2 ^ T.fb * 2 ^ k : ℕ) : ℚ) = 2 ^ (T.fb + k) := by push_cast; rw [pow_add]
  rw [hcast, abs_sub_comm ((2 : ℚ) ^ _), abs_of_nonneg (sub_nonneg.2 hlow)] at hle
  have hfar : |(magnitude T w : ℚ) - ulps T x| = ulps T x - magnitude T w := by
    rw [abs_sub_comm, abs_of_nonneg (by linarith)]
  rw [hfar]
  exact ⟨by linarith, fun heq => by linarith⟩

variable (hmax : |finiteValue .binary64 x| ≤ maxValue T)
include hmax

theorem isFinite_pack : isFinite T (pack T x) := h.word ▸ isFinite_packFields (h.mag_lt hmax)

theorem pack_lt : (pack T x).toNat < 2 ^ T.width := h.word ▸ packFields_lt (h.mag_lt hmax)

theorem magnitude_pack : magnitude T (pack T x) = q * 2 ^ k := by
  rw [h.word, magnitude_packFields _ (h.mag_lt hmax) h.le_q h.q_le]

theorem sign_pack : pack T x = 0#64 ∨ signField T (pack T x) = signField .binary64 x := by
  rw [h.word]
  by_cases hmag : k * 2 ^ T.fb + q = 0
  · exact .inl (by rw [hmag, packFields_zero])
  · exact .inr (signField_packFields (h.mag_lt hmax) hmag)

theorem fracField_pack_mod_two : fracField T (pack T x) % 2 = q % 2 := by
  have hdvd : 2 ∣ 2 ^ T.fb := Nat.dvd_of_mod_eq_zero (two_pow_fb_mod_two T)
  rw [h.word, fracField_packFields (h.mag_lt hmax), Nat.mod_mod_of_dvd _ hdvd, Nat.add_mod, Nat.mul_mod,
    two_pow_fb_mod_two, mul_zero, Nat.zero_mod, zero_add, Nat.mod_mod]

theorem finiteValue_pack : finiteValue T (pack T x) =
    signFactor (signField .binary64 x) * ((q * 2 ^ k : ℕ) * leastSubnormal T) := by
  rw [finiteValue_eq_ulps, h.magnitude_pack hmax]
  obtain hzero | hsign := h.sign_pack hmax
  · have hmag := h.magnitude_pack hmax
    rw [hzero, (magnitude_eq_zero_iff T _).2 (classOf_zero T)] at hmag
    rw [← hmag, Nat.cast_zero, zero_mul, mul_zero, mul_zero]
  · rw [hsign]

theorem dist_pack : |finiteValue T (pack T x) - finiteValue .binary64 x| =
    |((q * 2 ^ k : ℕ) : ℚ) - ulps T x| * leastSubnormal T := by
  rw [h.finiteValue_pack hmax, finiteValue_binary64_eq_ulps T, ← mul_sub, ← sub_mul, abs_mul, abs_mul,
    abs_signFactor, one_mul, abs_of_pos (leastSubnormal_pos T)]

/-- No value of the format is nearer to the operand, and on a tie the packed word is the even one (R90). -/
theorem nearest (w : Word) :
    |finiteValue T (pack T x) - finiteValue .binary64 x| ≤ |finiteValue T w - finiteValue .binary64 x| ∧
      (|finiteValue T (pack T x) - finiteValue .binary64 x| = |finiteValue T w - finiteValue .binary64 x| →
        finiteValue T w = finiteValue T (pack T x) ∨ fracField T (pack T x) % 2 = 0) := by
  have hpos := leastSubnormal_pos T
  obtain ⟨hle, htie⟩ := h.nearest_magnitude w
  have hmag := mul_le_mul_of_nonneg_right hle hpos.le
  have hfar := dist_magnitude_le T w x
  have hdist := h.dist_pack hmax
  refine ⟨by linarith, fun heq => ?_⟩
  rw [h.fracField_pack_mod_two hmax]
  obtain hsame | heven := htie (mul_right_cancel₀ hpos.ne' (by linarith))
  · have habs : |finiteValue T w| = |finiteValue T (pack T x)| := by
      rw [abs_finiteValue_eq_ulps, abs_finiteValue_eq_ulps, hsame, h.magnitude_pack hmax]
    obtain hw | hw := abs_eq_abs.1 habs
    · exact .inl hw
    rw [hw] at heq ⊢
    obtain hzero | hzero := abs_eq_abs.1 heq
    · exact .inl (by linarith)
    · have hulps : ulps T x * leastSubnormal T = 0 := by
        rw [← abs_finiteValue_binary64_eq_ulps, abs_eq_zero]
        linarith
      have hq : q = 0 := h.rounds.eq_zero (by simp [(mul_eq_zero_iff_right hpos.ne').1 hulps])
      exact .inr (by rw [hq])
  · exact .inr heven

end Packed

end Sys2Proof.Machine

/-! ## Packing never creates an infinity or a NaN (42_float_encode.md R87) -/

namespace Sys2Proof.Machine

section Binary64

variable {x : Word}

/-- From 2^-1022 on the operand is normal: its fraction field is the fraction of its magnitude. -/
theorem normal_numerator_eq (hlog : 52 ≤ (scaledMag x).log2) :
    (scaledMag x - 2 ^ (scaledMag x).log2) * 2 ^ 52 = fracField .binary64 x * 2 ^ (scaledMag x).log2 := by
  have hmag : scaledMag x ≠ 0 := by rintro h; simp [h] at hlog
  have hexp : expField .binary64 x ≠ 0 := by
    intro h
    have hlt := (Nat.log2_lt hmag).2 (magnitude_lt .binary64 x)
    rw [h] at hlt
    exact absurd hlt (by simpa [Format.fb] using hlog)
  have hL : (scaledMag x).log2 = 52 + (expField .binary64 x - 1) := by
    refine (Nat.log2_eq_iff hmag).2 ⟨le_magnitude hexp, (magnitude_lt .binary64 x).trans_le ?_⟩
    exact Nat.pow_le_pow_right (by decide) (by simp only [Format.fb]; omega)
  rw [hL, scaledMag, if_neg hexp, pow_add, ← Nat.mul_sub_right_distrib, Nat.add_sub_cancel_left]
  ring

/-- Every rounding that keeps integers packs a binary64 operand alike: its fraction is an integer. -/
theorem packFinite_binary64 {round : Nat → Nat → Nat} (hround : ∀ q d, 0 < d → round (q * d) d = q) (s : Bool)
    (hmax : scaledMag x ≤ scaledMax .binary64) : packFinite .binary64 round s (scaledMag x) =
      if (scaledMag x).log2 < 52 then packFields .binary64 s 0 (scaledMag x)
      else packFields .binary64 s ((scaledMag x).log2 - 52 + 1) (fracField .binary64 x) := by
  split
  · next hsub => rw [packFinite_of_subnormal round s hsub]; exact congrArg _ (hround _ _ (by decide))
  · next hnorm =>
    rw [not_lt] at hnorm
    rw [packFinite_of_normal (T := .binary64) round s hnorm hmax]
    exact congrArg _ (normal_numerator_eq hnorm ▸ hround _ _ (by positivity))

theorem packFloat_binary64_of_exact {round : Nat → Nat → Nat} (hround : ∀ q d, 0 < d → round (q * d) d = q)
    (nan x : Word) : packFloat .binary64 nan round x = packFloat .binary64 nan roundNearestEven x := by
  obtain hzero | hnan | hsat | ⟨hfin, hzero, hmax⟩ := operand_cases .binary64 x
  · rw [packFloat_of_zero _ _ hzero, packFloat_of_zero _ _ hzero]
  · rw [packFloat_of_nan _ _ hnan, packFloat_of_nan _ _ hnan]
  · rw [packFloat_of_saturates _ _ hsat, packFloat_of_saturates _ _ hsat]
  · have hscaled := (abs_finiteValue_le_maxValue_iff _ x).1 hmax
    rw [packFloat_of_finite _ _ hfin hzero hmax, packFloat_of_finite _ _ hfin hzero hmax,
      packFinite_binary64 hround _ hscaled, packFinite_binary64 roundNearestEven_mul _ hscaled]

theorem exists_normalFraction_eq (hzero : classOf .binary64 x ≠ .zero)
    (hle : Format.binary64.emin ≤ exponent x) :
    ∃ q : ℕ, (|finiteValue .binary64 x| / (2 : ℚ) ^ exponent x - 1) * 2 ^ 52 = q := by
  have hnorm : 52 ≤ (scaledMag x).log2 := by
    rw [← not_lt, exponent_lt_emin_iff, not_lt] at hle
    exact hle
  refine ⟨fracField .binary64 x, (normalFraction_eq .binary64 hzero).trans ?_⟩
  rw [show Format.binary64.fb = 52 from rfl, normal_numerator_eq hnorm, Nat.cast_mul,
    mul_div_cancel_right₀ _ (by positivity)]

theorem exists_subnormalFraction_eq (x : Word) (e : ℤ) : ∃ q : ℕ,
    |finiteValue .binary64 x| / (2 : ℚ) ^ e * (2 : ℚ) ^ (e - Format.binary64.emin) * 2 ^ 52 = q := by
  refine ⟨scaledMag x, (subnormalFraction_eq .binary64 x e).trans ?_⟩
  rw [Nat.cast_mul]
  exact mul_div_cancel_right₀ _ (by positivity)

end Binary64

/-- Settles O36: the packed magnitude stays below the top exponent field, and for binary64 it is rounded exactly. -/
theorem packingNeverOverflows : Obligations.PackingNeverOverflows := by
  refine ⟨fun T x hfin hmax => ?_, fun nan round x hround => packFloat_binary64_of_exact hround nan x,
    fun x e hfin hle hlt => ?_, fun x hfin hmax _ => ?_⟩
  · obtain ⟨k, q, hpacked⟩ := exists_packed hfin hmax
    refine ⟨?_, hpacked.pack_lt hmax, (isFinite_iff _ _).1 (hpacked.isFinite_pack hmax)⟩
    rw [hpacked.word, toNat_packFields_mod (hpacked.mag_lt hmax)]
    exact hpacked.mag_lt hmax
  · have hzero : classOf .binary64 x ≠ .zero := by
      intro h
      rw [abs_finiteValue_binary64, (scaledMag_eq_zero_iff x).2 h, Nat.cast_zero, zero_div] at hle
      exact absurd hle (by positivity : (0 : ℚ) < 2 ^ e).not_ge
    obtain rfl : e = exponent x :=
      zpow_binade_unique hle hlt (two_zpow_exponent_le hzero) (lt_two_zpow_exponent_succ x)
    exact ⟨exists_normalFraction_eq hzero, fun _ => exists_subnormalFraction_eq x _⟩
  · have htop : |finiteValue .binary64 x| / (2 : ℚ) ^ Format.binary32.emax ≤ 2 - 1 / 2 ^ 23 :=
      (div_le_iff₀ (by positivity)).2 hmax
    linarith

end Sys2Proof.Machine

/-! ## Values and their patterns (42_float_encode.md R89, R90) -/

namespace Sys2Proof.Machine

section Exact

variable {T : Format} {x w : Word}

theorem floatValue_infWord (T : Format) (s : Bool) : floatValue T (infWord T s) = .inf s := by
  rw [floatValue_eq_inf_iff]
  cases T <;> cases s <;> decide

theorem infWord_lt (T : Format) (s : Bool) : (infWord T s).toNat < 2 ^ T.width := by
  cases T <;> cases s <;> decide

/-- An operand that is a value of the format, but no zero and no NaN, is packed as the pattern of that value. -/
theorem pack_of_floatValue_eq (hw : w.toNat < 2 ^ T.width) (hzero : classOf T w ≠ .zero) (hnan : classOf T w ≠ .nan)
    (hvalue : floatValue .binary64 x = floatValue T w) : pack T x = w := by
  by_cases hinf : classOf T w = .inf
  · have hwinf := (floatValue_eq_inf_iff T w _).2 ⟨hinf, rfl⟩
    obtain ⟨hclass, hsign⟩ := (floatValue_eq_inf_iff _ x _).1 (hvalue.trans hwinf)
    rw [pack_of_saturates (.inl hclass), hsign]
    exact (eq_of_floatValue_eq hw (infWord_lt T _) hzero hnan (hwinf.trans (floatValue_infWord T _).symm)).symm
  · have hwfin : isFinite T w := (isFinite_iff _ _).2 ⟨hinf, hnan⟩
    rw [floatValue_of_finite hinf hnan] at hvalue
    have hxfin : isFinite .binary64 x := by
      rw [isFinite_iff]
      refine ⟨fun h => ?_, fun h => ?_⟩
      · rw [(floatValue_eq_inf_iff _ _ _).2 ⟨h, rfl⟩] at hvalue
        cases hvalue
      · rw [(floatValue_eq_nan_iff _ _).2 h] at hvalue
        cases hvalue
    obtain ⟨hxinf, hxnan⟩ := (isFinite_iff _ _).1 hxfin
    rw [floatValue_of_finite hxinf hxnan, FValue.finite.injEq] at hvalue
    have hmax : |finiteValue .binary64 x| ≤ maxValue T := hvalue ▸ abs_finiteValue_le_maxValue hwfin
    obtain ⟨k, q, hpacked⟩ := exists_packed hxfin hmax
    obtain ⟨hle, -⟩ := hpacked.nearest hmax w
    obtain ⟨hpinf, hpnan⟩ := (isFinite_iff _ _).1 (hpacked.isFinite_pack hmax)
    rw [hvalue, sub_self, abs_zero, abs_nonpos_iff, sub_eq_zero] at hle
    refine (eq_of_floatValue_eq hw (hpacked.pack_lt hmax) hzero hnan ?_).symm
    rw [floatValue_of_finite hinf hnan, floatValue_of_finite hpinf hpnan, hle]

end Exact

/-- The two zeros of binary64. -/
theorem eq_of_classOf_zero {x : Word} (h : classOf .binary64 x = .zero) : x = 0#64 ∨ x = 0x8000000000000000#64 := by
  obtain ⟨hexp, hfrac⟩ := (classOf_eq_zero_iff _ _).1 h
  have hw := toNat_eq_fields (T := .binary64) (w := x) x.isLt
  rw [hexp, hfrac] at hw
  cases hsign : signField .binary64 x <;> rw [hsign] at hw
  · exact .inl (BitVec.eq_of_toNat_eq hw)
  · exact .inr (BitVec.eq_of_toNat_eq hw)

/-- Settles O37: a binary64 operand is a binary64 value. -/
theorem pack64IsTheIdentity : Obligations.Pack64IsTheIdentity := by
  refine ⟨fun x hne hnan => ?_, pack_of_zero _ (by decide), fun x => pack_of_nan _⟩
  by_cases hzero : classOf .binary64 x = .zero
  · rw [pack_of_zero _ hzero, (eq_of_classOf_zero hzero).resolve_right hne]
  · exact pack_of_floatValue_eq x.isLt hzero hnan rfl

/-- Half of the least subnormal and all below it underflow to 0 (42_float_encode.md R90). -/
theorem Packed.pack_eq_zero {T : Format} {x : Word} {k q : ℕ} (h : Packed T x k q) (hulps : ulps T x ≤ 1 / 2) :
    pack T x = 0#64 := by
  have hk : k = 0 := by
    refine h.low.resolve_right fun hlow => ?_
    have hone : (1 : ℚ) ≤ 2 ^ (T.fb + k) := one_le_pow₀ one_le_two
    linarith
  subst hk
  have hq : q = 0 := h.rounds.eq_zero (by rwa [pow_zero, div_one])
  rw [h.word, hq, zero_mul, packFields_zero]

theorem leastSubnormal_binary32 : leastSubnormal .binary32 = 1 / 2 ^ 149 := by
  rw [leastSubnormal, show unitShift .binary32 = 925 from rfl, div_eq_div_iff (by positivity) (by positivity), one_mul,
    ← pow_add]

/-- Settles O38: the spacing of the operand's binade is that of the packed word. -/
theorem pack32IsTheNearestValue : Obligations.Pack32IsTheNearestValue := by
  refine ⟨fun x hfin hmax => ?_, fun x hfin hmax => pack_of_saturates (.inr ⟨hfin, hmax⟩),
    fun x hfin hsmall => ?_, fun x => pack_of_nan _, fun x w hw => pack_of_floatValue_eq hw⟩
  · obtain ⟨k, q, hpacked⟩ := exists_packed hfin hmax
    exact ⟨hpacked.isFinite_pack hmax, hpacked.pack_lt hmax, hpacked.sign_pack hmax,
      fun w' _ _ => hpacked.nearest hmax w'⟩
  · have hmax : |finiteValue .binary64 x| ≤ maxValue .binary32 :=
      hsmall.trans (by norm_num [maxValue, Format.fb, Format.bias, Format.eb])
    obtain ⟨k, q, hpacked⟩ := exists_packed hfin hmax
    refine hpacked.pack_eq_zero ?_
    rw [abs_finiteValue_binary64_eq_ulps .binary32, leastSubnormal_binary32] at hsmall
    linarith

end Sys2Proof.Machine

/-! ## ENCODE_F32 and ENCODE_F64 -/

namespace Sys2Proof.Machine

theorem pack_lt_two_pow_width (T : Format) (x : Word) : (pack T x).toNat < 2 ^ T.width := by
  obtain hzero | hnan | hsat | ⟨hfin, -, hmax⟩ := operand_cases T x
  · rw [pack_of_zero T hzero]
    exact Nat.two_pow_pos T.width
  · rw [pack_of_nan T hnan]
    cases T <;> decide
  · rw [pack_of_saturates hsat]
    exact infWord_lt T _
  · obtain ⟨k, q, hpacked⟩ := exists_packed hfin hmax
    exact hpacked.pack_lt hmax

theorem lowOctets_of_lt {n : ℕ} {w : Word} (h : w.toNat < 2 ^ (8 * n)) : lowOctets n w = w := by
  apply BitVec.eq_of_toNat_eq
  rw [lowOctets_toNat, Nat.mod_eq_of_lt h]

theorem width_targetFormat {i : Instr} (hr : i.op.isRead = false) : (targetFormat i).width = 8 * i.op.octets := by
  revert hr
  cases i <;> decide

/-- The octets of a word in the order they are sent (20_memory.md R43). -/
def octetsOf (order : Order) (n : ℕ) (w : Word) : List Byte := (List.range n).map fun k => sendOctet order n k w

/-- The whole encode command i offers `sent` to the sink, leaves the source alone, and ends with RESULT = RAW = w and
this WERR. -/
def SendsOctets (i : Instr) (s : State) (sent : List Sent) (rest : List Bool) (w : Word) (werr : Bool) : Prop :=
  ∃ t, runExec i (i.op.octets + 2) s = .next t ∧
    RanCommand i s t w w (classCode (classOf (targetFormat i) w)) false werr ∧ t.source = s.source ∧
    t.sink = { answers := rest, sent := s.sink.sent ++ sent }

section EncodeCommand

variable {i : Instr} {oks rest : List Bool} {s : State} (hr : i.op.isRead = false) (hp : s.int.phase = .idle)
  (hlen : oks.length = i.op.octets) (hans : s.sink.answers = oks ++ rest)
include hr hp hlen hans

/-- A whole encode command sends the octets of the packed operand and ends with it (42_float_encode.md R91 to R93). -/
theorem sendsOctets_of_encode : SendsOctets i s
    (List.zipWith Sent.mk (octetsOf i.order i.op.octets (pack (targetFormat i) s.regs.opnd)) oks) rest
    (pack (targetFormat i) s.regs.opnd) (oks.any fun ok => !ok) := by
  obtain ⟨sent, k, hoks, hds, -, hrun⟩ := runExec_encode i hr oks rest s hp hlen hans
  have hlow : lowOctets i.op.octets (pack (targetFormat i) s.regs.opnd) = pack (targetFormat i) s.regs.opnd :=
    lowOctets_of_lt (width_targetFormat hr ▸ pack_lt_two_pow_width _ _)
  have hsent : List.zipWith Sent.mk (octetsOf i.order i.op.octets (pack (targetFormat i) s.regs.opnd)) oks = sent := by
    rw [octetsOf, ← hds, ← hoks, List.zipWith_map, List.zipWith_self]
    exact List.map_id sent
  refine ⟨_, hrun, ?_, by simp, by simp [hsent]⟩
  rw [completion_of_encode hr]
  simp only [accept_tx, hlow]
  refine ⟨rfl, rfl, ?_, rfl, rfl, rfl, rfl, rfl⟩
  simp only [complete_status, accept_n, toNat_octets, accept_status]
  exact completedStatus_of_accepted _ _ _ _ _

end EncodeCommand

theorem any_not_four (p q r u : Bool) : ([p, q, r, u].any fun ok => !ok) = (!p || !q || !r || !u) := by
  simp [Bool.or_assoc]

theorem any_not_eight (p0 p1 p2 p3 p4 p5 p6 p7 : Bool) : ([p0, p1, p2, p3, p4, p5, p6, p7].any fun ok => !ok) =
    (!p0 || !p1 || !p2 || !p3 || !p4 || !p5 || !p6 || !p7) := by simp [Bool.or_assoc]

/-- Settles O18: under BE the top octet is sent first, under LE the lowest. -/
theorem encodeF32Command : Obligations.EncodeF32Command := by
  refine ⟨rfl, rfl, fun s p q r u rest hp hans => ⟨pack_lt_two_pow_width .binary32 _, ?_⟩, ?_,
    fun x => pack_of_nan .binary32⟩
  · rw [← any_not_four]
    exact ⟨sendsOctets_of_encode (i := .encodeF32Be) rfl hp rfl hans,
      sendsOctets_of_encode (i := .encodeF32Le) rfl hp rfl hans⟩
  · simp only [List.forall_mem_cons]
    refine ⟨?_, ?_, ?_, ?_, ?_, ?_, ?_, ?_, ?_, ?_, ?_, ?_, nofun⟩ <;> decide +kernel

/-- Settles O19: under BE the top octet is sent first, under LE the lowest. -/
theorem encodeF64Command : Obligations.EncodeF64Command := by
  refine ⟨rfl, rfl, fun s p0 p1 p2 p3 p4 p5 p6 p7 rest hp hans => ?_, ?_, fun x => pack_of_nan .binary64⟩
  · rw [← any_not_eight]
    exact ⟨sendsOctets_of_encode (i := .encodeF64Be) rfl hp rfl hans,
      sendsOctets_of_encode (i := .encodeF64Le) rfl hp rfl hans⟩
  · simp only [List.forall_mem_cons]
    refine ⟨?_, ?_, ?_, ?_, ?_, ?_, nofun⟩ <;> decide +kernel

end Sys2Proof.Machine

/-! ## Encode then decode (42_float_encode.md R94) -/

namespace Sys2Proof.Machine

theorem digitSum_self (x n : ℕ) : ∑ j ∈ Finset.range n, x / 256 ^ j % 256 * 256 ^ j = x % 256 ^ n := by
  induction n with
  | zero => simp [Nat.mod_one]
  | succ n ih => rw [Finset.sum_range_succ, ih, Nat.mod_pow_succ, mul_comm]

/-- The octets sent, read back in the same order, are the word (20_memory.md R42, R43). -/
theorem assemble_octetsOf {order : Order} {n : ℕ} {w : Word} {buf : Vector Slot 8} (hn : n ≤ 8)
    (hw : w.toNat < 2 ^ (8 * n))
    (hbuf : HoldsOctets buf ((octetsOf order n w).map fun d => { eos := false, d := d })) :
    assemble Config.eosFill order n buf = w := by
  apply BitVec.eq_of_toNat_eq
  have hoctet : ∀ j ∈ Finset.range n, (wordOctet Config.eosFill order n buf j).toNat * 256 ^ j =
      w.toNat / 256 ^ j % 256 * 256 ^ j := by
    intro j hj
    have hj' := Finset.mem_range.1 hj
    have hslot := hbuf (significance order n j) { eos := false, d := sendOctet order n (significance order n j) w }
      (by simp [octetsOf, significance_lt order hj'])
    rw [wordOctet, hslot]
    simp only [fillOctet, Bool.false_eq_true, if_false]
    rw [toNat_sendOctet, significance_significance order hj']
  rw [toNat_assemble _ _ _ hn, Finset.sum_congr rfl hoctet, digitSum_self, Nat.mod_eq_of_lt]
  rwa [pow_mul] at hw

theorem classOf_infWord (T : Format) (s : Bool) : classOf T (infWord T s) = .inf :=
  ((floatValue_eq_inf_iff T _ _).1 (floatValue_infWord T s)).1

theorem classOf_encNan (T : Format) : classOf T (Config.encNan T) = .nan := by cases T <;> decide

/-- The encoder emits no negative zero (42_float_encode.md R86). -/
theorem pack_eq_zero_of_classOf {T : Format} {x : Word} (h : classOf T (pack T x) = .zero) : pack T x = 0#64 := by
  obtain hzero | hnan | hsat | ⟨hfin, -, hmax⟩ := operand_cases T x
  · exact pack_of_zero T hzero
  · rw [pack_of_nan T hnan, classOf_encNan] at h
    cases h
  · rw [pack_of_saturates hsat, classOf_infWord] at h
    cases h
  · obtain ⟨k, q, hpacked⟩ := exists_packed hfin hmax
    have hmag := hpacked.magnitude_pack hmax
    rw [(magnitude_eq_zero_iff T _).2 h] at hmag
    have hq : q = 0 := by simpa using hmag.symm
    have hk : k = 0 := hpacked.le_q.resolve_right (by simp [hq])
    rw [hpacked.word, hq, hk, zero_mul, packFields_zero]

/-- Only a NaN is packed as a NaN. -/
theorem classOf_pack_ne_nan (T : Format) {x : Word} (hnan : classOf .binary64 x ≠ .nan) :
    classOf T (pack T x) ≠ .nan := by
  obtain hzero | hnan' | hsat | ⟨hfin, -, hmax⟩ := operand_cases T x
  · simp [pack_of_zero T hzero]
  · exact absurd hnan' hnan
  · simp [pack_of_saturates hsat, classOf_infWord]
  · obtain ⟨k, q, hpacked⟩ := exists_packed hfin hmax
    exact ((isFinite_iff _ _).1 (hpacked.isFinite_pack hmax)).2

/-- What an operand other than a NaN is packed as decodes to itself. -/
theorem decodeWord_pack (T : Format) {x : Word} (hnan : classOf .binary64 x ≠ .nan) :
    decodeWord T (pack T x) = pack T x := by
  by_cases hzero : classOf T (pack T x) = .zero
  · rw [pack_eq_zero_of_classOf hzero]
    exact decodeFloat_of_zero _ (classOf_zero T)
  · exact decodeFloat_of_other _ hzero (classOf_pack_ne_nan T hnan)

theorem decodeWord_pack_of_zero (T : Format) {x : Word} (h : classOf .binary64 x = .zero) :
    decodeWord T (pack T x) = 0#64 := by
  rw [decodeWord_pack T (by simp [h]), pack_of_zero T h]

theorem decodeWord_pack_of_nan (T : Format) {x : Word} (h : classOf .binary64 x = .nan) :
    decodeWord T (pack T x) = Config.decNan T := by
  rw [pack_of_nan T h]
  exact decodeFloat_of_nan _ (classOf_encNan T)

theorem map_zipWith_sent {α : Type} (f : Byte → α) {ds : List Byte} {oks : List Bool}
    (hlen : ds.length = oks.length) : (List.zipWith Sent.mk ds oks).map (fun x => f x.d) = ds.map f := by
  apply List.ext_getElem <;> simp [hlen]

/-- The state t after an encode command that began in s, with the octets it sent offered to the source. -/
def fedBack (s t : State) (rest : List Slot) : State :=
  { t with source := { t.source with pending :=
    (t.sink.sent.drop s.sink.sent.length).map (fun x => { eos := false, d := x.d }) ++ rest } }

/-- The encode command i and the decode command j are of the one format T with n octets and of the same order. -/
structure Paired (i j : Instr) (T : Format) (n : ℕ) : Prop where
  isEncode : i.op.isRead = false
  isDecode : j.op.isRead = true
  octets_i : i.op.octets = n
  octets_j : j.op.octets = n
  order : j.order = i.order
  target : targetFormat i = T
  value : ∀ buf, readValue j buf = floatResult T j.order j.op.octets buf

theorem paired_f32 (order : Order) :
    Paired (Instr.ofParts .encodeF32 order) (Instr.ofParts .decodeF32 order) .binary32 4 := by
  cases order <;> exact ⟨rfl, rfl, rfl, rfl, rfl, rfl, fun _ => rfl⟩

theorem paired_f64 (order : Order) :
    Paired (Instr.ofParts .encodeF64 order) (Instr.ofParts .decodeF64 order) .binary64 8 := by
  cases order <;> exact ⟨rfl, rfl, rfl, rfl, rfl, rfl, fun _ => rfl⟩

/-- The octets an encode command has sent decode to what its operand was packed as. -/
theorem Paired.runExec_decode {i j : Instr} {T : Format} {n : ℕ} (h : Paired i j T n) {s t : State} (rest : List Slot)
    (hp : s.int.phase = .idle) (hlen : n ≤ s.sink.answers.length) (hrun : runExec i (n + 2) s = .next t) :
    ∃ u, runExec j (n + 2) (fedBack s t rest) = .next u ∧ u.regs.result = decodeWord T (pack T s.regs.opnd) := by
  obtain ⟨hi, hj, rfl, hoctets, horder, rfl, hvalue⟩ := h
  obtain ⟨t', hrun', hran, -, hsink⟩ := sendsOctets_of_encode hi hp (List.length_take_of_le hlen)
    (List.take_append_drop i.op.octets s.sink.answers).symm
  obtain rfl : t' = t := Host.Outcome.next.inj (hrun'.symm.trans hrun)
  obtain ⟨-, -, -, -, -, hidle, -, -⟩ := hran
  have hpend : (fedBack s t' rest).source.pending =
      (octetsOf i.order i.op.octets (pack (targetFormat i) s.regs.opnd)).map
        (fun d => { eos := false, d := d }) ++ rest := by
    rw [fedBack, hsink, List.drop_left]
    exact congrArg (· ++ rest) (map_zipWith_sent _ (by simp [octetsOf, hlen]))
  obtain ⟨u, hrunU, ⟨hresult, -⟩, -⟩ := readsOctets_of_decode hj hvalue (s := fedBack s t' rest) hidle
    (by simp [octetsOf, hoctets]) hpend fun buf hbuf => by
      rw [horder, hoctets]
      exact assemble_octetsOf (octets_le i.op) (width_targetFormat hi ▸ pack_lt_two_pow_width _ _) hbuf
  exact ⟨u, hoctets ▸ hrunU, hresult⟩

/-- Settles O39: the octets sent assemble to the packed word, and of the packed words the decoder changes the NaN
alone. -/
theorem encodeThenDecodeRoundTrip : Obligations.EncodeThenDecodeRoundTrip := by
  obtain ⟨hidentity, -, -⟩ := pack64IsTheIdentity
  refine ⟨fun order s t rest hp hlen hrun => ?_, fun order s t rest hp hlen hrun => ?_⟩
  · obtain ⟨u, hrunU, hresult⟩ := (paired_f64 order).runExec_decode rest hp hlen hrun
    refine ⟨u, hrunU, fun hzero hnan => ?_, fun hzero => hresult.trans (decodeWord_pack_of_zero _ hzero),
      fun hnan => hresult.trans (decodeWord_pack_of_nan _ hnan)⟩
    have hne : s.regs.opnd ≠ 0x8000000000000000#64 := fun h => hzero (by rw [h]; decide)
    rw [hresult, decodeWord_pack _ hnan, hidentity _ hne hnan]
  · obtain ⟨u, hrunU, hresult⟩ := (paired_f32 order).runExec_decode rest hp hlen hrun
    exact ⟨u, hrunU, fun _ hnan => hresult.trans (decodeWord_pack _ hnan),
      fun hzero => hresult.trans (decodeWord_pack_of_zero _ hzero),
      fun hnan => hresult.trans (decodeWord_pack_of_nan _ hnan)⟩

end Sys2Proof.Machine

/-! PROOFS. The statements of 60_exceptions.md: no step of CORE stops, and instances share nothing. -/

namespace Sys2Proof.Machine

/-! ## CORE raises no trap (60_exceptions.md R97, R103) -/

section NoFault

variable {s : State} {i : Instr}

/-- A read transfer whose slot lies in int.buf has a next state, whether or not the source answers
(20_memory.md R36, R38). -/
theorem exists_readTransfer_next (hk8 : s.int.k.toNat < 8) : ∃ t, readTransfer s = .next t := by
  unfold readTransfer
  split
  · exact ⟨_, rfl⟩
  · exact ⟨_, if_pos hk8⟩

/-- A write transfer has a next state, whether or not the sink answers (20_memory.md R36, R39). -/
theorem exists_writeTransfer_next (s : State) : ∃ t, writeTransfer s = .next t := by
  unfold writeTransfer
  split <;> exact ⟨_, rfl⟩

/-- The command in progress has a next step, since int.k has not passed int.n and int.n is at most 8. -/
theorem InProgress.exists_exec_next (hi : InProgress i s) (hp : s.int.phase = .xfer) : ∃ t, exec i s = .next t := by
  obtain hk | hk : s.int.k < s.int.n ∨ s.int.k = s.int.n :=
    (Nat.lt_or_eq_of_le hi.slot).imp_right BitVec.eq_of_toNat_eq
  · cases hr : i.op.isRead with
    | true =>
      have hk8 : s.int.k.toNat < 8 := (BitVec.lt_def.1 hk).trans_le (hi.octets ▸ octets_le i.op)
      rw [exec_read_transfer i s hr hp hi.running hk]
      exact exists_readTransfer_next hk8
    | false =>
      rw [exec_write_transfer i s hr hp hi.running hk]
      exact exists_writeTransfer_next s
  · exact ⟨_, exec_complete i s hp hi.running hk⟩

/-- CORE's turn has a next state: when IDLE it does nothing, and in XFER a command is in progress. -/
theorem Inv.exists_coreTurn_next (h : Inv s) : ∃ t, coreTurn s = .next t := by
  cases hp : s.int.phase with
  | idle => exact ⟨s, by simp [coreTurn, hp]⟩
  | xfer =>
    obtain ⟨i, hi⟩ := h.exists_inProgress hp
    rw [coreTurn_running hp hi.running]
    exact hi.exists_exec_next hp

/-- A write to CMD is ignored, accepted or recorded, whatever the word (10_state.md R14, 30_encoding.md R57, R58). -/
theorem exists_writeCmd_next (v : Word) (s : State) : ∃ t, writeCmd v s = .next t := by
  cases hp : s.int.phase with
  | idle =>
    cases hd : decode v with
    | ok i => exact ⟨_, (writeCmd_idle_legal hp hd).trans (exec_idle i s hp)⟩
    | error e => exact ⟨_, writeCmd_idle_illegal hp hd⟩
  | xfer => exact ⟨s, writeCmd_xfer hp v⟩

theorem exists_writeReg_next (number : Nat) (v : Word) (s : State) : ∃ t, writeReg number v s = .next t :=
  match number with
  | 0 => exists_writeCmd_next v s
  | 1 => ⟨_, rfl⟩
  | _ + 2 => ⟨s, rfl⟩

/-- A host instruction is refused or has a next state. -/
theorem runHostInstr_ne_fault (i : HostInstr) (s : State) (r : Fault) : runHostInstr i s ≠ .fault r := by
  cases i with
  | wr a v =>
    obtain ⟨t, ht⟩ := exists_writeReg_next (a.offset / 8) v (advanceHost s)
    cases ha : a.wellFormed <;> simp [runHostInstr, ha, ht]
  | rd t a => cases ha : a.wellFormed <;> simp [runHostInstr, ha]
  | andi td ts imm => nofun
  | bnz t target => by_cases ht : temp t s = 0#64 <;> simp [runHostInstr, ht]
  | addi td ts imm => nofun

theorem hostTurn_ne_fault (s : State) (r : Fault) : hostTurn s ≠ .fault r := by
  unfold hostTurn
  split
  · exact runHostInstr_ne_fault _ s r
  · nofun

/-- No agent's turn faults where the invariant holds; the host's turn and a reset fault nowhere. -/
theorem Inv.step_ne_fault (h : Inv s) (r : Fault) : step s ≠ .fault r := by
  cases hturn : nextTurn s with
  | host =>
    rw [step_host s hturn]
    exact hostTurn_ne_fault _ r
  | core =>
    have hpop : Inv (popTurn s) := h.congr rfl rfl
    obtain ⟨t, ht⟩ := hpop.exists_coreTurn_next
    rw [step_core s hturn, ht]
    nofun
  | reset =>
    rw [step_reset s hturn]
    nofun

end NoFault

/-- Settles O44: in XFER the invariant gives a command in progress whose slot is in range, so CORE's turn has a next
state, and the only refusal is that of a bad bus access. -/
theorem noStepFaults : Obligations.NoStepFaults := by
  intro s h
  refine ⟨h.step_ne_fault, fun r hr => ?_⟩
  obtain ⟨hbad, -⟩ := (badBusAccessIsRefused s r).1 hr
  exact hbad

/-! ## Several instances (60_exceptions.md R108) -/

section Instances

variable {p q : Platform} {j : Nat}

theorem Attached.disjoint_iff (a b : Attached) : a.disjoint b = true ↔
    a.sourceId ≠ b.sourceId ∧ a.sourceId ≠ b.sinkId ∧ a.sinkId ≠ b.sourceId ∧ a.sinkId ≠ b.sinkId := by
  simp only [Attached.disjoint, Bool.and_eq_true, decide_eq_true_eq, and_assoc]

theorem Attached.disjoint_symm {a b : Attached} (h : a.disjoint b = true) : b.disjoint a = true := by
  obtain ⟨hss, hsk, hks, hkk⟩ := (a.disjoint_iff b).1 h
  exact (b.disjoint_iff a).2 ⟨hss.symm, hks.symm, hsk.symm, hkk.symm⟩

theorem streamsApart_iff_pairwise (cores : List Attached) :
    streamsApart cores = true ↔ cores.Pairwise fun a b => a.disjoint b = true := by
  induction cores with
  | nil => simp [streamsApart]
  | cons a rest ih => simp [streamsApart, ih]

/-- Streams that are apart are apart for any two instances, in either order. -/
theorem disjoint_of_streamsApart {cores : List Attached} (hapart : streamsApart cores = true) {h k : Nat}
    {a b : Attached} (hne : h ≠ k) (ha : cores[h]? = some a) (hb : cores[k]? = some b) : a.disjoint b = true := by
  obtain ⟨hh, rfl⟩ := List.getElem?_eq_some_iff.1 ha
  obtain ⟨hk, rfl⟩ := List.getElem?_eq_some_iff.1 hb
  have hpair := List.pairwise_iff_getElem.1 ((streamsApart_iff_pairwise cores).1 hapart)
  obtain hlt | hgt := hne.lt_or_gt
  · exact hpair h k hh hk hlt
  · exact Attached.disjoint_symm (hpair k h hk hh hgt)

/-- A platform's step is the step of one of its cores, put back in its place. -/
theorem Platform.step_next (h : p.step j = .next q) : ∃ a s, p.cores[j]? = some a ∧
    Machine.step a.state = .next s ∧ q.cores = p.cores.set j { a with state := s } := by
  unfold Platform.step at h
  split at h
  · split at h
    · next a ha =>
      split at h
      · next s hs => cases h; exact ⟨a, s, ha, hs, rfl⟩
      · cases h
      · cases h
    · cases h
  · cases h

theorem Platform.step_of_not_streamsApart (h : ¬ streamsApart p.cores = true) (j : Nat) :
    p.step j = .refused .sharedStream := if_neg h

end Instances

/-- Settles O58: the step replaces entry j of the list of instances, and streams that are apart are apart for every
two instances. -/
theorem instancesShareNothing : Obligations.InstancesShareNothing := by
  refine ⟨fun p q j h => ?_, fun p j h k a b hne ha hb hshared => ?_⟩
  · obtain ⟨a, s, ha, hs, hq⟩ := Platform.step_next h
    obtain ⟨hj, -⟩ := List.getElem?_eq_some_iff.1 ha
    rw [hq]
    exact ⟨List.length_set, fun k hk => List.getElem?_set_ne hk.symm, a, s, ha, hs, List.getElem?_set_self hj⟩
  · refine Platform.step_of_not_streamsApart (fun hapart => ?_) j
    obtain ⟨hss, hsk, hks, hkk⟩ := (a.disjoint_iff b).1 (disjoint_of_streamsApart hapart hne ha hb)
    obtain hst | hst | hst | hst := hshared
    exacts [hss hst, hsk hst, hks hst, hkk hst]

end Sys2Proof.Machine

/-! PROOFS. The statements of 70_reset_and_hazards.md: a reset at any time, and the end of a run. -/

namespace Sys2Proof.Machine

/-! ## Reset (70_reset_and_hazards.md R111) -/

/-- Settles O53: a reset turn is `resetCore`, which writes the registers and the internal state alone. -/
theorem resetAtAnyTime : Obligations.ResetAtAnyTime := by
  intro s hturn
  exact ⟨resetCore (popTurn s), step_reset s hturn, resetCore_regs _, resetCore_int _, resetCore_source _,
    resetCore_sink _, resetCore_host _, resetCore_sched _⟩

/-! ## The end of a run (70_reset_and_hazards.md R118) -/

section Ended

variable {s : State}

/-- The host makes no move once its program has ended. -/
theorem hostTurn_ended (h : s.host.prog[s.host.pc]? = none) : hostTurn s = .next s := by
  simp only [hostTurn, h]

/-- CORE makes no move when IDLE. -/
theorem coreTurn_idle (hp : s.int.phase = .idle) : coreTurn s = .next s := by
  simp only [coreTurn, hp]

end Ended

/-- Settles O56: the host's turn finds the program ended and CORE's turn finds CORE IDLE, so either leaves the state
with the turn taken. -/
theorem endedRunStays : Obligations.EndedRunStays := by
  rintro s ⟨hprog, hidle⟩ hturn
  cases hagent : nextTurn s with
  | host =>
    rw [step_host s hagent]
    exact hostTurn_ended (s := popTurn s) hprog
  | core =>
    rw [step_core s hagent]
    exact coreTurn_idle (s := popTurn s) hidle
  | reset => exact absurd hagent hturn

end Sys2Proof.Machine
